-- ==== Sys2Proof/Word.lean ====
section
/-! DEFINITION. Word types of the microecc CORE: the 32-bit bus and command word, the 256-bit slot, the 5-bit slot number. -/

namespace Sys2Proof

/-- A bus word, a register and a command word: 32 bits (R8 `WORD`, R300). -/
abbrev Word := BitVec 32

/-- The value of one operand slot: 256 bits (R8 `SLOTBITS`, R100). -/
abbrev SlotWord := BitVec 256

/-- A slot number as a command field holds it: 5 bits, unsigned (R302). -/
abbrev SlotNo := BitVec 5

end Sys2Proof
end

