-- ==== Sys2Proof/Config.lean ====
section
/-! DEFINITION. Configuration: the fixed parameters of R8, the open parameters of R9 and the names of the five curves. -/

namespace Sys2Proof

/-- The five named curves (R2, R141). There is no other curve and no way to register one. -/
inductive Curve where
  | secp160r1 | secp192r1 | secp224r1 | secp256r1 | secp256k1
  deriving DecidableEq, Repr

/-- One row of the curve parameter table (R140): `y² = x³ + a·x + b` mod `p`, generator `(gx, gy)` of order `n`. -/
structure CurveParams where
  p : Nat
  a : Nat
  b : Nat
  gx : Nat
  gy : Nat
  n : Nat
  deriving DecidableEq, Repr

namespace Config

/-- `NSLOT` operand slots (R8). -/
abbrev nslot : Nat := 32

/-- `MAX_TRIES`, the retry cap of KEYGEN and SIGN (R8, R800). -/
def maxTries : Nat := 64

/-- The read-only value of the ID register (R120). -/
def idValue : Word := 0x4D454301#32

/-- Which 2048-byte block of the host's address space holds the window: the open parameter `BASE` of R9, divided by
2048 since `BASE` is 2048-byte aligned (R200). Chosen by the platform: no value is known (log 5). -/
opaque baseIndex : Nat

/-- `BASE`: the bus address of offset 0x000 (R9, R200). -/
def base : Nat := 2048 * baseIndex

/-- `BUS_ERR_RESP`: whether the bus has an error response and gives it to an unsupported access (R9, R214). A platform
property: no value is known (log 6). It speaks of reserved offsets too, where R213 could be read otherwise (log 24). -/
opaque busErrResp : Bool

end Config

end Sys2Proof
end

