-- ==== Sys2Proof/Syntax.lean ====
section
/-! DEFINITION. The 39 commands of R310, one constructor per row of spec/opcode_table.json, with the fields each row uses. -/

namespace Sys2Proof

/-- The M field (R305): the width `Wp` or `Wn` of a VLI command, the modulus `p` or `n` of a modular command. -/
inductive MSel where
  | p | n
  deriving DecidableEq, Repr

/-- A command. `rd`, `ra`, `rb`, `rc` are the slot numbers of the fields the row uses (R302, R303); a field with span 0
is no argument, and an `m` stands where the row's M column is `p/n` (R310). -/
inductive Instr where
  -- VLI, 40_vli.md
  | nop
  | vadd (rd ra rb : SlotNo) (m : MSel)
  | vsub (rd ra rb : SlotNo) (m : MSel)
  | vmul (rd ra rb : SlotNo) (m : MSel)
  | vsqr (rd ra : SlotNo) (m : MSel)
  | vshl1 (rd ra : SlotNo) (m : MSel)
  | vshr1 (rd ra : SlotNo) (m : MSel)
  | vcmp (ra rb : SlotNo) (m : MSel)
  | vbitlen (rd ra : SlotNo) (m : MSel)
  | vtst (ra : SlotNo) (m : MSel)
  | vsel (rd ra rb rc : SlotNo) (m : MSel)
  | vmov (rd ra : SlotNo)
  -- modular arithmetic, 41_modular.md
  | madd (rd ra rb : SlotNo) (m : MSel)
  | msub (rd ra rb : SlotNo) (m : MSel)
  | mmul (rd ra rb : SlotNo) (m : MSel)
  | msqr (rd ra : SlotNo) (m : MSel)
  | minv (rd ra : SlotNo) (m : MSel)
  | msqrt (rd ra : SlotNo)
  | mred (rd ra : SlotNo) (m : MSel)
  | mmont (rd ra rb : SlotNo) (m : MSel)
  | mtom (rd ra : SlotNo) (m : MSel)
  | mfromm (rd ra : SlotNo) (m : MSel)
  -- points, 42_point.md
  | a2j (rd ra : SlotNo)
  | a2jz (rd ra rb : SlotNo)
  | j2a (rd ra : SlotNo)
  | pdbl (rd ra : SlotNo)
  | padd (rd ra rb : SlotNo)
  | jadd (rd ra rb : SlotNo)
  | pneg (rd ra : SlotNo)
  | pchk (ra : SlotNo)
  -- scalar multiplication, 43_scalar_mult.md
  | smul (rd ra rb : SlotNo)
  -- protocol, 44_protocol.md
  | keygen (rd : SlotNo)
  | pubkey (rd ra : SlotNo)
  | ecdh (rd ra rb : SlotNo)
  | sign (rd ra : SlotNo)
  | signk (rd ra rb : SlotNo)
  | verify (ra rb : SlotNo)
  | compress (rd ra : SlotNo)
  | decompress (rd ra : SlotNo)
  deriving DecidableEq, Repr

end Sys2Proof
end

