-- ==== Sys2Proof/WellFormed.lean ====
section
/-! DEFINITION. Which commands are well formed: every used field's span ends at slot 31 or below (R303). -/

namespace Sys2Proof

/-- A used field with span `k` must satisfy `field + k - 1 ≤ 31` (R303). -/
def spanFits (field : SlotNo) (k : Nat) : Bool := field.toNat + k ≤ 32

/-- The used fields of a command with their spans, in the order RD, RA, RB, RC (R310). -/
def Instr.spans : Instr → List (SlotNo × Nat)
  | .nop => []
  | .vadd rd ra rb _ => [(rd, 1), (ra, 1), (rb, 1)]
  | .vsub rd ra rb _ => [(rd, 1), (ra, 1), (rb, 1)]
  | .vmul rd ra rb _ => [(rd, 2), (ra, 1), (rb, 1)]
  | .vsqr rd ra _ => [(rd, 2), (ra, 1)]
  | .vshl1 rd ra _ => [(rd, 1), (ra, 1)]
  | .vshr1 rd ra _ => [(rd, 1), (ra, 1)]
  | .vcmp ra rb _ => [(ra, 1), (rb, 1)]
  | .vbitlen rd ra _ => [(rd, 1), (ra, 1)]
  | .vtst ra _ => [(ra, 1)]
  | .vsel rd ra rb rc _ => [(rd, 1), (ra, 1), (rb, 1), (rc, 1)]
  | .vmov rd ra => [(rd, 1), (ra, 1)]
  | .madd rd ra rb _ => [(rd, 1), (ra, 1), (rb, 1)]
  | .msub rd ra rb _ => [(rd, 1), (ra, 1), (rb, 1)]
  | .mmul rd ra rb _ => [(rd, 1), (ra, 1), (rb, 1)]
  | .msqr rd ra _ => [(rd, 1), (ra, 1)]
  | .minv rd ra _ => [(rd, 1), (ra, 1)]
  | .msqrt rd ra => [(rd, 1), (ra, 1)]
  | .mred rd ra _ => [(rd, 1), (ra, 2)]
  | .mmont rd ra rb _ => [(rd, 1), (ra, 1), (rb, 1)]
  | .mtom rd ra _ => [(rd, 1), (ra, 1)]
  | .mfromm rd ra _ => [(rd, 1), (ra, 1)]
  | .a2j rd ra => [(rd, 3), (ra, 2)]
  | .a2jz rd ra rb => [(rd, 3), (ra, 2), (rb, 1)]
  | .j2a rd ra => [(rd, 2), (ra, 3)]
  | .pdbl rd ra => [(rd, 3), (ra, 3)]
  | .padd rd ra rb => [(rd, 3), (ra, 3), (rb, 2)]
  | .jadd rd ra rb => [(rd, 3), (ra, 3), (rb, 3)]
  | .pneg rd ra => [(rd, 2), (ra, 2)]
  | .pchk ra => [(ra, 2)]
  | .smul rd ra rb => [(rd, 2), (ra, 2), (rb, 1)]
  | .keygen rd => [(rd, 3)]
  | .pubkey rd ra => [(rd, 2), (ra, 1)]
  | .ecdh rd ra rb => [(rd, 1), (ra, 2), (rb, 1)]
  | .sign rd ra => [(rd, 2), (ra, 1)]
  | .signk rd ra rb => [(rd, 2), (ra, 1), (rb, 1)]
  | .verify ra rb => [(ra, 2), (rb, 2)]
  | .compress rd ra => [(rd, 2), (ra, 2)]
  | .decompress rd ra => [(rd, 2), (ra, 2)]

/-- A command is well formed when every used field's span fits (R303). A span that would pass slot 31 is an operand
error, and spans do not wrap (R102): the machine completes such a command with ERR_OPERAND. -/
def Instr.wf (i : Instr) : Bool := i.spans.all fun fk => spanFits fk.1 fk.2

end Sys2Proof
end

