-- ==== Sys2Proof/Decode.lean ====
section
/-! DEFINITION. The command word (R300-R313): field extraction, the opcode table with its match and mask columns, the
decoder (total on any word, rejecting by name), and after it the encoder. -/

namespace Sys2Proof

/-! ## Fields (R300) -/

/-- OP, bits [7:0]. -/
def opField (w : Word) : BitVec 8 := w.extractLsb' 0 8
/-- RD, bits [12:8]. -/
def rdField (w : Word) : SlotNo := w.extractLsb' 8 5
/-- RA, bits [17:13]. -/
def raField (w : Word) : SlotNo := w.extractLsb' 13 5
/-- RB, bits [22:18]. -/
def rbField (w : Word) : SlotNo := w.extractLsb' 18 5
/-- RC, bits [27:23]. -/
def rcField (w : Word) : SlotNo := w.extractLsb' 23 5
/-- M, bit [28]. -/
def mField (w : Word) : BitVec 1 := w.extractLsb' 28 1

/-- M = 0 selects `p`, M = 1 selects `n` (R305). -/
def MSel.ofBit (b : BitVec 1) : MSel := if b = 1#1 then .n else .p

/-- The bit that selects `p` or `n` (R305). -/
def MSel.toBit : MSel → BitVec 1
  | .p => 0#1
  | .n => 1#1

/-! ## The opcode table (R310) -/

/-- One row of R310: the word belongs to the row when `(word AND mask) = match`; `make` reads the fields the row uses. -/
structure OpRow where
  mnemonic : String
  pattern : Word
  mask : Word
  make : Word → Instr

/-- The OP value of a row. -/
def OpRow.op (r : OpRow) : BitVec 8 := opField r.pattern

def makeRdRaRbM (c : SlotNo → SlotNo → SlotNo → MSel → Instr) (w : Word) : Instr :=
  c (rdField w) (raField w) (rbField w) (.ofBit (mField w))
def makeRdRaM (c : SlotNo → SlotNo → MSel → Instr) (w : Word) : Instr :=
  c (rdField w) (raField w) (.ofBit (mField w))
def makeRaRbM (c : SlotNo → SlotNo → MSel → Instr) (w : Word) : Instr :=
  c (raField w) (rbField w) (.ofBit (mField w))
def makeRdRaRb (c : SlotNo → SlotNo → SlotNo → Instr) (w : Word) : Instr :=
  c (rdField w) (raField w) (rbField w)
def makeRdRa (c : SlotNo → SlotNo → Instr) (w : Word) : Instr :=
  c (rdField w) (raField w)

/-- VLI rows of R310. -/
def vliRows : List OpRow :=
  [ ⟨"NOP",     0x00000000#32, 0xFFFFFFFF#32, fun _ => .nop⟩,
    ⟨"VADD",    0x00000001#32, 0xEF8000FF#32, makeRdRaRbM .vadd⟩,
    ⟨"VSUB",    0x00000002#32, 0xEF8000FF#32, makeRdRaRbM .vsub⟩,
    ⟨"VMUL",    0x00000003#32, 0xEF8000FF#32, makeRdRaRbM .vmul⟩,
    ⟨"VSQR",    0x00000004#32, 0xEFFC00FF#32, makeRdRaM .vsqr⟩,
    ⟨"VSHL1",   0x00000005#32, 0xEFFC00FF#32, makeRdRaM .vshl1⟩,
    ⟨"VSHR1",   0x00000006#32, 0xEFFC00FF#32, makeRdRaM .vshr1⟩,
    ⟨"VCMP",    0x00000007#32, 0xEF801FFF#32, makeRaRbM .vcmp⟩,
    ⟨"VBITLEN", 0x00000008#32, 0xEFFC00FF#32, makeRdRaM .vbitlen⟩,
    ⟨"VTST",    0x00000009#32, 0xEFFC1FFF#32, fun w => .vtst (raField w) (.ofBit (mField w))⟩,
    ⟨"VSEL",    0x0000000A#32, 0xE00000FF#32,
      fun w => .vsel (rdField w) (raField w) (rbField w) (rcField w) (.ofBit (mField w))⟩,
    ⟨"VMOV",    0x0000000B#32, 0xFFFC00FF#32, makeRdRa .vmov⟩ ]

/-- Modular rows of R310. -/
def modularRows : List OpRow :=
  [ ⟨"MADD",    0x00000010#32, 0xEF8000FF#32, makeRdRaRbM .madd⟩,
    ⟨"MSUB",    0x00000011#32, 0xEF8000FF#32, makeRdRaRbM .msub⟩,
    ⟨"MMUL",    0x00000012#32, 0xEF8000FF#32, makeRdRaRbM .mmul⟩,
    ⟨"MSQR",    0x00000013#32, 0xEFFC00FF#32, makeRdRaM .msqr⟩,
    ⟨"MINV",    0x00000014#32, 0xEFFC00FF#32, makeRdRaM .minv⟩,
    ⟨"MSQRT",   0x00000015#32, 0xFFFC00FF#32, makeRdRa .msqrt⟩,
    ⟨"MRED",    0x00000016#32, 0xEFFC00FF#32, makeRdRaM .mred⟩,
    ⟨"MMONT",   0x00000017#32, 0xEF8000FF#32, makeRdRaRbM .mmont⟩,
    ⟨"MTOM",    0x00000018#32, 0xEFFC00FF#32, makeRdRaM .mtom⟩,
    ⟨"MFROMM",  0x00000019#32, 0xEFFC00FF#32, makeRdRaM .mfromm⟩ ]

/-- Point and scalar multiplication rows of R310. -/
def pointRows : List OpRow :=
  [ ⟨"A2J",     0x00000020#32, 0xFFFC00FF#32, makeRdRa .a2j⟩,
    ⟨"A2JZ",    0x00000021#32, 0xFF8000FF#32, makeRdRaRb .a2jz⟩,
    ⟨"J2A",     0x00000022#32, 0xFFFC00FF#32, makeRdRa .j2a⟩,
    ⟨"PDBL",    0x00000023#32, 0xFFFC00FF#32, makeRdRa .pdbl⟩,
    ⟨"PADD",    0x00000024#32, 0xFF8000FF#32, makeRdRaRb .padd⟩,
    ⟨"JADD",    0x00000025#32, 0xFF8000FF#32, makeRdRaRb .jadd⟩,
    ⟨"PNEG",    0x00000026#32, 0xFFFC00FF#32, makeRdRa .pneg⟩,
    ⟨"PCHK",    0x00000027#32, 0xFFFC1FFF#32, fun w => .pchk (raField w)⟩,
    ⟨"SMUL",    0x00000028#32, 0xFF8000FF#32, makeRdRaRb .smul⟩ ]

/-- Protocol rows of R310. -/
def protocolRows : List OpRow :=
  [ ⟨"KEYGEN",     0x00000030#32, 0xFFFFE0FF#32, fun w => .keygen (rdField w)⟩,
    ⟨"PUBKEY",     0x00000031#32, 0xFFFC00FF#32, makeRdRa .pubkey⟩,
    ⟨"ECDH",       0x00000032#32, 0xFF8000FF#32, makeRdRaRb .ecdh⟩,
    ⟨"SIGN",       0x00000033#32, 0xFFFC00FF#32, makeRdRa .sign⟩,
    ⟨"SIGNK",      0x00000034#32, 0xFF8000FF#32, makeRdRaRb .signk⟩,
    ⟨"VERIFY",     0x00000035#32, 0xFF801FFF#32, fun w => .verify (raField w) (rbField w)⟩,
    ⟨"COMPRESS",   0x00000036#32, 0xFFFC00FF#32, makeRdRa .compress⟩,
    ⟨"DECOMPRESS", 0x00000037#32, 0xFFFC00FF#32, makeRdRa .decompress⟩ ]

/-- The complete opcode table (R310). -/
def opTable : List OpRow := vliRows ++ modularRows ++ pointRows ++ protocolRows

/-- The row whose OP is `op`, if there is one (R313). -/
def rowOf (op : BitVec 8) : Option OpRow := opTable.find? fun r => r.op == op

/-! ## The decoder (R313) -/

/-- Why a word is no command. -/
inductive DecodeError where
  /-- OP is not in R310 (R311): the command ends with ERR_ILLEGAL. -/
  | illegal
  /-- OP is in R310 but a must-be-zero field, a reserved bit or a disallowed M is nonzero (R304): the command ends with
  ERR_OPERAND, once the curve check of R910 has passed. -/
  | mustBeZero
  deriving DecidableEq, Repr

/-- The decoding procedure of R313, total on any word. Span overflows and DLEN are checked by value after it (R910). -/
def decode (w : Word) : Except DecodeError Instr :=
  match rowOf (opField w) with
  | none => .error .illegal
  | some r => if w &&& r.mask = r.pattern then .ok (r.make w) else .error .mustBeZero

/-! ## The encoder (R300) -/

/-- `word = OP | RD<<8 | RA<<13 | RB<<18 | RC<<23 | M<<28` (R300). -/
def packWord (op : BitVec 8) (rd ra rb rc : SlotNo) (m : BitVec 1) : Word :=
  op.setWidth 32 ||| rd.setWidth 32 <<< 8 ||| ra.setWidth 32 <<< 13 ||| rb.setWidth 32 <<< 18 |||
    rc.setWidth 32 <<< 23 ||| m.setWidth 32 <<< 28

/-- The OP value of a command (R310). -/
def Instr.opcode : Instr → BitVec 8
  | .nop => 0x00#8
  | .vadd _ _ _ _ => 0x01#8
  | .vsub _ _ _ _ => 0x02#8
  | .vmul _ _ _ _ => 0x03#8
  | .vsqr _ _ _ => 0x04#8
  | .vshl1 _ _ _ => 0x05#8
  | .vshr1 _ _ _ => 0x06#8
  | .vcmp _ _ _ => 0x07#8
  | .vbitlen _ _ _ => 0x08#8
  | .vtst _ _ => 0x09#8
  | .vsel _ _ _ _ _ => 0x0A#8
  | .vmov _ _ => 0x0B#8
  | .madd _ _ _ _ => 0x10#8
  | .msub _ _ _ _ => 0x11#8
  | .mmul _ _ _ _ => 0x12#8
  | .msqr _ _ _ => 0x13#8
  | .minv _ _ _ => 0x14#8
  | .msqrt _ _ => 0x15#8
  | .mred _ _ _ => 0x16#8
  | .mmont _ _ _ _ => 0x17#8
  | .mtom _ _ _ => 0x18#8
  | .mfromm _ _ _ => 0x19#8
  | .a2j _ _ => 0x20#8
  | .a2jz _ _ _ => 0x21#8
  | .j2a _ _ => 0x22#8
  | .pdbl _ _ => 0x23#8
  | .padd _ _ _ => 0x24#8
  | .jadd _ _ _ => 0x25#8
  | .pneg _ _ => 0x26#8
  | .pchk _ => 0x27#8
  | .smul _ _ _ => 0x28#8
  | .keygen _ => 0x30#8
  | .pubkey _ _ => 0x31#8
  | .ecdh _ _ _ => 0x32#8
  | .sign _ _ => 0x33#8
  | .signk _ _ _ => 0x34#8
  | .verify _ _ => 0x35#8
  | .compress _ _ => 0x36#8
  | .decompress _ _ => 0x37#8

/-- The word of a command: its fields in their places, every field it does not use 0 (R300, R304). -/
def encode (i : Instr) : Word :=
  match i with
  | .nop => packWord i.opcode 0 0 0 0 0
  | .vadd rd ra rb m | .vsub rd ra rb m | .vmul rd ra rb m
  | .madd rd ra rb m | .msub rd ra rb m | .mmul rd ra rb m | .mmont rd ra rb m =>
      packWord i.opcode rd ra rb 0 m.toBit
  | .vsqr rd ra m | .vshl1 rd ra m | .vshr1 rd ra m | .vbitlen rd ra m
  | .msqr rd ra m | .minv rd ra m | .mred rd ra m | .mtom rd ra m | .mfromm rd ra m =>
      packWord i.opcode rd ra 0 0 m.toBit
  | .vcmp ra rb m => packWord i.opcode 0 ra rb 0 m.toBit
  | .vtst ra m => packWord i.opcode 0 ra 0 0 m.toBit
  | .vsel rd ra rb rc m => packWord i.opcode rd ra rb rc m.toBit
  | .vmov rd ra | .msqrt rd ra | .a2j rd ra | .j2a rd ra | .pdbl rd ra | .pneg rd ra
  | .pubkey rd ra | .sign rd ra | .compress rd ra | .decompress rd ra =>
      packWord i.opcode rd ra 0 0 0
  | .a2jz rd ra rb | .padd rd ra rb | .jadd rd ra rb | .smul rd ra rb | .ecdh rd ra rb
  | .signk rd ra rb => packWord i.opcode rd ra rb 0 0
  | .pchk ra => packWord i.opcode 0 ra 0 0 0
  | .verify ra rb => packWord i.opcode 0 ra rb 0 0
  | .keygen rd => packWord i.opcode rd 0 0 0 0

/-! ## The host's question about one opcode-table row -/

/-- The command the decoder reads from an instruction of `nbits` bits `w`, bit 0 the least significant bit of the word
(R301: every command is one 32-bit word); the bits above `nbits` are 0. -/
def decodeTableWord (nbits w : Nat) : Option Instr :=
  match decode (BitVec.ofNat 32 (w % 2 ^ nbits)) with
  | .ok i => some i
  | .error _ => none

end Sys2Proof
end

