-- ==== Sys2Proof/Machine/State.lean ====
section
/-! DEFINITION. The state of the block (10_state.md R100-R131), the inputs that the outside world offers it, and the
state after reset (R1000). Plain data throughout. -/

namespace Sys2Proof.Machine

/-- The slot file `x[0..31]` (R100). -/
abbrev Slots := Vector SlotWord 32

/-- The DIGEST buffer: eight words (R126). -/
abbrev Digest := Vector Word 8

/-- The flags Z, C and V (R124). -/
structure Flags where
  z : Bool
  c : Bool
  v : Bool
  deriving DecidableEq, Repr

/-- The error codes of STATUS.ERR (R900). Codes 11-15 are reserved and never written, so they have no name here. -/
inductive ErrCode where
  | ok | illegal | operand | curve | range | noInv | noSqrt | scalar | point | rng | degen
  deriving DecidableEq, Repr

/-- What the block latches when a command is issued (R306, R905). -/
structure Latch where
  word : Word
  curve : BitVec 3
  dlen : BitVec 6
  digest : Digest
  slots : Slots
  deriving DecidableEq, Repr

/-- The engine state (R130): IDLE, or BUSY with the latched values of the running command. While IDLE the latched
values are undefined and unobservable (R130, U5), so there are none (log 11). -/
inductive Engine where
  | idle
  | busy (l : Latch)
  deriving DecidableEq, Repr

/-- The size of a host bus access (R214). -/
inductive AccessSize where
  | byte | half | word
  deriving DecidableEq, Repr

/-- Whether a host bus access reads or writes, and what it writes. -/
inductive AccessKind where
  | read
  | write (v : Word)
  deriving DecidableEq, Repr

/-- One host bus access that the platform routes to the window: its bus address, its size, its byte enables (R214). -/
structure Access where
  addr : Nat
  size : AccessSize
  enables : BitVec 4
  kind : AccessKind
  deriving DecidableEq, Repr

/-- The block's answer to one bus access: the value read, and whether an error response goes with it (R214). -/
inductive BusResponse where
  | readData (v : Word) (busError : Bool)
  | writeDone (busError : Bool)
  deriving DecidableEq, Repr

/-- One answer of the entropy provider to a draw (R930): `Fail`, or words of which a `Draw(k)` takes the first `k`,
`w_0` first. No draw takes more than eight words (log 3). -/
inductive EntropyAnswer where
  | fail
  | ok (words : Vector Word 8)
  deriving DecidableEq, Repr

/-- What happens next at the block's boundary (log 2). -/
inductive Input where
  /-- One host bus access (R240). -/
  | bus (a : Access)
  /-- The engine has its turn: a running command completes, or waits for an entropy answer (R906, R930). -/
  | engine
  /-- The provider answers the outstanding draw, or will answer the next one with this (R930). -/
  | entropy (a : EntropyAnswer)
  /-- An answer arrives, after a reset, to the draw which that reset has abandoned (R1001, log 21). -/
  | lateEntropy (a : EntropyAnswer)
  /-- The reset input is asserted and released (R1000). -/
  | reset
  deriving DecidableEq, Repr

/-- The whole state of the machine. -/
structure State where
  /-- The slot file (R100). -/
  slots : Slots
  /-- CTRL.CURVE, CTRL[2:0] (R121). -/
  ctrlCurve : BitVec 3
  /-- CTRL.IE, CTRL[3] (R121). -/
  ctrlIe : Bool
  /-- CMD (R122). -/
  cmd : Word
  /-- STATUS.DONE (R123). -/
  done : Bool
  /-- STATUS.Z, C and V (R123, R124). -/
  flags : Flags
  /-- STATUS.ACCERR (R123, R1020). -/
  accerr : Bool
  /-- STATUS.ERR (R123, R900). -/
  err : ErrCode
  /-- STATUS.TRIES (R123). -/
  tries : BitVec 8
  /-- DLEN[5:0] (R125). -/
  dlen : BitVec 6
  /-- DIGEST[0..7] (R126). -/
  digest : Digest
  /-- The engine state, mirrored in STATUS.BUSY (R130). -/
  eng : Engine
  /-- The try counter of a running KEYGEN or SIGN (R130, R800). -/
  tryCounter : Nat
  /-- Whether an entropy draw is outstanding (R130, R930). -/
  entPending : Bool
  /-- The model's own: what the outside world does next, first at the head (log 2). -/
  inputs : List Input
  /-- The model's own: the provider's answers not yet consumed, one per draw (R930, log 3). While a draw is outstanding the
  first of them is its answer. -/
  entropy : List EntropyAnswer
  /-- The model's own: the bus response of the last step, if that step was a bus access (log 4). -/
  resp : Option BusResponse
  deriving DecidableEq, Repr

/-- Why the machine could stop. The block has no traps and an error does not stop it (R907), so no step ever answers a
fault (obligation NoTrapAndErrKeptUntilNextIssue); the interface asks for the type (log 17). -/
inductive Fault where
  /-- Raised by nobody: the block has no traps (R907). Safe. -/
  | noTraps
  deriving DecidableEq, Repr

/-- Why an instruction could be refused. -/
inductive Refusal where
  /-- An instruction that has no meaning yet, raised by `exec` alone; no arm raises it: all 39 are modelled. Safe. -/
  | notModelled (mnemonic : String)
  deriving DecidableEq, Repr

/-- The state after reset: every register at its value in R1000, nothing offered from outside (log 2, 3, 4, 22). -/
def State.reset : State where
  slots := Vector.replicate 32 0
  ctrlCurve := 0
  ctrlIe := false
  cmd := 0
  done := false
  flags := { z := false, c := false, v := false }
  accerr := false
  err := .ok
  tries := 0
  dlen := 0
  digest := Vector.replicate 8 0
  eng := .idle
  tryCounter := 0
  entPending := false
  inputs := []
  entropy := []
  resp := none

end Sys2Proof.Machine
end

