-- ==== Sys2Proof/Machine/Flags.lean ====
section
/-! DEFINITION. The flag values of every command (R124, and the Flags part of each command's rule). No flag is an input to
any command. -/

namespace Sys2Proof.Machine

/-- Z = C = V = 0: an issue, an error, and every command whose rule names no flag value (R124, R905, R906). -/
def Flags.clear : Flags := { z := false, c := false, v := false }

/-- Z is set when the value is 0, C = V = 0 (R413, R414, R418, R420, R421, R501). -/
def Flags.ofZero (v : Nat) : Flags := { z := v = 0, c := false, v := false }

/-- Z as given, C = V = 0: the point family (R606). -/
def Flags.ofInf (isInf : Bool) : Flags := { z := isInf, c := false, v := false }

/-- Z is set when the written result is 0, C is a carry, a borrow or the bit shifted out (R411, R412, R415, R416, R419). -/
def Flags.ofCarry (result : Nat) (carry : Bool) : Flags := { z := result = 0, c := carry, v := false }

/-- VCMP: Z for equal, C for below (R417). -/
def Flags.ofCompare (A B : Nat) : Flags := { z := A = B, c := A < B, v := false }

/-- V alone: PCHK and VERIFY (R660, R850). -/
def Flags.ofValid (v : Bool) : Flags := { z := false, c := false, v := v }

/-- C alone, a parity: COMPRESS and DECOMPRESS (R860, R870). -/
def Flags.ofParity (c : Bool) : Flags := { z := false, c := c, v := false }

end Sys2Proof.Machine
end

