-- ==== Sys2Proof/Machine/CurveTable.lean ====
section
/-! DEFINITION. The curve parameter table (R140), the curve identifiers (R141) and the widths derived from it (R10). -/

namespace Sys2Proof

/-- The number of bits of `v` without leading zeros; `bitlen(0) = 0` (R13). -/
def bitlen (v : Nat) : Nat := if v = 0 then 0 else Nat.log2 v + 1

namespace Curve

/-- The read-only curve table (R140). -/
def params : Curve → CurveParams
  | .secp160r1 =>
    { p  := 0xFFFFFFFFFFFFFFFFFFFFFFFFFFFFFFFF7FFFFFFF
      a  := 0xFFFFFFFFFFFFFFFFFFFFFFFFFFFFFFFF7FFFFFFC
      b  := 0x1C97BEFC54BD7A8B65ACF89F81D4D4ADC565FA45
      gx := 0x4A96B5688EF573284664698968C38BB913CBFC82
      gy := 0x23A628553168947D59DCC912042351377AC5FB32
      n  := 0x0000000100000000000000000001F4C8F927AED3CA752257 }
  | .secp192r1 =>
    { p  := 0xFFFFFFFFFFFFFFFFFFFFFFFFFFFFFFFEFFFFFFFFFFFFFFFF
      a  := 0xFFFFFFFFFFFFFFFFFFFFFFFFFFFFFFFEFFFFFFFFFFFFFFFC
      b  := 0x64210519E59C80E70FA7E9AB72243049FEB8DEECC146B9B1
      gx := 0x188DA80EB03090F67CBF20EB43A18800F4FF0AFD82FF1012
      gy := 0x07192B95FFC8DA78631011ED6B24CDD573F977A11E794811
      n  := 0xFFFFFFFFFFFFFFFFFFFFFFFF99DEF836146BC9B1B4D22831 }
  | .secp224r1 =>
    { p  := 0xFFFFFFFFFFFFFFFFFFFFFFFFFFFFFFFF000000000000000000000001
      a  := 0xFFFFFFFFFFFFFFFFFFFFFFFFFFFFFFFEFFFFFFFFFFFFFFFFFFFFFFFE
      b  := 0xB4050A850C04B3ABF54132565044B0B7D7BFD8BA270B39432355FFB4
      gx := 0xB70E0CBD6BB4BF7F321390B94A03C1D356C21122343280D6115C1D21
      gy := 0xBD376388B5F723FB4C22DFE6CD4375A05A07476444D5819985007E34
      n  := 0xFFFFFFFFFFFFFFFFFFFFFFFFFFFF16A2E0B8F03E13DD29455C5C2A3D }
  | .secp256r1 =>
    { p  := 0xFFFFFFFF00000001000000000000000000000000FFFFFFFFFFFFFFFFFFFFFFFF
      a  := 0xFFFFFFFF00000001000000000000000000000000FFFFFFFFFFFFFFFFFFFFFFFC
      b  := 0x5AC635D8AA3A93E7B3EBBD55769886BC651D06B0CC53B0F63BCE3C3E27D2604B
      gx := 0x6B17D1F2E12C4247F8BCE6E563A440F277037D812DEB33A0F4A13945D898C296
      gy := 0x4FE342E2FE1A7F9B8EE7EB4A7C0F9E162BCE33576B315ECECBB6406837BF51F5
      n  := 0xFFFFFFFF00000000FFFFFFFFFFFFFFFFBCE6FAADA7179E84F3B9CAC2FC632551 }
  | .secp256k1 =>
    { p  := 0xFFFFFFFFFFFFFFFFFFFFFFFFFFFFFFFFFFFFFFFFFFFFFFFFFFFFFFFEFFFFFC2F
      a  := 0
      b  := 7
      gx := 0x79BE667EF9DCBBAC55A06295CE870B07029BFCDB2DCE28D959F2815B16F81798
      gy := 0x483ADA7726A3C4655DA4FBFC0E1108A8FD17B448A68554199C47D08FFB10D4B8
      n  := 0xFFFFFFFFFFFFFFFFFFFFFFFFFFFFFFFEBAAEDCE6AF48A03BBFD25E8CD0364141 }

/-- The field prime. -/
def p (c : Curve) : Nat := c.params.p
/-- The coefficient `a`. -/
def a (c : Curve) : Nat := c.params.a
/-- The coefficient `b`. -/
def b (c : Curve) : Nat := c.params.b
/-- The generator's x. -/
def gx (c : Curve) : Nat := c.params.gx
/-- The generator's y. -/
def gy (c : Curve) : Nat := c.params.gy
/-- The group order. -/
def n (c : Curve) : Nat := c.params.n

/-- `nbits = bitlen(n)` (R10). -/
def nbits (c : Curve) : Nat := bitlen c.n
/-- `pbits = bitlen(p)` (R10). -/
def pbits (c : Curve) : Nat := bitlen c.p
/-- `Wp`, the number of 32-bit words of `p` (R10). -/
def wp (c : Curve) : Nat := (c.pbits + 31) / 32
/-- `Wn`, the number of 32-bit words of `n` (R10). -/
def wn (c : Curve) : Nat := (c.nbits + 31) / 32
/-- `NBp = ceil(pbits/8)` (R10). -/
def nbp (c : Curve) : Nat := (c.pbits + 7) / 8
/-- `NBn = ceil(nbits/8)` (R10). -/
def nbn (c : Curve) : Nat := (c.nbits + 7) / 8

/-- The curve that CTRL.CURVE selects; 0, 6 and 7 are reserved (R141). -/
def ofId (id : BitVec 3) : Option Curve :=
  match id.toNat with
  | 1 => some .secp160r1
  | 2 => some .secp192r1
  | 3 => some .secp224r1
  | 4 => some .secp256r1
  | 5 => some .secp256k1
  | _ => none

/-- The identifier of a curve (R141). -/
def id : Curve → BitVec 3
  | .secp160r1 => 1
  | .secp192r1 => 2
  | .secp224r1 => 3
  | .secp256r1 => 4
  | .secp256k1 => 5

end Curve

end Sys2Proof
end

