-- ==== Sys2Proof/Machine/Arith.lean ====
section
/-! DEFINITION. Arithmetic primitives of R13: residues, powers, inverses, square roots. Exact integers throughout; which
algorithm computes a residue is not observable (R502). -/

namespace Sys2Proof

/-- `trunc_W(v) = v mod 2^(32·W)`: the low `W` words (R13). -/
def truncW (W v : Nat) : Nat := v % 2 ^ (32 * W)

/-- `z mod m`: the least non-negative remainder (R13). -/
def residue (z : Int) (m : Nat) : Nat := (z % (m : Int)).toNat

/-- Square and multiply: `acc · b^e mod m`, over the `fuel` low bits of `e`. -/
def powModAux (m : Nat) : Nat → Nat → Nat → Nat → Nat
  | 0, _, _, acc => acc
  | fuel + 1, b, e, acc => powModAux m fuel (b * b % m) (e / 2) (if e % 2 = 1 then acc * b % m else acc)

/-- `a^e mod m`. -/
def powMod (a e m : Nat) : Nat := powModAux m (bitlen e) (a % m) e (1 % m)

/-- The extended Euclidean algorithm: with `r0 ≡ s0·a` and `r1 ≡ s1·a` modulo `m`, the coefficient of `gcd(r0, r1)`. -/
def euclidCoeff : Nat → Nat → Nat → Int → Int → Int
  | 0, _, _, s0, _ => s0
  | fuel + 1, r0, r1, s0, s1 =>
    if r1 = 0 then s0 else euclidCoeff fuel r1 (r0 % r1) s1 (s0 - (r0 / r1 : Nat) * s1)

/-- `inv_m(a)`: the unique `b` in `[1, m-1]` with `a·b mod m = 1`, defined when `gcd(a, m) = 1` (R13). Every caller has
`gcd(a, m) = 1`; what this function gives otherwise reaches no result (log 9). -/
def invMod (a m : Nat) : Nat := residue (euclidCoeff (2 * bitlen m + 2) m (a % m) 0 1) m

/-- `QR_p(A)`: `A = 0` or `A^((p-1)/2) mod p = 1` (R515). -/
def isQuadraticResidue (p A : Nat) : Bool := A = 0 || powMod A ((p - 1) / 2) p = 1

/-- `t` squared `k` times, modulo `p`. -/
def squareTimes (p : Nat) : Nat → Nat → Nat
  | 0, t => t
  | k + 1, t => squareTimes p k (t * t % p)

/-- The loop of Tonelli–Shanks for `p - 1 = 2^s · q`. On entry to round `i + 1`: `r² ≡ A·t`, the order of `t` divides
`2^(i+1)` and `c` has order `2^(i+2)`, modulo `p`. -/
def tonelliLoop (p : Nat) : Nat → Nat → Nat → Nat → Nat
  | 0, r, _, _ => r
  | i + 1, r, t, c =>
    let c2 := c * c % p
    if squareTimes p i t = 1 then tonelliLoop p i r t c2
    else tonelliLoop p i (r * c % p) (t * c2 % p) c2

/-- A square root of the quadratic residue `A` modulo the secp224r1 prime, `p - 1 = 2^96 · (2^128 - 1)`, by
Tonelli–Shanks with the non-residue 11; any algorithm may compute it (R516, log 8). -/
def tonelliSqrt (p A : Nat) : Nat :=
  let q := 2 ^ 128 - 1
  tonelliLoop p 95 (powMod A ((q + 1) / 2) p) (powMod A q p) (powMod 11 q p)

/-- `SqrtP(A)`, the principal square root of a quadratic residue (R516): the closed form where `p mod 4 = 3`, else (on
secp224r1) the even one of the two roots. -/
def sqrtP (p A : Nat) : Nat :=
  if p % 4 = 3 then powMod A ((p + 1) / 4) p
  else
    let r := tonelliSqrt p A
    if r % 2 = 0 then r else p - r

/-- `int_be(b_0 .. b_(L-1)) = Σ b_i·256^(L-1-i)`: a byte string read big-endian (R13). -/
def intBE (bytes : List (BitVec 8)) : Nat := bytes.foldl (fun acc b => 256 * acc + b.toNat) 0

end Sys2Proof
end

