-- ==== Sys2Proof/Machine/Group.lean ====
section
/-! DEFINITION. The curve primitives: points and the group law of R14, the Jacobian formulas of R604 and R605, the mixed
adder of R640, and scalar multiplication (R700). -/

namespace Sys2Proof

/-- An affine point or `INF`, the group identity (R14). -/
inductive Point where
  | inf
  | affine (x y : Nat)
  deriving DecidableEq, Repr

/-- A Jacobian triple `(X, Y, Z)` (R15); `Z = 0` denotes `INF` (D21). -/
structure Jac where
  x : Nat
  y : Nat
  z : Nat
  deriving DecidableEq, Repr

/-- The canonical Jacobian `INF`, `(1, 1, 0)` (R600). -/
def Jac.inf : Jac := ⟨1, 1, 0⟩

/-- An affine result as a pair of slot values: `INF` is written `(0, 0)` (R600). -/
def Point.coords : Point → Nat × Nat
  | .inf => (0, 0)
  | .affine x y => (x, y)

/-- The generator `G` of the curve (R14). -/
def Curve.G (c : Curve) : Point := .affine c.gx c.gy

/-- `OnCurve(x, y)`: `(y² - (x³ + a·x + b)) mod p = 0` (R14). -/
def onCurve (c : Curve) (x y : Nat) : Bool :=
  residue ((y * y : Int) - (x * x * x + c.a * x + c.b)) c.p = 0

/-- `Valid(x, y)` (R602): not `(0, 0)`, both coordinates `< p`, and on the curve. -/
def validPoint (c : Curve) (x y : Nat) : Bool :=
  !(x = 0 && y = 0) && x < c.p && y < c.p && onCurve c x y

/-- The affine point with slope `l` through `(x1, y1)` and a point of abscissa `x2` (R14). -/
def chord (p l x1 y1 x2 : Nat) : Point :=
  let x3 := residue ((l * l : Int) - x1 - x2) p
  .affine x3 (residue ((l : Int) * (x1 - x3) - y1) p)

/-- `ECADD(P, Q)`, the group law (R14). On the curve, points with equal `x` that are not opposite are equal, so the
doubling slope stands wherever `x1 = x2` (log 16). -/
def ecAdd (c : Curve) : Point → Point → Point
  | .inf, Q => Q
  | P, .inf => P
  | .affine x1 y1, .affine x2 y2 =>
    if x1 = x2 then
      if (y1 + y2) % c.p = 0 then .inf
      else chord c.p (residue ((3 * x1 * x1 + c.a : Int) * invMod (2 * y1) c.p) c.p) x1 y1 x2
    else chord c.p (residue (((y2 : Int) - y1) * invMod (residue ((x2 : Int) - x1) c.p) c.p) c.p) x1 y1 x2

/-- `ECMUL(k, P)`: `INF` for `k = 0` and `ECADD(ECMUL(k-1, P), P)` for `k ≥ 1` (R14). -/
def ecMul (c : Curve) : Nat → Point → Point
  | 0, _ => .inf
  | k + 1, P => ecAdd c (ecMul c k P) P

/-- `ECNEG((x, y)) = (x, (p - y) mod p)` and `ECNEG(INF) = INF` (R14). -/
def ecNeg (c : Curve) : Point → Point
  | .inf => .inf
  | .affine x y => .affine x ((c.p - y) % c.p)

/-- Jacobian doubling `JDBL` (R604). -/
def jdbl (c : Curve) (P : Jac) : Jac :=
  if P.z = 0 ∨ P.y = 0 then .inf
  else
    let X : Int := P.x
    let Y : Int := P.y
    let Z : Int := P.z
    let M : Int := residue (3 * (X * X) + c.a * (Z * Z * Z * Z)) c.p
    let S : Int := residue (4 * X * (Y * Y)) c.p
    let X3 : Int := residue (M * M - 2 * S) c.p
    let Y3 := residue (M * (S - X3) - 8 * (Y * Y * Y * Y)) c.p
    let Z3 := residue (2 * Y * Z) c.p
    ⟨X3.toNat, Y3, Z3⟩

/-- Jacobian addition `JSUM` (R605). Equal points are doubled from the first triple (D23). -/
def jsum (c : Curve) (P1 P2 : Jac) : Jac :=
  if P1.z = 0 ∧ P2.z = 0 then .inf
  else if P1.z = 0 then P2
  else if P2.z = 0 then P1
  else
    let Z1 : Int := P1.z
    let Z2 : Int := P2.z
    let U1 : Int := residue (P1.x * (Z2 * Z2)) c.p
    let U2 : Int := residue (P2.x * (Z1 * Z1)) c.p
    let S1 : Int := residue (P1.y * (Z2 * Z2 * Z2)) c.p
    let S2 : Int := residue (P2.y * (Z1 * Z1 * Z1)) c.p
    let H : Int := residue (U2 - U1) c.p
    let R : Int := residue (S2 - S1) c.p
    if H = 0 then
      if R = 0 then jdbl c P1 else .inf
    else
      let X3 : Int := residue (R * R - H * H * H - 2 * U1 * (H * H)) c.p
      let Y3 := residue (R * (U1 * (H * H) - X3) - S1 * (H * H * H)) c.p
      let Z3 := residue (H * Z1 * Z2) c.p
      ⟨X3.toNat, Y3, Z3⟩

/-- A Jacobian result as it is written: one equal to `INF` is exactly `(1, 1, 0)` (R600). -/
def Jac.canonical (J : Jac) : Jac := if J.z = 0 then .inf else J

/-- `PADD_fn`, the unified mixed addition of a Jacobian and an affine point (R640), without the range checks. -/
def mixedAdd (c : Curve) (P1 : Jac) (x2 y2 : Nat) : Jac :=
  let J :=
    if x2 = 0 ∧ y2 = 0 then (if P1.z = 0 then .inf else P1)
    else if P1.z = 0 then ⟨x2, y2, 1⟩
    else jsum c P1 ⟨x2, y2, 1⟩
  J.canonical

/-- `J2A_fn`: the affine point a triple denotes (R15, R620), without the range checks. -/
def jacToAffine (c : Curve) (P : Jac) : Point :=
  if P.z = 0 then .inf
  else
    let zi : Int := invMod P.z c.p
    .affine (residue (P.x * (zi * zi)) c.p) (residue (P.y * (zi * zi * zi)) c.p)

/-- One iteration of double-and-add-always: both the double and the sum are computed and the bit selects (R705, R707). -/
def ladderStep (c : Curve) (x y : Nat) (R : Jac) (bit : Bool) : Jac :=
  let D := jdbl c R
  let T := mixedAdd c D x y
  if bit then T else D

/-- The iterations for the bits `i-1` down to 0 of `k` (R707). -/
def ladder (c : Curve) (x y k : Nat) : Nat → Jac → Jac
  | 0, R => R
  | i + 1, R => ladder c x y k i (ladderStep c x y R (k.testBit i))

/-- `ScalarMul(k, P)`, the point `ECMUL(k, P)` (R700), computed by double-and-add-always over the `nbits` bits of `k < n`.
Which algorithm computes it is not observable (R700, R705; log 7). -/
def scalarMul (c : Curve) (k : Nat) : Point → Point
  | .inf => .inf
  | .affine x y => jacToAffine c (ladder c x y k c.nbits .inf)

/-- `ScalarMulRef(k, P)`, the reference algorithm of R707 word for word: the scalar regularised to `nbits + 1` bits
(R706). No command calls it; R707 calls it one correct choice (log 7). -/
def scalarMulRef (c : Curve) (k x y : Nat) : Point :=
  let k1 := k + c.n
  let kr := if bitlen k1 > c.nbits then k1 else k + 2 * c.n
  jacToAffine c (ladder c x y kr (c.nbits + 1) .inf)

end Sys2Proof
end

