-- ==== Sys2Proof/Machine/Operands.lean ====
section
/-! DEFINITION. Operand forms: slots and the multi-slot layouts of R102, widths and moduli (R305, R400, R500, R530), the
digest bytes of R126 and the digest scalar of R802. All of them read the latched values of R306. -/

namespace Sys2Proof.Machine

/-- `x[k]` as a 256-bit unsigned integer (R12). Slot numbers past 31 are never read: the span check comes first (R910,
log 23). -/
def Slots.get (x : Slots) (k : Nat) : Nat := (x[k]?.getD 0).toNat

/-- `x[k] <- v` (R12). Slot numbers past 31 are never written (R910, log 23). -/
def Slots.put (x : Slots) (k v : Nat) : Slots := x.setIfInBounds k (BitVec.ofNat 256 v)

/-- Several slot writes, in order. -/
def Slots.putAll (x : Slots) (ws : List (Nat × Nat)) : Slots := ws.foldl (fun x w => x.put w.1 w.2) x

/-- The whole slot a field names. -/
def Latch.slot (l : Latch) (f : SlotNo) : Nat := l.slots.get f.toNat

/-- A VLI operand: the low `W` words of its slot (R400). -/
def Latch.vli (l : Latch) (W : Nat) (f : SlotNo) : Nat := truncW W (l.slot f)

/-- A double-width value: `x[s] + 2^256·x[s+1]` (R102). -/
def Latch.double (l : Latch) (f : SlotNo) : Nat := l.slots.get f.toNat + 2 ^ 256 * l.slots.get (f.toNat + 1)

/-- An affine point, a signature or a compressed point: two consecutive slots (R102). -/
def Latch.pair (l : Latch) (f : SlotNo) : Nat × Nat := (l.slots.get f.toNat, l.slots.get (f.toNat + 1))

/-- A Jacobian point: three consecutive slots (R102). -/
def Latch.jac (l : Latch) (f : SlotNo) : Jac :=
  ⟨l.slots.get f.toNat, l.slots.get (f.toNat + 1), l.slots.get (f.toNat + 2)⟩

/-- The slot writes of a single-slot result. -/
def writeSlot (f : SlotNo) (v : Nat) : List (Nat × Nat) := [(f.toNat, v)]

/-- The slot writes of a two-slot result (R102). -/
def writePair (f : SlotNo) (v0 v1 : Nat) : List (Nat × Nat) := [(f.toNat, v0), (f.toNat + 1, v1)]

/-- The slot writes of a three-slot result (R102). -/
def writeTriple (f : SlotNo) (v0 v1 v2 : Nat) : List (Nat × Nat) :=
  [(f.toNat, v0), (f.toNat + 1, v1), (f.toNat + 2, v2)]

/-- The slot writes of a Jacobian result (R102). -/
def writeJac (f : SlotNo) (J : Jac) : List (Nat × Nat) := writeTriple f J.x J.y J.z

/-- The slot writes of a product: low 256 bits first (R413, D15). -/
def writeDouble (f : SlotNo) (P : Nat) : List (Nat × Nat) := writePair f (P % 2 ^ 256) (P / 2 ^ 256 % 2 ^ 256)

/-- The VLI width: `W = Wp` if M = 0 and `W = Wn` if M = 1 (R305, R400). -/
def width (c : Curve) : MSel → Nat
  | .p => c.wp
  | .n => c.wn

/-- The modulus: `m = p` if M = 0 and `m = n` if M = 1 (R305, R500). -/
def modulus (c : Curve) : MSel → Nat
  | .p => c.p
  | .n => c.n

/-- The Montgomery radix `R = 2^(32·Wm)` (R530). -/
def montR (c : Curve) (m : MSel) : Nat := 2 ^ (32 * width c m)

/-- Digest byte `dig[i]`: bits `[31-8·(i mod 4) : 24-8·(i mod 4)]` of `DIGEST[floor(i/4)]` (R126). -/
def Digest.byte (d : Digest) (i : Nat) : BitVec 8 := (d[i / 4]?.getD 0).extractLsb' (24 - 8 * (i % 4)) 8

/-- `dig[0 .. L-1]`. -/
def Digest.bytes (d : Digest) (L : Nat) : List (BitVec 8) := (List.range L).map d.byte

/-- `bits2int`, the digest scalar `z` (R802): the leftmost `nbits` bits of the first DLEN digest bytes, modulo `n`. -/
def bits2int (c : Curve) (l : Latch) : Nat :=
  let L := l.dlen.toNat
  let e := intBE (l.digest.bytes L)
  let e := if 8 * L > c.nbits then e >>> (8 * L - c.nbits) else e
  e % c.n

end Sys2Proof.Machine
end

