-- ==== Sys2Proof/Machine/Ops.lean ====
section
/-! DEFINITION. The named operations over the state: issuing a command (R905), completing it with results or with an
error (R906), the common checks (R910), and the frame every command's meaning runs in. -/

namespace Sys2Proof.Machine

/-! ## Issue and completion -/

/-- What an issue of the word `w` latches: the word, CTRL.CURVE, DLEN, DIGEST and all slots (R306, R905). -/
def State.latchFor (s : State) (w : Word) : Latch :=
  { word := w, curve := s.ctrlCurve, dlen := s.dlen, digest := s.digest, slots := s.slots }

/-- Issue of the command word `w` (R905). ACCERR is not changed. -/
def State.issue (w : Word) (s : State) : State :=
  { s with
    cmd := w
    eng := .busy (s.latchFor w)
    done := false
    flags := Flags.clear
    err := .ok
    tries := 0
    tryCounter := 0
    entPending := false }

/-- The latched values of the running command. `step` runs a command only while the engine is BUSY; on an IDLE engine this
is what an issue would latch, so that `exec` there is the command issued and completed at once (R1030, log 12). -/
def State.latched (s : State) : Latch :=
  match s.eng with
  | .busy l => l
  | .idle => s.latchFor s.cmd

/-- Completion of a command that reached `complete` (R906): its slot writes, its flags, ERR = 0, its tries. -/
def State.complete (ws : List (Nat × Nat)) (f : Flags) (tries : Nat) (s : State) : State :=
  { s with
    slots := s.slots.putAll ws
    flags := f
    err := .ok
    tries := BitVec.ofNat 8 tries
    done := true
    eng := .idle
    tryCounter := 0
    entPending := false }

/-- Completion of a command that reached `raise e` (R906): no slot is written and all flags are cleared. -/
def State.fail (e : ErrCode) (tries : Nat) (s : State) : State :=
  { s with
    flags := Flags.clear
    err := e
    tries := BitVec.ofNat 8 tries
    done := true
    eng := .idle
    tryCounter := 0
    entPending := false }

/-- How a command's pseudocode ends (R16, R912): with its slot writes and flags, or with one error code. -/
inductive CmdResult where
  | complete (ws : List (Nat × Nat)) (f : Flags)
  | raise (e : ErrCode)
  deriving DecidableEq, Repr

/-- Completion of a command that makes no draw: TRIES = 0 (R906). -/
def State.finish (r : CmdResult) (s : State) : State :=
  match r with
  | .complete ws f => s.complete ws f 0
  | .raise e => s.fail e 0

/-! ## What a step does around the engine -/

/-- What is left once the input at the head is taken, the bus answer of an earlier step being over. -/
def State.advance (s : State) : State := { s with inputs := s.inputs.tail, resp := none }

/-- The provider's answers that are left to later draws when a reset abandons the outstanding one, if there is one: the
first answer at hand is the answer to that draw, and it is ignored (R1001, log 21). -/
def State.answersAfterReset (s : State) : List EntropyAnswer := if s.entPending then s.entropy.tail else s.entropy

/-- Reset (R1000), also of a running command, whose outstanding draw is abandoned with its answer (R1001). What else the
outside world has in hand stays with it (log 21). -/
def State.resetInput (s : State) : State := { State.reset with inputs := s.inputs, entropy := s.answersAfterReset }

/-! ## The common checks (R910) -/

/-- The third check of R910 for a word whose must-be-zero bits are clear: a span passes slot 31, or the command reads the
digest (SIGN, SIGNK, VERIFY) and DLEN > 32. -/
def operandError (l : Latch) (spans : List (SlotNo × Nat)) (usesDigest : Bool) : Bool :=
  !(spans.all fun fk => spanFits fk.1 fk.2) || (usesDigest && decide (l.dlen.toNat > 32))

/-- The common checks of R910 for a decoded command other than NOP: ERR_CURVE, then ERR_OPERAND; else the curve. -/
def commonChecks (l : Latch) (spans : List (SlotNo × Nat)) (usesDigest : Bool) : Except ErrCode Curve :=
  match Curve.ofId l.curve with
  | none => .error .curve
  | some c => if operandError l spans usesDigest then .error .operand else .ok c

/-- The error of a word that is no command (R910): ERR_ILLEGAL; or, for a known OP with a nonzero must-be-zero bit,
ERR_CURVE when the curve is reserved and OP is not NOP's, else ERR_OPERAND. -/
def rejectError (l : Latch) : DecodeError → ErrCode
  | .illegal => .illegal
  | .mustBeZero => if opField l.word ≠ 0 ∧ Curve.ofId l.curve = none then .curve else .operand

/-- The command of a word that is no command completes with its error (R906, R910). -/
def State.rejectWord (e : DecodeError) (s : State) : State := s.fail (rejectError s.latched e) 0

/-! ## Running a command that makes no draw -/

/-- The common checks, then the command's own pseudocode `body` on the latched values, then completion (R16, R906). -/
def runCommand (spans : List (SlotNo × Nat)) (usesDigest : Bool) (body : Latch → Curve → CmdResult) (s : State) :
    Host.Outcome State Fault Refusal :=
  .next <|
    match commonChecks s.latched spans usesDigest with
    | .error e => s.fail e 0
    | .ok c => s.finish (body s.latched c)

/-! ## The bounded retry loop (R800) -/

/-- `Candidate(w)`: the first `Wn` words of the answer, `w_0` least significant, kept to `nbits` bits (R801). -/
def candidate (c : Curve) (w : Vector Word 8) : Nat :=
  ((List.range c.wn).foldl (fun acc j => acc + (w[j]?.getD 0).toNat * 2 ^ (32 * j)) 0) % 2 ^ c.nbits

/-- How the retry loop stands when it can go no further. -/
inductive LoopResult (α : Type) where
  /-- `OK(v, t)` after `t` tries; `rest` are the answers not consumed. -/
  | ok (v : α) (t : Nat) (rest : List EntropyAnswer)
  /-- `FAIL(last, MAX_TRIES)`. -/
  | fail (last : ErrCode) (rest : List EntropyAnswer)
  /-- The draw of try `t` is outstanding: the provider has not answered it (R931). -/
  | waiting (t : Nat)

/-- `RetryLoop(body)` from try `t`, with `fuel` tries left (R800): each try consumes one answer. -/
def retryLoop {α : Type} (c : Curve) (body : Nat → Except ErrCode α) :
    Nat → Nat → ErrCode → List EntropyAnswer → LoopResult α
  | 0, _, last, es => .fail last es
  | _ + 1, t, _, [] => .waiting t
  | fuel + 1, t, _, .fail :: es => retryLoop c body fuel (t + 1) .rng es
  | fuel + 1, t, _, .ok w :: es =>
    let k := candidate c w
    if k = 0 ∨ k ≥ c.n then retryLoop c body fuel (t + 1) .rng es
    else
      match body k with
      | .ok v => .ok v t es
      | .error cls => retryLoop c body fuel (t + 1) cls es

/-- The try a drawing command is at: the one whose draw is outstanding, else the first (R800, R130). -/
def State.currentTry (s : State) : Nat := if s.entPending then s.tryCounter else 1

/-- Wait for the answer to the draw of try `t` (R930, R931): the command stays BUSY, with no other effect. -/
def State.waitForDraw (t : Nat) (s : State) : State :=
  { s with
    eng := .busy s.latched
    tryCounter := t
    entPending := true
    entropy := [] }

/-- Run the retry loop on the answers at hand and complete (R800, R803, R906), or wait. `onOk` gives the slot writes;
`onFail` turns the class of the last try into the error code. Flags are clear. -/
def State.runLoop {α : Type} (c : Curve) (body : Nat → Except ErrCode α) (onOk : α → List (Nat × Nat))
    (onFail : ErrCode → ErrCode) (s : State) : State :=
  match retryLoop c body (Config.maxTries + 1 - s.currentTry) s.currentTry .rng s.entropy with
  | .ok v t rest => { s with entropy := rest }.complete (onOk v) Flags.clear t
  | .fail last rest => { s with entropy := rest }.fail (onFail last) Config.maxTries
  | .waiting t => s.waitForDraw t

end Sys2Proof.Machine
end

