-- ==== Sys2Proof/Machine/Bus.lean ====
section
/-! DEFINITION. The register window (20_memory.md): the address map R210, reads (R211, R213, R1021), writes (R1020), access
width (R214), the STATUS word (R123) and the interrupt output (R131). -/

namespace Sys2Proof.Machine

/-- What stands at an offset of the window (R210): a register, a word of a slot, or nothing. -/
inductive Reg where
  | id | ctrl | cmd | status | dlen
  | digest (j : BitVec 3)
  | slot (k : SlotNo) (j : BitVec 3)
  | reserved
  deriving DecidableEq, Repr

/-- The register map (R210) at a word-aligned offset; slot word `j` of slot `k` is at `0x400 + 32·k + 4·j` (R211). -/
def Reg.ofOffset (off : BitVec 11) : Reg :=
  if off = 0x000#11 then .id
  else if off = 0x004#11 then .ctrl
  else if off = 0x008#11 then .cmd
  else if off = 0x00C#11 then .status
  else if off = 0x010#11 then .dlen
  else if 0x040 ≤ off.toNat ∧ off.toNat ≤ 0x05F then .digest (off.extractLsb' 2 3)
  else if 0x400 ≤ off.toNat then .slot (off.extractLsb' 5 5) (off.extractLsb' 2 3)
  else .reserved

/-- The code of an error in STATUS.ERR (R900). -/
def ErrCode.code : ErrCode → BitVec 4
  | .ok => 0
  | .illegal => 1
  | .operand => 2
  | .curve => 3
  | .range => 4
  | .noInv => 5
  | .noSqrt => 6
  | .scalar => 7
  | .point => 8
  | .rng => 9
  | .degen => 10

/-- STATUS.BUSY mirrors the engine state (R130). -/
def State.busy (s : State) : Bool :=
  match s.eng with
  | .busy _ => true
  | .idle => false

/-- The interrupt output: STATUS.DONE AND CTRL.IE (R131). -/
def State.irq (s : State) : Bool := s.done && s.ctrlIe

/-- The CTRL word (R121). -/
def State.ctrlWord (s : State) : Word := 0#28 ++ BitVec.ofBool s.ctrlIe ++ s.ctrlCurve

/-- The STATUS word (R123). -/
def State.statusWord (s : State) : Word :=
  0#8 ++ s.tries ++ 0#4 ++ s.err.code ++ 0#2 ++ BitVec.ofBool s.accerr ++ BitVec.ofBool s.flags.v ++
    BitVec.ofBool s.flags.c ++ BitVec.ofBool s.flags.z ++ BitVec.ofBool s.done ++ BitVec.ofBool s.busy

/-- The DLEN word (R125). -/
def State.dlenWord (s : State) : Word := 0#26 ++ s.dlen

/-- Word `j` of a slot value: bits `[32·j+31 : 32·j]` (R211, R212). -/
def slotWord (v : SlotWord) (j : BitVec 3) : Word := v.extractLsb' (32 * j.toNat) 32

/-- A slot value with its word `j` replaced by `w` (R211). -/
def setSlotWord (v : SlotWord) (j : BitVec 3) (w : Word) : SlotWord :=
  (v &&& ~~~((0xFFFFFFFF#256) <<< (32 * j.toNat))) ||| ((w.setWidth 256) <<< (32 * j.toNat))

/-- What a read of a register returns (R210); while BUSY, slot and DIGEST words read 0 (R1021). -/
def State.readReg (s : State) : Reg → Word
  | .id => Config.idValue
  | .ctrl => s.ctrlWord
  | .cmd => s.cmd
  | .status => s.statusWord
  | .dlen => s.dlenWord
  | .digest j => if s.busy then 0 else s.digest[j.toNat]?.getD 0
  | .slot k j => if s.busy then 0 else slotWord (s.slots[k.toNat]?.getD 0) j
  | .reserved => 0

/-- A write refused because the block is busy sets ACCERR and changes nothing else (R1020). -/
def State.refuseWrite (s : State) : State := { s with accerr := true }

/-- The W1C write to STATUS: bit 1 clears DONE, bit 5 clears ACCERR; nothing else changes (R123). -/
def State.writeStatus (v : Word) (s : State) : State :=
  { s with done := s.done && !v.getLsbD 1, accerr := s.accerr && !v.getLsbD 5 }

/-- A write of `v` to a register (R210). STATUS is written in either engine state; ID and reserved offsets ignore writes;
every other write is refused while BUSY (R1020). A write to CMD while idle issues the command (R905). -/
def State.writeReg (s : State) (r : Reg) (v : Word) : State :=
  match r with
  | .id => s
  | .reserved => s
  | .status => s.writeStatus v
  | .ctrl => if s.busy then s.refuseWrite else { s with ctrlCurve := v.extractLsb' 0 3, ctrlIe := v.getLsbD 3 }
  | .cmd => if s.busy then s.refuseWrite else s.issue v
  | .dlen => if s.busy then s.refuseWrite else { s with dlen := v.extractLsb' 0 6 }
  | .digest j => if s.busy then s.refuseWrite else { s with digest := s.digest.setIfInBounds j.toNat v }
  | .slot k j =>
    if s.busy then s.refuseWrite
    else { s with slots := s.slots.setIfInBounds k.toNat (setSlotWord (s.slots[k.toNat]?.getD 0) j v) }

/-- The block decodes bus address bits [10:0] as the offset (R200). -/
def Access.offset (a : Access) : BitVec 11 := BitVec.ofNat 11 a.addr

/-- A supported access: 32 bits, all byte enables, at an offset that is a multiple of 4 (R214). -/
def Access.supported (a : Access) : Bool :=
  a.size = .word && a.enables = 0xF#4 && a.offset.extractLsb' 0 2 = 0#2

/-- One bus access (R211, R214, R220): its effect, and the answer the block puts on the bus. An access that is not supported
and falls on a reserved offset is an unsupported access of R214, with BUS_ERR_RESP deciding its error response, and not an
access that R213 keeps from a bus error: the two rules overlap there and the model chooses R214 (DESIGN CHOICE, log 24). -/
def State.busAccess (a : Access) (s : State) : State :=
  if a.supported then
    match a.kind with
    | .read => { s with resp := some (.readData (s.readReg (Reg.ofOffset a.offset)) false) }
    | .write v => { s.writeReg (Reg.ofOffset a.offset) v with resp := some (.writeDone false) }
  else
    match a.kind with
    | .read => { s with resp := some (.readData 0 Config.busErrResp) }
    | .write _ => { s with resp := some (.writeDone Config.busErrResp) }

/-- `MemRead(addr, 4)` (R12). -/
def memRead (addr : Nat) : Input := .bus { addr := addr, size := .word, enables := 0xF, kind := .read }

/-- `MemWrite(addr, 4, v)` (R12). -/
def memWrite (addr : Nat) (v : Word) : Input := .bus { addr := addr, size := .word, enables := 0xF, kind := .write v }

/-- `WR off, v` of the host-program notation (R321): `MemWrite(BASE + off, 4, v)`. -/
def hostWrite (off : Nat) (v : Word) : Input := memWrite (Config.base + off) v

/-- `RD off` of the host-program notation (R321): `MemRead(BASE + off, 4)`. -/
def hostRead (off : Nat) : Input := memRead (Config.base + off)

/-- `ISSUE <command>` of the host-program notation (R321): `WR 0x008, <encoding>`. -/
def hostIssue (i : Instr) : Input := hostWrite 0x008 (encode i)

end Sys2Proof.Machine
end

