-- ==== Sys2Proof/Machine/Modular.lean ====
section
/-! DEFINITION. The modular commands (41_modular.md R510-R533): each command's pseudocode on the latched values, and its
meaning. -/

namespace Sys2Proof.Machine

/-- The end of a modular command (R501): one slot, Z = (result = 0), C = V = 0. -/
def modResult (rd : SlotNo) (v : Nat) : CmdResult := .complete (writeSlot rd v) (Flags.ofZero v)

/-- MADD (R510). -/
def maddBody (rd ra rb : SlotNo) (m : MSel) (l : Latch) (c : Curve) : CmdResult :=
  let M := modulus c m
  let A := l.slot ra
  let B := l.slot rb
  if A ≥ M ∨ B ≥ M then .raise .range
  else modResult rd ((A + B) % M)

/-- MADD: modular addition (R510). -/
def execMadd (rd ra rb : SlotNo) (m : MSel) (s : State) : Host.Outcome State Fault Refusal :=
  runCommand [(rd, 1), (ra, 1), (rb, 1)] false (maddBody rd ra rb m) s

/-- MSUB (R511). -/
def msubBody (rd ra rb : SlotNo) (m : MSel) (l : Latch) (c : Curve) : CmdResult :=
  let M := modulus c m
  let A := l.slot ra
  let B := l.slot rb
  if A ≥ M ∨ B ≥ M then .raise .range
  else modResult rd (residue ((A : Int) - B) M)

/-- MSUB: modular subtraction (R511). -/
def execMsub (rd ra rb : SlotNo) (m : MSel) (s : State) : Host.Outcome State Fault Refusal :=
  runCommand [(rd, 1), (ra, 1), (rb, 1)] false (msubBody rd ra rb m) s

/-- MMUL (R512). -/
def mmulBody (rd ra rb : SlotNo) (m : MSel) (l : Latch) (c : Curve) : CmdResult :=
  let M := modulus c m
  let A := l.slot ra
  let B := l.slot rb
  if A ≥ M ∨ B ≥ M then .raise .range
  else modResult rd (A * B % M)

/-- MMUL: modular multiplication (R512). -/
def execMmul (rd ra rb : SlotNo) (m : MSel) (s : State) : Host.Outcome State Fault Refusal :=
  runCommand [(rd, 1), (ra, 1), (rb, 1)] false (mmulBody rd ra rb m) s

/-- MSQR (R513). -/
def msqrBody (rd ra : SlotNo) (m : MSel) (l : Latch) (c : Curve) : CmdResult :=
  let M := modulus c m
  let A := l.slot ra
  if A ≥ M then .raise .range
  else modResult rd (A * A % M)

/-- MSQR: modular squaring (R513). -/
def execMsqr (rd ra : SlotNo) (m : MSel) (s : State) : Host.Outcome State Fault Refusal :=
  runCommand [(rd, 1), (ra, 1)] false (msqrBody rd ra m) s

/-- MINV (R514). -/
def minvBody (rd ra : SlotNo) (m : MSel) (l : Latch) (c : Curve) : CmdResult :=
  let M := modulus c m
  let A := l.slot ra
  if A ≥ M then .raise .range
  else if A = 0 then .raise .noInv
  else modResult rd (invMod A M)

/-- MINV: modular inverse (R514). -/
def execMinv (rd ra : SlotNo) (m : MSel) (s : State) : Host.Outcome State Fault Refusal :=
  runCommand [(rd, 1), (ra, 1)] false (minvBody rd ra m) s

/-- MSQRT (R515), modulo `p` only. -/
def msqrtBody (rd ra : SlotNo) (l : Latch) (c : Curve) : CmdResult :=
  let A := l.slot ra
  if A ≥ c.p then .raise .range
  else if !isQuadraticResidue c.p A then .raise .noSqrt
  else modResult rd (sqrtP c.p A)

/-- MSQRT: modular square root mod `p` (R515). -/
def execMsqrt (rd ra : SlotNo) (s : State) : Host.Outcome State Fault Refusal :=
  runCommand [(rd, 1), (ra, 1)] false (msqrtBody rd ra) s

/-- MRED (R517): no range check. -/
def mredBody (rd ra : SlotNo) (m : MSel) (l : Latch) (c : Curve) : CmdResult :=
  modResult rd (l.double ra % modulus c m)

/-- MRED: reduce a double-width value (R517). -/
def execMred (rd ra : SlotNo) (m : MSel) (s : State) : Host.Outcome State Fault Refusal :=
  runCommand [(rd, 1), (ra, 2)] false (mredBody rd ra m) s

/-- `inv_m(R)` for the Montgomery radix `R` (R530). -/
def montRInv (c : Curve) (m : MSel) : Nat := invMod (montR c m) (modulus c m)

/-- MMONT (R531). -/
def mmontBody (rd ra rb : SlotNo) (m : MSel) (l : Latch) (c : Curve) : CmdResult :=
  let M := modulus c m
  let A := l.slot ra
  let B := l.slot rb
  if A ≥ M ∨ B ≥ M then .raise .range
  else modResult rd (A * B * montRInv c m % M)

/-- MMONT: Montgomery multiplication (R531). -/
def execMmont (rd ra rb : SlotNo) (m : MSel) (s : State) : Host.Outcome State Fault Refusal :=
  runCommand [(rd, 1), (ra, 1), (rb, 1)] false (mmontBody rd ra rb m) s

/-- MTOM (R532). -/
def mtomBody (rd ra : SlotNo) (m : MSel) (l : Latch) (c : Curve) : CmdResult :=
  let M := modulus c m
  let A := l.slot ra
  if A ≥ M then .raise .range
  else modResult rd (A * montR c m % M)

/-- MTOM: convert to Montgomery form (R532). -/
def execMtom (rd ra : SlotNo) (m : MSel) (s : State) : Host.Outcome State Fault Refusal :=
  runCommand [(rd, 1), (ra, 1)] false (mtomBody rd ra m) s

/-- MFROMM (R533). -/
def mfrommBody (rd ra : SlotNo) (m : MSel) (l : Latch) (c : Curve) : CmdResult :=
  let M := modulus c m
  let A := l.slot ra
  if A ≥ M then .raise .range
  else modResult rd (A * montRInv c m % M)

/-- MFROMM: convert from Montgomery form (R533). -/
def execMfromm (rd ra : SlotNo) (m : MSel) (s : State) : Host.Outcome State Fault Refusal :=
  runCommand [(rd, 1), (ra, 1)] false (mfrommBody rd ra m) s

end Sys2Proof.Machine
end

