-- ==== Sys2Proof/Machine/PointOps.lean ====
section
/-! DEFINITION. The point commands (42_point.md R610-R660) and SMUL (43_scalar_mult.md R701): each command's pseudocode on
the latched values, and its meaning. -/

namespace Sys2Proof.Machine

/-- Every coordinate is `< p` on the whole slot value (R601). -/
def inRange (c : Curve) (coords : List Nat) : Bool := coords.all fun v => v < c.p

/-- The coordinates of a triple, for the range check. -/
def jacCoords (P : Jac) : List Nat := [P.x, P.y, P.z]

/-- The end of a command that writes a Jacobian point (R600, R606): one equal to `INF` is written `(1, 1, 0)`, with Z = 1. -/
def jacResult (rd : SlotNo) (J : Jac) : CmdResult := .complete (writeJac rd J.canonical) (Flags.ofInf (J.z = 0))

/-- The end of a command that writes an affine point (R600, R606): `INF` is written `(0, 0)`, with Z = 1. Z looks at the
point, not at the pair: J2A of an off-curve triple `(0, 0, Zc)` with `Zc ≠ 0` writes `(0, 0)` too, and there Z = 0, which is
the flag rule of R620 and not that of R606 (DEDUCED, log 25). -/
def affineResult (rd : SlotNo) (P : Point) : CmdResult :=
  .complete (writePair rd P.coords.1 P.coords.2) (Flags.ofInf (P = .inf))

/-- A2J (R610). -/
def a2jBody (rd ra : SlotNo) (l : Latch) (c : Curve) : CmdResult :=
  let (x, y) := l.pair ra
  if !inRange c [x, y] then .raise .range
  else jacResult rd (if x = 0 ∧ y = 0 then Jac.inf else ⟨x, y, 1⟩)

/-- A2J: affine to Jacobian (R610). -/
def execA2j (rd ra : SlotNo) (s : State) : Host.Outcome State Fault Refusal :=
  runCommand [(rd, 3), (ra, 2)] false (a2jBody rd ra) s

/-- A2JZ (R611). -/
def a2jzBody (rd ra rb : SlotNo) (l : Latch) (c : Curve) : CmdResult :=
  let (x, y) := l.pair ra
  let z := l.slot rb
  if !inRange c [x, y] then .raise .range
  else if z = 0 ∨ z ≥ c.p then .raise .range
  else jacResult rd (if x = 0 ∧ y = 0 then Jac.inf else ⟨x * (z * z) % c.p, y * (z * z * z) % c.p, z⟩)

/-- A2JZ: affine to Jacobian with a given Z (R611). -/
def execA2jz (rd ra rb : SlotNo) (s : State) : Host.Outcome State Fault Refusal :=
  runCommand [(rd, 3), (ra, 2), (rb, 1)] false (a2jzBody rd ra rb) s

/-- J2A (R620). -/
def j2aBody (rd ra : SlotNo) (l : Latch) (c : Curve) : CmdResult :=
  let P := l.jac ra
  if !inRange c (jacCoords P) then .raise .range
  else affineResult rd (jacToAffine c P)

/-- J2A: Jacobian to affine (R620). -/
def execJ2a (rd ra : SlotNo) (s : State) : Host.Outcome State Fault Refusal :=
  runCommand [(rd, 2), (ra, 3)] false (j2aBody rd ra) s

/-- PDBL (R630). -/
def pdblBody (rd ra : SlotNo) (l : Latch) (c : Curve) : CmdResult :=
  let P := l.jac ra
  if !inRange c (jacCoords P) then .raise .range
  else jacResult rd (jdbl c P)

/-- PDBL: Jacobian point doubling (R630). -/
def execPdbl (rd ra : SlotNo) (s : State) : Host.Outcome State Fault Refusal :=
  runCommand [(rd, 3), (ra, 3)] false (pdblBody rd ra) s

/-- PADD (R640). -/
def paddBody (rd ra rb : SlotNo) (l : Latch) (c : Curve) : CmdResult :=
  let P1 := l.jac ra
  let (x2, y2) := l.pair rb
  if !inRange c (jacCoords P1 ++ [x2, y2]) then .raise .range
  else jacResult rd (mixedAdd c P1 x2 y2)

/-- PADD: unified mixed addition (R640). -/
def execPadd (rd ra rb : SlotNo) (s : State) : Host.Outcome State Fault Refusal :=
  runCommand [(rd, 3), (ra, 3), (rb, 2)] false (paddBody rd ra rb) s

/-- JADD (R641). -/
def jaddBody (rd ra rb : SlotNo) (l : Latch) (c : Curve) : CmdResult :=
  let P1 := l.jac ra
  let P2 := l.jac rb
  if !inRange c (jacCoords P1 ++ jacCoords P2) then .raise .range
  else jacResult rd (jsum c P1 P2)

/-- JADD: full Jacobian addition (R641). -/
def execJadd (rd ra rb : SlotNo) (s : State) : Host.Outcome State Fault Refusal :=
  runCommand [(rd, 3), (ra, 3), (rb, 3)] false (jaddBody rd ra rb) s

/-- PNEG (R650). -/
def pnegBody (rd ra : SlotNo) (l : Latch) (c : Curve) : CmdResult :=
  let (x, y) := l.pair ra
  if !inRange c [x, y] then .raise .range
  else .complete (writePair rd x ((c.p - y) % c.p)) (Flags.ofInf (x = 0 && y = 0))

/-- PNEG: affine point negation (R650). -/
def execPneg (rd ra : SlotNo) (s : State) : Host.Outcome State Fault Refusal :=
  runCommand [(rd, 2), (ra, 2)] false (pnegBody rd ra) s

/-- PCHK (R660): an invalid point is a result, not an error. -/
def pchkBody (ra : SlotNo) (l : Latch) (c : Curve) : CmdResult :=
  let (x, y) := l.pair ra
  .complete [] (Flags.ofValid (validPoint c x y))

/-- PCHK: point validation (R660). -/
def execPchk (ra : SlotNo) (s : State) : Host.Outcome State Fault Refusal :=
  runCommand [(ra, 2)] false (pchkBody ra) s

/-- SMUL (R701): the point check, then the scalar's range, then `ScalarMul`. -/
def smulBody (rd ra rb : SlotNo) (l : Latch) (c : Curve) : CmdResult :=
  let (x, y) := l.pair ra
  let k := l.slot rb
  if !validPoint c x y then .raise .point
  else if k = 0 ∨ k ≥ c.n then .raise .scalar
  else affineResult rd (scalarMul c k (.affine x y))

/-- SMUL: scalar multiplication of an affine point (R701). -/
def execSmul (rd ra rb : SlotNo) (s : State) : Host.Outcome State Fault Refusal :=
  runCommand [(rd, 2), (ra, 2), (rb, 1)] false (smulBody rd ra rb) s

end Sys2Proof.Machine
end

