-- ==== Sys2Proof/Machine/Protocol.lean ====
section
/-! DEFINITION. The protocol commands (44_protocol.md R810-R870): each command's pseudocode on the latched values, and its
meaning. -/

namespace Sys2Proof.Machine

/-! ## Keys -/

/-- KEYGEN (R810): the key pair of the first acceptable candidate; exhaustion is ERR_RNG, whatever the last try (R803).
`ScalarMul(k, G)` is never `INF` (R700), so the body cannot fail (log 10). -/
def execKeygen (rd : SlotNo) (s : State) : Host.Outcome State Fault Refusal :=
  .next <|
    match commonChecks s.latched [(rd, 3)] false with
    | .error e => s.fail e 0
    | .ok c =>
      s.runLoop c (fun k => .ok (k, scalarMul c k c.G))
        (fun dQ => writeTriple rd dQ.1 dQ.2.coords.1 dQ.2.coords.2) (fun _ => .rng)

/-- PUBKEY (R820). -/
def pubkeyBody (rd ra : SlotNo) (l : Latch) (c : Curve) : CmdResult :=
  let d := l.slot ra
  if d = 0 ∨ d ≥ c.n then .raise .scalar
  else
    match scalarMul c d c.G with
    | .inf => .raise .degen
    | .affine x y => .complete (writePair rd x y) Flags.clear

/-- PUBKEY: compute a public key (R820). -/
def execPubkey (rd ra : SlotNo) (s : State) : Host.Outcome State Fault Refusal :=
  runCommand [(rd, 2), (ra, 1)] false (pubkeyBody rd ra) s

/-- ECDH (R830): the point check, then the scalar's range, then the product; no retry (C3). -/
def ecdhBody (rd ra rb : SlotNo) (l : Latch) (c : Curve) : CmdResult :=
  let (x, y) := l.pair ra
  let d := l.slot rb
  if !validPoint c x y then .raise .point
  else if d = 0 ∨ d ≥ c.n then .raise .scalar
  else
    match scalarMul c d (.affine x y) with
    | .inf => .raise .degen
    | .affine rx _ => .complete (writeSlot rd rx) Flags.clear

/-- ECDH: shared secret (R830). -/
def execEcdh (rd ra rb : SlotNo) (s : State) : Host.Outcome State Fault Refusal :=
  runCommand [(rd, 1), (ra, 2), (rb, 1)] false (ecdhBody rd ra rb) s

/-! ## ECDSA -/

/-- One signature with the nonce `k` (R840, R845): `r`, `s`, or the class DEGEN for `r = 0`, `s = 0` or an `s` that does
not fit `NBp` bytes (D29). `ScalarMul(k, G)` is never `INF` (R700, log 10). -/
def signWith (c : Curve) (d z k : Nat) : Except ErrCode (Nat × Nat) :=
  match scalarMul c k c.G with
  | .inf => .error .degen
  | .affine x _ =>
    let r := x % c.n
    if r = 0 then .error .degen
    else
      let sig := invMod k c.n * (z + r * d) % c.n
      if sig = 0 then .error .degen
      else if sig ≥ 2 ^ (8 * c.nbp) then .error .degen
      else .ok (r, sig)

/-- SIGN: ECDSA signature with a nonce from the entropy port (R840). A bad `d` ends it before any draw; exhaustion gives
the class of the last try (R803). -/
def execSign (rd ra : SlotNo) (s : State) : Host.Outcome State Fault Refusal :=
  .next <|
    match commonChecks s.latched [(rd, 2), (ra, 1)] true with
    | .error e => s.fail e 0
    | .ok c =>
      let d := s.latched.slot ra
      if d = 0 ∨ d ≥ c.n then s.fail .scalar 0
      else
        s.runLoop c (signWith c d (bits2int c s.latched)) (fun rs => writePair rd rs.1 rs.2) id

/-- SIGNK (R845): the check of `d`, then of `k`, then one signature. -/
def signkBody (rd ra rb : SlotNo) (l : Latch) (c : Curve) : CmdResult :=
  let d := l.slot ra
  let k := l.slot rb
  if d = 0 ∨ d ≥ c.n then .raise .scalar
  else if k = 0 ∨ k ≥ c.n then .raise .scalar
  else
    match signWith c d (bits2int c l) k with
    | .ok (r, sig) => .complete (writePair rd r sig) Flags.clear
    | .error e => .raise e

/-- SIGNK: ECDSA signature with a caller-supplied nonce (R845). -/
def execSignk (rd ra rb : SlotNo) (s : State) : Host.Outcome State Fault Refusal :=
  runCommand [(rd, 2), (ra, 1), (rb, 1)] true (signkBody rd ra rb) s

/-- The point `R' = ECADD(ECMUL(u1, G), ECMUL(u2, Q))` of VERIFY (R850). -/
def verifyPoint (c : Curve) (z r sig : Nat) (Q : Point) : Point :=
  let w := invMod sig c.n
  let u1 := z * w % c.n
  let u2 := r * w % c.n
  ecAdd c (scalarMul c u1 c.G) (scalarMul c u2 Q)

/-- `(R' ≠ INF) and (R'.x mod n = r)` (R850). -/
def verifyAccepts (c : Curve) (r : Nat) : Point → Bool
  | .inf => false
  | .affine x _ => x % c.n = r

/-- VERIFY (R850): an `r` or `s` out of range is V = 0 with no error, before any point check (D52). -/
def verifyBody (ra rb : SlotNo) (l : Latch) (c : Curve) : CmdResult :=
  let (x, y) := l.pair ra
  let (r, sig) := l.pair rb
  if !(1 ≤ r && r < c.n && 1 ≤ sig && sig < c.n) then .complete [] (Flags.ofValid false)
  else if !validPoint c x y then .raise .point
  else .complete [] (Flags.ofValid (verifyAccepts c r (verifyPoint c (bits2int c l) r sig (.affine x y))))

/-- VERIFY: ECDSA verification (R850). -/
def execVerify (ra rb : SlotNo) (s : State) : Host.Outcome State Fault Refusal :=
  runCommand [(ra, 2), (rb, 2)] true (verifyBody ra rb) s

/-! ## Point compression -/

/-- COMPRESS (R860). -/
def compressBody (rd ra : SlotNo) (l : Latch) (c : Curve) : CmdResult :=
  let (x, y) := l.pair ra
  if !validPoint c x y then .raise .point
  else .complete (writePair rd (2 + y % 2) x) (Flags.ofParity (y % 2 = 1))

/-- COMPRESS: compress a public key (R860). -/
def execCompress (rd ra : SlotNo) (s : State) : Host.Outcome State Fault Refusal :=
  runCommand [(rd, 2), (ra, 2)] false (compressBody rd ra) s

/-- DECOMPRESS (R870): only bit 0 of the prefix is used (D35). -/
def decompressBody (rd ra : SlotNo) (l : Latch) (c : Curve) : CmdResult :=
  let (pre, x) := l.pair ra
  let par := pre % 2
  if x ≥ c.p then .raise .point
  else
    let alpha := (x * x * x + c.a * x + c.b) % c.p
    if !isQuadraticResidue c.p alpha then .raise .point
    else
      let y0 := sqrtP c.p alpha
      let y := if y0 % 2 = par then y0 else (c.p - y0) % c.p
      if y % 2 ≠ par then .raise .point
      else .complete (writePair rd x y) (Flags.ofParity (par = 1))

/-- DECOMPRESS: decompress a public key (R870). -/
def execDecompress (rd ra : SlotNo) (s : State) : Host.Outcome State Fault Refusal :=
  runCommand [(rd, 2), (ra, 2)] false (decompressBody rd ra) s

end Sys2Proof.Machine
end

