-- ==== Sys2Proof/Machine/Vli.lean ====
section
/-! DEFINITION. The VLI commands (40_vli.md R410-R421): each command's pseudocode on the latched values, and its meaning. -/

namespace Sys2Proof.Machine

/-- NOP (R410): completes, with no curve check (R910). -/
def execNop (s : State) : Host.Outcome State Fault Refusal := .next (s.complete [] Flags.clear 0)

/-- VADD (R411). -/
def vaddBody (rd ra rb : SlotNo) (m : MSel) (l : Latch) (c : Curve) : CmdResult :=
  let W := width c m
  let S := l.vli W ra + l.vli W rb
  .complete (writeSlot rd (S % 2 ^ (32 * W))) (Flags.ofCarry (S % 2 ^ (32 * W)) (S.testBit (32 * W)))

/-- VADD: add with carry out (R411). -/
def execVadd (rd ra rb : SlotNo) (m : MSel) (s : State) : Host.Outcome State Fault Refusal :=
  runCommand [(rd, 1), (ra, 1), (rb, 1)] false (vaddBody rd ra rb m) s

/-- VSUB (R412). -/
def vsubBody (rd ra rb : SlotNo) (m : MSel) (l : Latch) (c : Curve) : CmdResult :=
  let W := width c m
  let A := l.vli W ra
  let B := l.vli W rb
  let D := residue ((A : Int) - B) (2 ^ (32 * W))
  .complete (writeSlot rd D) (Flags.ofCarry D (A < B))

/-- VSUB: subtract with borrow out (R412). -/
def execVsub (rd ra rb : SlotNo) (m : MSel) (s : State) : Host.Outcome State Fault Refusal :=
  runCommand [(rd, 1), (ra, 1), (rb, 1)] false (vsubBody rd ra rb m) s

/-- VMUL (R413). -/
def vmulBody (rd ra rb : SlotNo) (m : MSel) (l : Latch) (c : Curve) : CmdResult :=
  let W := width c m
  let P := l.vli W ra * l.vli W rb
  .complete (writeDouble rd P) (Flags.ofZero P)

/-- VMUL: full double-width multiply (R413). -/
def execVmul (rd ra rb : SlotNo) (m : MSel) (s : State) : Host.Outcome State Fault Refusal :=
  runCommand [(rd, 2), (ra, 1), (rb, 1)] false (vmulBody rd ra rb m) s

/-- VSQR (R414). -/
def vsqrBody (rd ra : SlotNo) (m : MSel) (l : Latch) (c : Curve) : CmdResult :=
  let A := l.vli (width c m) ra
  .complete (writeDouble rd (A * A)) (Flags.ofZero (A * A))

/-- VSQR: full double-width square (R414). -/
def execVsqr (rd ra : SlotNo) (m : MSel) (s : State) : Host.Outcome State Fault Refusal :=
  runCommand [(rd, 2), (ra, 1)] false (vsqrBody rd ra m) s

/-- VSHL1 (R415). -/
def vshl1Body (rd ra : SlotNo) (m : MSel) (l : Latch) (c : Curve) : CmdResult :=
  let W := width c m
  let A := l.vli W ra
  let R := 2 * A % 2 ^ (32 * W)
  .complete (writeSlot rd R) (Flags.ofCarry R (A.testBit (32 * W - 1)))

/-- VSHL1: shift left by one bit (R415). -/
def execVshl1 (rd ra : SlotNo) (m : MSel) (s : State) : Host.Outcome State Fault Refusal :=
  runCommand [(rd, 1), (ra, 1)] false (vshl1Body rd ra m) s

/-- VSHR1 (R416). -/
def vshr1Body (rd ra : SlotNo) (m : MSel) (l : Latch) (c : Curve) : CmdResult :=
  let A := l.vli (width c m) ra
  .complete (writeSlot rd (A / 2)) (Flags.ofCarry (A / 2) (A.testBit 0))

/-- VSHR1: shift right by one bit (R416). -/
def execVshr1 (rd ra : SlotNo) (m : MSel) (s : State) : Host.Outcome State Fault Refusal :=
  runCommand [(rd, 1), (ra, 1)] false (vshr1Body rd ra m) s

/-- VCMP (R417). -/
def vcmpBody (ra rb : SlotNo) (m : MSel) (l : Latch) (c : Curve) : CmdResult :=
  let W := width c m
  .complete [] (Flags.ofCompare (l.vli W ra) (l.vli W rb))

/-- VCMP: compare (R417). -/
def execVcmp (ra rb : SlotNo) (m : MSel) (s : State) : Host.Outcome State Fault Refusal :=
  runCommand [(ra, 1), (rb, 1)] false (vcmpBody ra rb m) s

/-- VBITLEN (R418). -/
def vbitlenBody (rd ra : SlotNo) (m : MSel) (l : Latch) (c : Curve) : CmdResult :=
  let A := l.vli (width c m) ra
  .complete (writeSlot rd (bitlen A)) (Flags.ofZero A)

/-- VBITLEN: bit length (R418). -/
def execVbitlen (rd ra : SlotNo) (m : MSel) (s : State) : Host.Outcome State Fault Refusal :=
  runCommand [(rd, 1), (ra, 1)] false (vbitlenBody rd ra m) s

/-- VTST (R419). -/
def vtstBody (ra : SlotNo) (m : MSel) (l : Latch) (c : Curve) : CmdResult :=
  let A := l.vli (width c m) ra
  .complete [] (Flags.ofCarry A (A.testBit 0))

/-- VTST: zero and parity test (R419). -/
def execVtst (ra : SlotNo) (m : MSel) (s : State) : Host.Outcome State Fault Refusal :=
  runCommand [(ra, 1)] false (vtstBody ra m) s

/-- VSEL (R420): the mask selects RA where the condition slot is nonzero over `W` words, else RB. -/
def vselBody (rd ra rb rc : SlotNo) (m : MSel) (l : Latch) (c : Curve) : CmdResult :=
  let W := width c m
  let R := if l.vli W rc ≠ 0 then l.vli W ra else l.vli W rb
  .complete (writeSlot rd R) (Flags.ofZero R)

/-- VSEL: constant-time select (R420). -/
def execVsel (rd ra rb rc : SlotNo) (m : MSel) (s : State) : Host.Outcome State Fault Refusal :=
  runCommand [(rd, 1), (ra, 1), (rb, 1), (rc, 1)] false (vselBody rd ra rb rc m) s

/-- VMOV (R421): all 256 bits. -/
def vmovBody (rd ra : SlotNo) (l : Latch) (_ : Curve) : CmdResult :=
  .complete (writeSlot rd (l.slot ra)) (Flags.ofZero (l.slot ra))

/-- VMOV: copy a slot (R421). -/
def execVmov (rd ra : SlotNo) (s : State) : Host.Outcome State Fault Refusal :=
  runCommand [(rd, 1), (ra, 1)] false (vmovBody rd ra) s

end Sys2Proof.Machine
end

