-- ==== Sys2Proof/Machine/Dispatch.lean ====
section
/-! DEFINITION. Dispatch: one arm per command, each one direct call of the command's meaning. -/

namespace Sys2Proof.Machine

-- What the command `i` does at `s`, where the engine holds its latched operands: the completion step of R906.
def exec (i : Instr) (s : State) : Host.Outcome State Fault Refusal :=
  match i with
  | .nop => Sys2Proof.Machine.execNop s
  | .vadd rd ra rb m => Sys2Proof.Machine.execVadd rd ra rb m s
  | .vsub rd ra rb m => Sys2Proof.Machine.execVsub rd ra rb m s
  | .vmul rd ra rb m => Sys2Proof.Machine.execVmul rd ra rb m s
  | .vsqr rd ra m => Sys2Proof.Machine.execVsqr rd ra m s
  | .vshl1 rd ra m => Sys2Proof.Machine.execVshl1 rd ra m s
  | .vshr1 rd ra m => Sys2Proof.Machine.execVshr1 rd ra m s
  | .vcmp ra rb m => Sys2Proof.Machine.execVcmp ra rb m s
  | .vbitlen rd ra m => Sys2Proof.Machine.execVbitlen rd ra m s
  | .vtst ra m => Sys2Proof.Machine.execVtst ra m s
  | .vsel rd ra rb rc m => Sys2Proof.Machine.execVsel rd ra rb rc m s
  | .vmov rd ra => Sys2Proof.Machine.execVmov rd ra s
  | .madd rd ra rb m => Sys2Proof.Machine.execMadd rd ra rb m s
  | .msub rd ra rb m => Sys2Proof.Machine.execMsub rd ra rb m s
  | .mmul rd ra rb m => Sys2Proof.Machine.execMmul rd ra rb m s
  | .msqr rd ra m => Sys2Proof.Machine.execMsqr rd ra m s
  | .minv rd ra m => Sys2Proof.Machine.execMinv rd ra m s
  | .msqrt rd ra => Sys2Proof.Machine.execMsqrt rd ra s
  | .mred rd ra m => Sys2Proof.Machine.execMred rd ra m s
  | .mmont rd ra rb m => Sys2Proof.Machine.execMmont rd ra rb m s
  | .mtom rd ra m => Sys2Proof.Machine.execMtom rd ra m s
  | .mfromm rd ra m => Sys2Proof.Machine.execMfromm rd ra m s
  | .a2j rd ra => Sys2Proof.Machine.execA2j rd ra s
  | .a2jz rd ra rb => Sys2Proof.Machine.execA2jz rd ra rb s
  | .j2a rd ra => Sys2Proof.Machine.execJ2a rd ra s
  | .pdbl rd ra => Sys2Proof.Machine.execPdbl rd ra s
  | .padd rd ra rb => Sys2Proof.Machine.execPadd rd ra rb s
  | .jadd rd ra rb => Sys2Proof.Machine.execJadd rd ra rb s
  | .pneg rd ra => Sys2Proof.Machine.execPneg rd ra s
  | .pchk ra => Sys2Proof.Machine.execPchk ra s
  | .smul rd ra rb => Sys2Proof.Machine.execSmul rd ra rb s
  | .keygen rd => Sys2Proof.Machine.execKeygen rd s
  | .pubkey rd ra => Sys2Proof.Machine.execPubkey rd ra s
  | .ecdh rd ra rb => Sys2Proof.Machine.execEcdh rd ra rb s
  | .sign rd ra => Sys2Proof.Machine.execSign rd ra s
  | .signk rd ra rb => Sys2Proof.Machine.execSignk rd ra rb s
  | .verify ra rb => Sys2Proof.Machine.execVerify ra rb s
  | .compress rd ra => Sys2Proof.Machine.execCompress rd ra s
  | .decompress rd ra => Sys2Proof.Machine.execDecompress rd ra s

end Sys2Proof.Machine
end

