-- ==== Sys2Proof/Machine/Step.lean ====
section
/-! DEFINITION. One step of the machine: the next input of the outside world, or the engine's turn when there is none. -/

namespace Sys2Proof.Machine

/-- The engine's turn. A running command is decoded from its latched word (R313) and completes, or waits for the provider's
answer (R906, R931). An idle engine waits for the next CMD write (R104, R1010). -/
def State.runEngine (s : State) : Host.Outcome State Fault Refusal :=
  match s.eng with
  | .idle => .next s
  | .busy l =>
    match decode l.word with
    | .ok i => exec i s
    | .error e => .next (s.rejectWord e)

/-- One step: the input at the head of `inputs` happens; with none, the engine has its turn (R240, R1030, log 2). -/
def step (s : State) : Host.Outcome State Fault Refusal :=
  match s.inputs with
  | [] => s.advance.runEngine
  | .engine :: _ => s.advance.runEngine
  | .bus a :: _ => .next (s.advance.busAccess a)
  | .entropy a :: _ => .next { s.advance with entropy := s.entropy ++ [a] }
  | .lateEntropy _ :: _ => .next s.advance
  | .reset :: _ => .next s.advance.resetInput

/-- The state in which the word `w` has been written to CMD and accepted (R905), and the engine has the next turn: the
next step decodes and runs exactly that command (log 13). -/
def State.withFetchWord (s : State) (nbits w : Nat) : State :=
  { s.issue (BitVec.ofNat 32 (w % 2 ^ nbits)) with inputs := .engine :: s.inputs }

end Sys2Proof.Machine
end

