-- ==== Sys2Proof/Machine/Assembler.lean ====
section
/-! DEFINITION. The assembler syntax (R320) and the pseudo-instructions (R321): text and command lists for the host's
programs; the machine itself sees only command words. -/

namespace Sys2Proof

/-- A slot operand, `s0` to `s31` (R320). -/
def slotText (f : SlotNo) : String := "s" ++ toString f.toNat

/-- The suffix of an opcode whose M column is `p/n` (R320). -/
def MSel.suffix : MSel → String
  | .p => ".p"
  | .n => ".n"

/-- `MNEMONIC[.SUF] operands`, the operands in the order RD, RA, RB, RC (R320). -/
def asmText (name suffix : String) (ops : List SlotNo) : String :=
  if ops.isEmpty then name ++ suffix
  else name ++ suffix ++ " " ++ String.intercalate ", " (ops.map slotText)

/-- A command in the assembler syntax of R320. -/
def Instr.asm : Instr → String
  | .nop => asmText "NOP" "" []
  | .vadd rd ra rb m => asmText "VADD" m.suffix [rd, ra, rb]
  | .vsub rd ra rb m => asmText "VSUB" m.suffix [rd, ra, rb]
  | .vmul rd ra rb m => asmText "VMUL" m.suffix [rd, ra, rb]
  | .vsqr rd ra m => asmText "VSQR" m.suffix [rd, ra]
  | .vshl1 rd ra m => asmText "VSHL1" m.suffix [rd, ra]
  | .vshr1 rd ra m => asmText "VSHR1" m.suffix [rd, ra]
  | .vcmp ra rb m => asmText "VCMP" m.suffix [ra, rb]
  | .vbitlen rd ra m => asmText "VBITLEN" m.suffix [rd, ra]
  | .vtst ra m => asmText "VTST" m.suffix [ra]
  | .vsel rd ra rb rc m => asmText "VSEL" m.suffix [rd, ra, rb, rc]
  | .vmov rd ra => asmText "VMOV" "" [rd, ra]
  | .madd rd ra rb m => asmText "MADD" m.suffix [rd, ra, rb]
  | .msub rd ra rb m => asmText "MSUB" m.suffix [rd, ra, rb]
  | .mmul rd ra rb m => asmText "MMUL" m.suffix [rd, ra, rb]
  | .msqr rd ra m => asmText "MSQR" m.suffix [rd, ra]
  | .minv rd ra m => asmText "MINV" m.suffix [rd, ra]
  | .msqrt rd ra => asmText "MSQRT" "" [rd, ra]
  | .mred rd ra m => asmText "MRED" m.suffix [rd, ra]
  | .mmont rd ra rb m => asmText "MMONT" m.suffix [rd, ra, rb]
  | .mtom rd ra m => asmText "MTOM" m.suffix [rd, ra]
  | .mfromm rd ra m => asmText "MFROMM" m.suffix [rd, ra]
  | .a2j rd ra => asmText "A2J" "" [rd, ra]
  | .a2jz rd ra rb => asmText "A2JZ" "" [rd, ra, rb]
  | .j2a rd ra => asmText "J2A" "" [rd, ra]
  | .pdbl rd ra => asmText "PDBL" "" [rd, ra]
  | .padd rd ra rb => asmText "PADD" "" [rd, ra, rb]
  | .jadd rd ra rb => asmText "JADD" "" [rd, ra, rb]
  | .pneg rd ra => asmText "PNEG" "" [rd, ra]
  | .pchk ra => asmText "PCHK" "" [ra]
  | .smul rd ra rb => asmText "SMUL" "" [rd, ra, rb]
  | .keygen rd => asmText "KEYGEN" "" [rd]
  | .pubkey rd ra => asmText "PUBKEY" "" [rd, ra]
  | .ecdh rd ra rb => asmText "ECDH" "" [rd, ra, rb]
  | .sign rd ra => asmText "SIGN" "" [rd, ra]
  | .signk rd ra rb => asmText "SIGNK" "" [rd, ra, rb]
  | .verify ra rb => asmText "VERIFY" "" [ra, rb]
  | .compress rd ra => asmText "COMPRESS" "" [rd, ra]
  | .decompress rd ra => asmText "DECOMPRESS" "" [rd, ra]

/-! ## Pseudo-instructions (R321) -/

/-- `VCLR sD`: `VSUB.p sD, sD, sD`. -/
def pseudoVclr (d : SlotNo) : List Instr := [.vsub d d d .p]

/-- `PCOPY sD, sA`: an affine point copy, two VMOVs in order. -/
def pseudoPcopy (d a : SlotNo) : List Instr := [.vmov d a, .vmov (d + 1) (a + 1)]

/-- When `PCOPY` copies a point: D and A both ≤ 30, and D ≤ A or D ≥ A + 2. -/
def pcopyAllowed (d a : SlotNo) : Bool :=
  d.toNat ≤ 30 && a.toNat ≤ 30 && (d.toNat ≤ a.toNat || a.toNat + 2 ≤ d.toNat)

/-- `JCOPY sD, sA`: a Jacobian copy, three VMOVs in order. -/
def pseudoJcopy (d a : SlotNo) : List Instr := [.vmov d a, .vmov (d + 1) (a + 1), .vmov (d + 2) (a + 2)]

/-- When `JCOPY` copies a point: both spans fit, and D ≤ A or D ≥ A + 3. -/
def jcopyAllowed (d a : SlotNo) : Bool :=
  d.toNat ≤ 29 && a.toNat ≤ 29 && (d.toNat ≤ a.toNat || a.toNat + 3 ≤ d.toNat)

/-- `MNEG.m sD, sA, sZ`: `MSUB.m sD, sZ, sA`, where the program guarantees `x[Z] = 0`. -/
def pseudoMneg (m : MSel) (d a z : SlotNo) : List Instr := [.msub d z a m]

end Sys2Proof
end

