-- ==== Sys2Proof/Safety.lean ====
section
/-! DEFINITION. What counts as a safe state and a safe completion, in the terms the claims use: the invariant of every state
the machine can reach, and what a completion leaves unchanged. -/

namespace Sys2Proof.Machine

/-! ## The invariant -/

/-- While IDLE no draw is outstanding (R130, R906), TRIES is at most MAX_TRIES (R123); an error clears the flags (R124), and
a nonzero TRIES is that of a KEYGEN or SIGN (R123, R803). -/
def State.IdleInv (s : State) : Prop :=
  s.entPending = false ∧ s.tryCounter = 0 ∧ s.tries.toNat ≤ Config.maxTries ∧
  (s.err ≠ .ok → s.flags = Flags.clear) ∧
  (s.tries ≠ 0 → s.flags = Flags.clear ∧ (s.err = .ok ∨ s.err = .rng ∨ s.err = .degen))

/-- While BUSY: the latched values are those of the registers, which no access can change (R306, R1020); DONE, the flags, ERR
and TRIES are 0 since the issue (R905); and only a KEYGEN or SIGN at one of its tries has a draw outstanding (R930, R800). -/
def State.BusyInv (s : State) (l : Latch) : Prop :=
  l = s.latchFor s.cmd ∧
  s.done = false ∧ s.flags = Flags.clear ∧ s.err = .ok ∧ s.tries = 0 ∧
  (s.entPending = false → s.tryCounter = 0) ∧
  (s.entPending = true →
    1 ≤ s.tryCounter ∧ s.tryCounter ≤ Config.maxTries ∧ (opField l.word = 0x30#8 ∨ opField l.word = 0x33#8))

/-- The invariant of the machine. -/
def State.Inv (s : State) : Prop :=
  match s.eng with
  | .idle => s.IdleInv
  | .busy l => s.BusyInv l

/-! ## A running command -/

/-- The engine runs a command with the latched values `l`, on the curve `c`. -/
def State.Running (s : State) (l : Latch) (c : Curve) : Prop := s.eng = .busy l ∧ Curve.ofId l.curve = some c

/-! ## Completions -/

/-- What a completion leaves unchanged besides the slots: CTRL, CMD, DLEN, DIGEST (R906), ACCERR (R1020), and what the
outside world has in hand. -/
def SameSetup (s t : State) : Prop :=
  t.ctrlCurve = s.ctrlCurve ∧ t.ctrlIe = s.ctrlIe ∧ t.cmd = s.cmd ∧ t.dlen = s.dlen ∧ t.digest = s.digest ∧
  t.accerr = s.accerr ∧ t.inputs = s.inputs ∧ t.resp = s.resp

/-- The engine is IDLE again and DONE is set (R906). -/
def EngineDone (t : State) : Prop :=
  t.eng = .idle ∧ t.done = true ∧ t.tryCounter = 0 ∧ t.entPending = false

/-- Slot `k` holds `v` for every listed pair, and every other slot is as before. -/
def SlotsWritten (s t : State) (ws : List (Nat × Nat)) : Prop :=
  (∀ w ∈ ws, t.slots.get w.1 = w.2) ∧ ∀ k, k ∉ ws.map Prod.fst → t.slots.get k = s.slots.get k

/-- The command `i` completes at `s` with ERR = 0: exactly the listed slot writes, the given flags, TRIES = 0, no entropy
answer consumed, everything else unchanged (R906). -/
def CompletesWith (i : Instr) (s : State) (ws : List (Nat × Nat)) (f : Flags) : Prop :=
  ∃ t, exec i s = .next t ∧ EngineDone t ∧ SameSetup s t ∧ t.entropy = s.entropy ∧
    t.err = .ok ∧ t.flags = f ∧ t.tries = 0 ∧ SlotsWritten s t ws

/-- The command `i` completes at `s` with the error `e`: no slot written, all flags clear, TRIES = 0, no entropy answer
consumed, everything else unchanged (R906, R912). -/
def FailsWith (i : Instr) (s : State) (e : ErrCode) : Prop :=
  ∃ t, exec i s = .next t ∧ EngineDone t ∧ SameSetup s t ∧ t.entropy = s.entropy ∧
    t.err = e ∧ t.flags = Flags.clear ∧ t.tries = 0 ∧ t.slots = s.slots

/-- A KEYGEN or SIGN completes at `s` after `n` tries with ERR = 0: exactly the listed slot writes, flags clear, and the
answers `rest` left (R800, R906). -/
def CompletesAfterTries (i : Instr) (s : State) (n : Nat) (rest : List EntropyAnswer) (ws : List (Nat × Nat)) : Prop :=
  ∃ t, exec i s = .next t ∧ EngineDone t ∧ SameSetup s t ∧ t.entropy = rest ∧
    t.err = .ok ∧ t.flags = Flags.clear ∧ t.tries = BitVec.ofNat 8 n ∧ SlotsWritten s t ws

/-- A KEYGEN or SIGN completes at `s` by exhaustion with the error `e`: TRIES = MAX_TRIES, no slot written (R803). -/
def ExhaustsWith (i : Instr) (s : State) (rest : List EntropyAnswer) (e : ErrCode) : Prop :=
  ∃ t, exec i s = .next t ∧ EngineDone t ∧ SameSetup s t ∧ t.entropy = rest ∧
    t.err = e ∧ t.flags = Flags.clear ∧ t.tries = 64#8 ∧ t.slots = s.slots

/-- A word that is no command completes at `s` in one step with the error `e` (R910, R906). -/
def RejectsWith (s : State) (e : ErrCode) : Prop :=
  ∃ t, step s = .next t ∧ EngineDone t ∧ SameSetup s.advance t ∧ t.entropy = s.entropy ∧
    t.err = e ∧ t.flags = Flags.clear ∧ t.tries = 0 ∧ t.slots = s.slots

/-! ## The parts every command's rule has (R16) -/

/-- It is the engine's turn: the next input says so, or there is no input (log 2). -/
def State.EngineTurn (s : State) : Prop := s.inputs = [] ∨ ∃ rest, s.inputs = .engine :: rest

/-- A running command that has passed the common checks of R910: the curve is legal, every used field's span ends at slot 31
or below (R303), and DLEN is legal where the digest is read (R125). -/
def State.Ready (s : State) (l : Latch) (c : Curve) (spans : List (SlotNo × Nat)) (usesDigest : Bool) : Prop :=
  s.Running l c ∧ (∀ fk ∈ spans, fk.1.toNat + fk.2 - 1 ≤ 31) ∧ (usesDigest = true → l.dlen.toNat ≤ 32)

/-- The encoding and the common errors of a command (R16): its word, ERR_CURVE for a reserved curve, then ERR_OPERAND for a
span that passes slot 31 or, where the digest is read, a DLEN above 32 (R910). -/
def CommonRule (i : Instr) (w : Word) (spans : List (SlotNo × Nat)) (usesDigest : Bool) : Prop :=
  encode i = w ∧ decode w = .ok i ∧
  (∀ s l, s.eng = .busy l → Curve.ofId l.curve = none → FailsWith i s .curve) ∧
  (∀ s l c, s.Running l c →
    ((∃ fk ∈ spans, 31 < fk.1.toNat + fk.2 - 1) ∨ (usesDigest = true ∧ 32 < l.dlen.toNat)) → FailsWith i s .operand)

/-! ## What a command reads and writes (the fields column of R310) -/

/-- The slots `f, …, f + k - 1`. -/
def spanSlots (f : SlotNo) (k : Nat) : List Nat := (List.range k).map fun j => f.toNat + j

/-- The slots a command writes: its RD span. -/
def destSlots : Instr → List Nat
  | .nop | .vcmp _ _ _ | .vtst _ _ | .pchk _ | .verify _ _ => []
  | .vadd rd _ _ _ | .vsub rd _ _ _ | .vshl1 rd _ _ | .vshr1 rd _ _ | .vbitlen rd _ _ | .vsel rd _ _ _ _ | .vmov rd _
  | .madd rd _ _ _ | .msub rd _ _ _ | .mmul rd _ _ _ | .msqr rd _ _ | .minv rd _ _ | .msqrt rd _ | .mred rd _ _
  | .mmont rd _ _ _ | .mtom rd _ _ | .mfromm rd _ _ | .ecdh rd _ _ => spanSlots rd 1
  | .vmul rd _ _ _ | .vsqr rd _ _ | .j2a rd _ | .pneg rd _ | .smul rd _ _ | .pubkey rd _ | .sign rd _ | .signk rd _ _
  | .compress rd _ | .decompress rd _ => spanSlots rd 2
  | .a2j rd _ | .a2jz rd _ _ | .pdbl rd _ | .padd rd _ _ | .jadd rd _ _ | .keygen rd => spanSlots rd 3

/-- The slots a command reads: its RA, RB and RC spans. -/
def sourceSlots : Instr → List Nat
  | .nop | .keygen _ => []
  | .vadd _ ra rb _ | .vsub _ ra rb _ | .vmul _ ra rb _ | .vcmp ra rb _ | .madd _ ra rb _ | .msub _ ra rb _
  | .mmul _ ra rb _ | .mmont _ ra rb _ | .signk _ ra rb => spanSlots ra 1 ++ spanSlots rb 1
  | .vsqr _ ra _ | .vshl1 _ ra _ | .vshr1 _ ra _ | .vbitlen _ ra _ | .vtst ra _ | .vmov _ ra | .msqr _ ra _ | .minv _ ra _
  | .msqrt _ ra | .mtom _ ra _ | .mfromm _ ra _ | .pubkey _ ra | .sign _ ra => spanSlots ra 1
  | .vsel _ ra rb rc _ => spanSlots ra 1 ++ spanSlots rb 1 ++ spanSlots rc 1
  | .mred _ ra _ | .a2j _ ra | .pneg _ ra | .pchk ra | .compress _ ra | .decompress _ ra => spanSlots ra 2
  | .a2jz _ ra rb | .smul _ ra rb | .ecdh _ ra rb => spanSlots ra 2 ++ spanSlots rb 1
  | .j2a _ ra | .pdbl _ ra => spanSlots ra 3
  | .padd _ ra rb => spanSlots ra 3 ++ spanSlots rb 2
  | .jadd _ ra rb => spanSlots ra 3 ++ spanSlots rb 3
  | .verify ra rb => spanSlots ra 2 ++ spanSlots rb 2

/-- The commands that read the digest (R126). -/
def readsDigest : Instr → Bool
  | .sign _ _ | .signk _ _ _ | .verify _ _ => true
  | _ => false

/-- One row of the fields and M columns of R310: which fields a command uses (a nonzero span) and whether M is used. -/
structure FieldUse where
  op : BitVec 8
  rd : Nat
  ra : Nat
  rb : Nat
  rc : Nat
  m : Bool

/-- The fields and M columns of R310, row by row. -/
def fieldUses : List FieldUse :=
  [ ⟨0x00, 0, 0, 0, 0, false⟩, ⟨0x01, 1, 1, 1, 0, true⟩, ⟨0x02, 1, 1, 1, 0, true⟩, ⟨0x03, 2, 1, 1, 0, true⟩,
    ⟨0x04, 2, 1, 0, 0, true⟩, ⟨0x05, 1, 1, 0, 0, true⟩, ⟨0x06, 1, 1, 0, 0, true⟩, ⟨0x07, 0, 1, 1, 0, true⟩,
    ⟨0x08, 1, 1, 0, 0, true⟩, ⟨0x09, 0, 1, 0, 0, true⟩, ⟨0x0A, 1, 1, 1, 1, true⟩, ⟨0x0B, 1, 1, 0, 0, false⟩ ] ++
  [ ⟨0x10, 1, 1, 1, 0, true⟩, ⟨0x11, 1, 1, 1, 0, true⟩, ⟨0x12, 1, 1, 1, 0, true⟩, ⟨0x13, 1, 1, 0, 0, true⟩,
    ⟨0x14, 1, 1, 0, 0, true⟩, ⟨0x15, 1, 1, 0, 0, false⟩, ⟨0x16, 1, 2, 0, 0, true⟩, ⟨0x17, 1, 1, 1, 0, true⟩,
    ⟨0x18, 1, 1, 0, 0, true⟩, ⟨0x19, 1, 1, 0, 0, true⟩ ] ++
  [ ⟨0x20, 3, 2, 0, 0, false⟩, ⟨0x21, 3, 2, 1, 0, false⟩, ⟨0x22, 2, 3, 0, 0, false⟩, ⟨0x23, 3, 3, 0, 0, false⟩,
    ⟨0x24, 3, 3, 2, 0, false⟩, ⟨0x25, 3, 3, 3, 0, false⟩, ⟨0x26, 2, 2, 0, 0, false⟩, ⟨0x27, 0, 2, 0, 0, false⟩,
    ⟨0x28, 2, 2, 1, 0, false⟩ ] ++
  [ ⟨0x30, 3, 0, 0, 0, false⟩, ⟨0x31, 2, 1, 0, 0, false⟩, ⟨0x32, 1, 2, 1, 0, false⟩, ⟨0x33, 2, 1, 0, 0, false⟩,
    ⟨0x34, 2, 1, 1, 0, false⟩, ⟨0x35, 0, 2, 2, 0, false⟩, ⟨0x36, 2, 2, 0, 0, false⟩, ⟨0x37, 2, 2, 0, 0, false⟩ ]

/-- The must-be-zero bits of a row are 0 (R304): the reserved bits, every unused field, and M where it is not used. -/
def FieldUse.Clear (u : FieldUse) (w : Word) : Prop :=
  w.extractLsb' 29 3 = 0 ∧ (u.rd = 0 → rdField w = 0) ∧ (u.ra = 0 → raField w = 0) ∧ (u.rb = 0 → rbField w = 0) ∧
  (u.rc = 0 → rcField w = 0) ∧ (u.m = false → mField w = 0)

/-! ## Arithmetic and points in the words of the rules -/

/-- `b = inv_m(a)` (R13). -/
def InverseOf (m a b : Nat) : Prop := 1 ≤ b ∧ b < m ∧ a * b % m = 1

/-- `QR_p(A)` (R515). -/
def QuadraticResidue (p A : Nat) : Prop := A = 0 ∨ A ^ ((p - 1) / 2) % p = 1

/-- The curve equation in the prime field (R14). -/
def OnCurveEq (c : Curve) (x y : Nat) : Prop := (y : ZMod c.p) ^ 2 = (x : ZMod c.p) ^ 3 + c.a * x + c.b

/-- `Valid(x, y)` (R602). -/
def Valid (c : Curve) (x y : Nat) : Prop := ¬(x = 0 ∧ y = 0) ∧ x < c.p ∧ y < c.p ∧ OnCurveEq c x y

/-- Every coordinate of a triple is reduced (R601). -/
def JacReduced (c : Curve) (J : Jac) : Prop := J.x < c.p ∧ J.y < c.p ∧ J.z < c.p

/-- A reduced triple that denotes `INF` or a point of the curve (R15, R600). -/
def JacOnCurve (c : Curve) (J : Jac) : Prop :=
  JacReduced c J ∧ (J.z = 0 ∨ ∃ x y, jacToAffine c J = .affine x y ∧ Valid c x y)

/-- `J'` is `JDBL(J)` (R604), in the prime field. -/
def IsDouble (c : Curve) (J J' : Jac) : Prop :=
  (J.z = 0 ∨ J.y = 0 → J' = ⟨1, 1, 0⟩) ∧
  (J.z ≠ 0 → J.y ≠ 0 →
    let X : ZMod c.p := J.x
    let Y : ZMod c.p := J.y
    let Z : ZMod c.p := J.z
    let M := 3 * X ^ 2 + c.a * Z ^ 4
    let S := 4 * X * Y ^ 2
    let X3 := M ^ 2 - 2 * S
    JacReduced c J' ∧ (J'.x : ZMod c.p) = X3 ∧ (J'.y : ZMod c.p) = M * (S - X3) - 8 * Y ^ 4 ∧ (J'.z : ZMod c.p) = 2 * Y * Z)

/-- `J'` is `JSUM(P1, P2)` (R605), in the prime field. -/
def IsSum (c : Curve) (P1 P2 J' : Jac) : Prop :=
  (P1.z = 0 → P2.z = 0 → J' = ⟨1, 1, 0⟩) ∧ (P1.z = 0 → P2.z ≠ 0 → J' = P2) ∧ (P1.z ≠ 0 → P2.z = 0 → J' = P1) ∧
  (P1.z ≠ 0 → P2.z ≠ 0 →
    let Z1 : ZMod c.p := P1.z
    let Z2 : ZMod c.p := P2.z
    let U1 := P1.x * Z2 ^ 2
    let U2 := P2.x * Z1 ^ 2
    let S1 := P1.y * Z2 ^ 3
    let S2 := P2.y * Z1 ^ 3
    let H := U2 - U1
    let R := S2 - S1
    let X3 := R ^ 2 - H ^ 3 - 2 * U1 * H ^ 2
    (H = 0 → R = 0 → IsDouble c P1 J') ∧ (H = 0 → R ≠ 0 → J' = ⟨1, 1, 0⟩) ∧
    (H ≠ 0 → JacReduced c J' ∧ (J'.x : ZMod c.p) = X3 ∧ (J'.y : ZMod c.p) = R * (U1 * H ^ 2 - X3) - S1 * H ^ 3 ∧ (J'.z : ZMod c.p) = H * Z1 * Z2))

/-! ## Draws and signatures in the words of the rules -/

/-- `Candidate(w)` (R801). -/
def Candidate (c : Curve) (w : Vector Word 8) : Nat :=
  (∑ j ∈ Finset.range c.wn, (w[j]?.getD 0).toNat * 2 ^ (32 * j)) % 2 ^ c.nbits

/-- The candidate of this answer is accepted (R801). -/
def Accepted (c : Curve) (w : Vector Word 8) : Prop := 1 ≤ Candidate c w ∧ Candidate c w ≤ c.n - 1

/-- The draw failed or its candidate is rejected: the try ends with the class RNG (R800). -/
def DrawRejected (c : Curve) (a : EntropyAnswer) : Prop := a = .fail ∨ ∃ w, a = .ok w ∧ ¬ Accepted c w

/-- `(r, sig)` is the signature of the digest scalar `z` under the key `d` with the nonce `k` (R840, R845). -/
def SignatureOf (c : Curve) (d z k r sig : Nat) : Prop :=
  ∃ x y w, ecMul c k c.G = .affine x y ∧ InverseOf c.n k w ∧ r = x % c.n ∧ r ≠ 0 ∧
    sig = w * (z + r * d) % c.n ∧ sig ≠ 0 ∧ sig < 2 ^ (8 * c.nbp)

/-- The nonce `k` leads to `r = 0`, `s = 0` or an `s` that does not fit `NBp` bytes (R840, R845). -/
def DegenerateNonce (c : Curve) (d z k : Nat) : Prop :=
  ∃ x y w, ecMul c k c.G = .affine x y ∧ InverseOf c.n k w ∧
    (x % c.n = 0 ∨ w * (z + x % c.n * d) % c.n = 0 ∨ 2 ^ (8 * c.nbp) ≤ w * (z + x % c.n * d) % c.n)

/-- This answer makes a try of SIGN fail (R840): the draw is rejected, or the nonce is degenerate. -/
def SignTryFails (c : Curve) (d z : Nat) (a : EntropyAnswer) : Prop :=
  DrawRejected c a ∨ ∃ w, a = .ok w ∧ Accepted c w ∧ DegenerateNonce c d z (Candidate c w)

/-! ## Commands one after another -/

/-- The commands are issued and completed one after another, from an idle block to an idle block (R321, R1022). -/
def RunsAll : List Instr → State → State → Prop
  | [], s, t => t = s
  | i :: is, s, t => ∃ u, exec i (s.issue (encode i)) = .next u ∧ u.eng = .idle ∧ RunsAll is u t

end Sys2Proof.Machine
end

