-- ==== Sys2Proof/Certificates/Slice0/Obligations.lean ====
section
/-! DEFINITION. The statements for the provers. Each says which rule of spec/ it formalises; one that rests on a choice of the
model names the log entry. A statement about a command names its operands as the rule does: `x[f]` is `l.slots.get f` of the
latched slots (R306). -/

section Statements

open Sys2Proof Sys2Proof.Machine

/-! ## Encoding -/

/-- R300, R304, R310, R313: decoding the word of a command gives the command back, with every field at every value. -/
def Obligations.DecodeOfEncodeIsTheCommand : Prop :=
  ∀ i : Instr, decode (encode i) = .ok i

/-- R300, R310, R313: a word that decodes is the word of the command it decodes to, so every command has exactly one word. -/
def Obligations.EncodeOfDecodeIsTheWord : Prop :=
  ∀ (w : Word) (i : Instr), decode w = .ok i → encode i = w

/-- R304, R310, R313: a word is a command exactly when its OP is in the table and its must-be-zero bits are clear, by the fields
and M columns of R310 (not by the masks, which the decoder uses); a known OP with a nonzero must-be-zero bit is an operand
error, not an illegal opcode, and such a command ends with ERR_OPERAND once the curve check of R910 has passed. -/
def Obligations.MustBeZeroBitsDecideTheCommand : Prop :=
  (∀ w : Word, (∃ i, decode w = .ok i) ↔ ∃ u ∈ fieldUses, u.op = opField w ∧ u.Clear w) ∧
  (∀ w : Word, decode w = .error .mustBeZero ↔ ∃ u ∈ fieldUses, u.op = opField w ∧ ¬ u.Clear w) ∧
  (∀ s l, s.eng = .busy l → s.EngineTurn → decode l.word = .error .mustBeZero →
    (∀ c, Curve.ofId l.curve = some c → RejectsWith s .operand) ∧
    (Curve.ofId l.curve = none → opField l.word = 0x00 → RejectsWith s .operand) ∧
    (Curve.ofId l.curve = none → opField l.word ≠ 0x00 → RejectsWith s .curve))

/-- R311: the illegal OP values are exactly those listed, every one behaves the same way whatever the other bits and the curve,
and such a command ends with ERR_ILLEGAL and changes no slot. -/
def Obligations.IllegalOpcodesEndWithErrIllegal : Prop :=
  (∀ w : Word, decode w = .error .illegal ↔
    let o := (opField w).toNat
    (0x0C ≤ o ∧ o ≤ 0x0F) ∨ (0x1A ≤ o ∧ o ≤ 0x1F) ∨ (0x29 ≤ o ∧ o ≤ 0x2F) ∨ (0x38 ≤ o ∧ o ≤ 0xFF)) ∧
  (∀ s l, s.eng = .busy l → s.EngineTurn → decode l.word = .error .illegal → RejectsWith s .illegal)

/-- R320: the four example encodings of the assembler syntax. -/
def Obligations.ExampleWordsDecode : Prop :=
  decode 0x10040212#32 = .ok (.mmul 2 0 1 .n) ∧ decode 0x0104030A#32 = .ok (.vsel 3 0 1 2 .p) ∧
  decode 0x00148007#32 = .ok (.vcmp 4 5 .p) ∧ decode 0x000C0624#32 = .ok (.padd 6 0 3)

/-! ## Steps -/

/-- R313, R905, R906: in the engine's turn, a step of a block that runs a command's word is the command's meaning; and from the
state that the model's loader leaves (log 13), where the word has just been written to CMD, the very next step runs it. -/
def Obligations.StepRunsTheDecodedCommand : Prop :=
  (∀ s l i, s.eng = .busy l → s.EngineTurn → decode l.word = .ok i →
    step s = exec i { s with inputs := s.inputs.tail, resp := none }) ∧
  (∀ (s : State) nbits w i, decode (BitVec.ofNat 32 (w % 2 ^ nbits)) = .ok i →
    step (s.withFetchWord nbits w) = exec i { s.issue (BitVec.ofNat 32 (w % 2 ^ nbits)) with resp := none })

/-- R905: a CMD write while idle stores the word, latches it with CTRL.CURVE, DLEN, DIGEST and all slots, sets BUSY and clears
DONE, the flags, ERR and TRIES; ACCERR is not changed and IRQ falls. A CMD write while busy is refused. Three clauses are the
model's and no rule's: that the write is a step of its own (log 2), that the bus answer stands in `resp` (log 4), and that an
issue sets the try counter to 0 (log 20). -/
def Obligations.CmdWriteIssuesTheCommand : Prop :=
  ∀ (s : State) (w : Word) rest, s.inputs = hostWrite 0x008 w :: rest →
    (s.eng = .idle → ∃ t, step s = .next t ∧ t.irq = false ∧
      t = { s with
        inputs := rest
        resp := some (.writeDone false)
        cmd := w
        eng := .busy { word := w, curve := s.ctrlCurve, dlen := s.dlen, digest := s.digest, slots := s.slots }
        done := false
        flags := ⟨false, false, false⟩
        err := .ok
        tries := 0
        tryCounter := 0
        entPending := false }) ∧
    (∀ l, s.eng = .busy l →
      step s = .next { s with inputs := rest, resp := some (.writeDone false), accerr := true })

/-- R907: the block has no traps, so every step from every state answers a next state; and ERR keeps its value except at an
issue, which clears it, at a completion, and at reset. -/
def Obligations.NoTrapAndErrKeptUntilNextIssue : Prop :=
  ∀ s : State, ∃ t, step s = .next t ∧
    (t.err = s.err ∨ (s.eng = .idle ∧ t.busy = true ∧ t.err = .ok) ∨ (s.busy = true ∧ s.EngineTurn ∧ t.eng = .idle) ∨
      ∃ rest, s.inputs = .reset :: rest)

/-- The invariant of Safety.lean: while IDLE no draw is outstanding, TRIES is at most 64, an error leaves the flags clear;
while BUSY the latched values are those of the registers, STATUS shows no result, and only KEYGEN or SIGN has a draw
outstanding, at a try of 1 to 64. Every step keeps it, from every state that has it. -/
def Obligations.EveryStepKeepsTheInvariant : Prop :=
  ∀ s t : State, s.Inv → step s = .next t → t.Inv

/-- The state after reset has the invariant. -/
def Obligations.ResetHasTheInvariant : Prop := State.reset.Inv

/-- R1000, R1001: reset, also of a running command, leaves every register at its reset value with no result written, and the
answer to an abandoned draw is ignored: the one at hand, which is the first of the provider's list while a draw is outstanding,
is dropped, and one that arrives later changes nothing. That `inputs` and the other answers of that list survive a reset is
the model's choice (log 21). -/
def Obligations.ResetClearsEverything : Prop :=
  (∀ (s : State) rest, s.inputs = .reset :: rest → ∃ t, step s = .next t ∧
    (∀ k, t.slots.get k = 0) ∧ t.readReg .id = 0x4D454301 ∧ t.ctrlWord = 0 ∧ t.cmd = 0 ∧ t.statusWord = 0 ∧
    t.dlenWord = 0 ∧ (∀ j : Fin 8, t.digest[j] = 0) ∧ t.eng = .idle ∧ t.entPending = false ∧ t.irq = false ∧
    t.inputs = rest ∧ (s.entPending = true → t.entropy = s.entropy.tail) ∧ (s.entPending = false → t.entropy = s.entropy) ∧
    (∀ a rest', rest = .lateEntropy a :: rest' → step t = .next { t with inputs := rest', resp := none })) ∧
  (∀ k, State.reset.slots.get k = 0) ∧ State.reset.ctrlWord = 0 ∧ State.reset.cmd = 0 ∧ State.reset.statusWord = 0 ∧
  State.reset.dlenWord = 0 ∧ (∀ j : Fin 8, State.reset.digest[j] = 0) ∧ State.reset.eng = .idle ∧
  State.reset.entPending = false ∧ State.reset.irq = false

/-! ## The register window -/

/-- R210, R211, R212: what a read of each aligned offset of an idle block returns, and that no read changes the block (R220). -/
def Obligations.IdleReadsFollowTheRegisterMap : Prop :=
  ∀ (s : State) off rest, s.eng = .idle → off < 2048 → off % 4 = 0 → s.inputs = hostRead off :: rest →
    ∃ v, step s = .next { s with inputs := rest, resp := some (.readData v false) } ∧
      (off = 0x000 → v = 0x4D454301) ∧ (off = 0x004 → v = s.ctrlWord) ∧ (off = 0x008 → v = s.cmd) ∧
      (off = 0x00C → v = s.statusWord) ∧ (off = 0x010 → v = s.dlenWord) ∧
      ((0x014 ≤ off ∧ off ≤ 0x03F) ∨ (0x060 ≤ off ∧ off ≤ 0x3FF) → v = 0) ∧
      (∀ j : Fin 8, off = 0x040 + 4 * j.val → v = s.digest[j]) ∧
      (∀ k j, k < 32 → j < 8 → off = 0x400 + 32 * k + 4 * j → v.toNat = s.slots.get k / 2 ^ (32 * j) % 2 ^ 32)

/-- R211, R212: the slot window of an idle block: a write replaces bits [32j+31 : 32j] of the slot and nothing else, a read
returns them, and a slot is the sum of its words, the least significant first; while busy R1021 applies instead. -/
def Obligations.SlotWindowReadsAndWritesWords : Prop :=
  ∀ (s : State) k j, k < 32 → j < 8 →
    (∀ v rest, s.eng = .idle → s.inputs = hostWrite (0x400 + 32 * k + 4 * j) v :: rest →
      ∃ t, step s = .next t ∧
        t = { s with inputs := rest, resp := some (.writeDone false), slots := t.slots } ∧
        t.slots.get k + (s.slots.get k / 2 ^ (32 * j) % 2 ^ 32) * 2 ^ (32 * j) =
          s.slots.get k + v.toNat * 2 ^ (32 * j) ∧
        ∀ k', k' ≠ k → t.slots.get k' = s.slots.get k') ∧
    (∀ rest, s.inputs = hostRead (0x400 + 32 * k + 4 * j) :: rest →
      ∃ v, step s = .next { s with inputs := rest, resp := some (.readData v false) } ∧
        (s.eng = .idle → v.toNat = s.slots.get k / 2 ^ (32 * j) % 2 ^ 32) ∧ (s.busy = true → v = 0)) ∧
    s.slots.get k = ∑ i ∈ Finset.range 8, (s.slots.get k / 2 ^ (32 * i) % 2 ^ 32) * 2 ^ (32 * i)

/-- R121, R125, R126, R120: writes to the other registers of an idle block. CTRL stores CURVE and IE, DLEN its six bits, and both
read back with their reserved bits 0; a DIGEST word stores four digest bytes, big-endian; ID ignores writes. -/
def Obligations.ConfigurationWritesStoreTheirFields : Prop :=
  ∀ (s : State) (v : Word) rest, s.eng = .idle →
    (s.inputs = hostWrite 0x004 v :: rest → ∃ t, step s = .next t ∧
      t = { s with
        inputs := rest
        resp := some (.writeDone false)
        ctrlCurve := v.extractLsb' 0 3
        ctrlIe := v.getLsbD 3 } ∧
      t.ctrlWord = v &&& 0x0000000F#32) ∧
    (s.inputs = hostWrite 0x010 v :: rest → ∃ t, step s = .next t ∧
      t = { s with inputs := rest, resp := some (.writeDone false), dlen := v.extractLsb' 0 6 } ∧
      t.dlenWord = v &&& 0x0000003F#32) ∧
    (∀ j : Fin 8, s.inputs = hostWrite (0x040 + 4 * j.val) v :: rest → ∃ t, step s = .next t ∧
      t = { s with inputs := rest, resp := some (.writeDone false), digest := t.digest } ∧
      t.digest[j] = v ∧ (∀ j' : Fin 8, j' ≠ j → t.digest[j'] = s.digest[j']) ∧
      Digest.byte t.digest (4 * j.val) = v.extractLsb' 24 8 ∧ Digest.byte t.digest (4 * j.val + 1) = v.extractLsb' 16 8 ∧
      Digest.byte t.digest (4 * j.val + 2) = v.extractLsb' 8 8 ∧ Digest.byte t.digest (4 * j.val + 3) = v.extractLsb' 0 8) ∧
    (s.inputs = hostWrite 0x000 v :: rest → step s = .next { s with inputs := rest, resp := some (.writeDone false) })

/-- R123, R130, R900: every bit of STATUS, its reserved bits 0, the error codes, and the W1C write, accepted in either engine
state: bit 1 clears DONE, bit 5 clears ACCERR, nothing else changes. -/
def Obligations.StatusShowsAndClearsItsBits : Prop :=
  (∀ s : State, let w := s.statusWord
    (w.getLsbD 0 = true ↔ s.eng ≠ .idle) ∧ w.getLsbD 1 = s.done ∧ w.getLsbD 2 = s.flags.z ∧ w.getLsbD 3 = s.flags.c ∧
    w.getLsbD 4 = s.flags.v ∧ w.getLsbD 5 = s.accerr ∧ w.extractLsb' 6 2 = 0 ∧ w.extractLsb' 12 4 = 0 ∧
    w.extractLsb' 16 8 = s.tries ∧ w.extractLsb' 24 8 = 0 ∧
    w.extractLsb' 8 4 = match s.err with
      | .ok => 0 | .illegal => 1 | .operand => 2 | .curve => 3 | .range => 4 | .noInv => 5 | .noSqrt => 6 | .scalar => 7
      | .point => 8 | .rng => 9 | .degen => 10) ∧
  (∀ (s : State) (v : Word) rest, s.inputs = hostWrite 0x00C v :: rest →
    step s = .next { s with
      inputs := rest
      resp := some (.writeDone false)
      done := if v.getLsbD 1 = true then false else s.done
      accerr := if v.getLsbD 5 = true then false else s.accerr })

/-- R213, R214, R9: an access that is not a full aligned word has no effect and reads 0; a supported access to a reserved offset
reads 0, ignores writes, and gives no bus error. The clause on the error response of an unsupported access is the model's
choice: one opaque Boolean stands for BUS_ERR_RESP and for the bus's ability to answer so (log 6), and it decides at reserved
offsets too, where R213 and R214 overlap (log 24). -/
def Obligations.UnsupportedAndReservedAccessesDoNothing : Prop :=
  ∀ (s : State) (a : Access) rest, s.inputs = .bus a :: rest →
    (¬(a.size = .word ∧ a.enables = 0xF ∧ a.addr % 4 = 0) →
      (a.kind = .read →
        step s = .next { s with inputs := rest, resp := some (.readData 0 Config.busErrResp) }) ∧
      (∀ v, a.kind = .write v →
        step s = .next { s with inputs := rest, resp := some (.writeDone Config.busErrResp) })) ∧
    (a.size = .word → a.enables = 0xF → a.addr % 4 = 0 →
      (0x014 ≤ a.addr % 2048 ∧ a.addr % 2048 ≤ 0x03F) ∨ (0x060 ≤ a.addr % 2048 ∧ a.addr % 2048 ≤ 0x3FF) →
      (a.kind = .read → step s = .next { s with inputs := rest, resp := some (.readData 0 false) }) ∧
      (∀ v, a.kind = .write v → step s = .next { s with inputs := rest, resp := some (.writeDone false) }))

/-- R1020: while busy, a write to CMD, CTRL, DLEN, a DIGEST word or a slot word changes nothing but ACCERR, which it sets; a
STATUS write is accepted; ID and reserved offsets ignore writes without ACCERR. And ACCERR, once set, is cleared only by a
STATUS write with bit 5, or by reset. -/
def Obligations.BusyWritesAreRefusedAndSetAccerr : Prop :=
  (∀ (s : State) l off (v : Word) rest, s.eng = .busy l → off < 2048 → off % 4 = 0 → s.inputs = hostWrite off v :: rest →
    let t := { s with inputs := rest, resp := some (.writeDone false) }
    (off = 0x004 ∨ off = 0x008 ∨ off = 0x010 ∨ (0x040 ≤ off ∧ off ≤ 0x05F) ∨ 0x400 ≤ off →
      step s = .next { t with accerr := true }) ∧
    (off = 0x00C →
      step s = .next { t with done := s.done && !v.getLsbD 1, accerr := s.accerr && !v.getLsbD 5 }) ∧
    (off = 0x000 ∨ (0x014 ≤ off ∧ off ≤ 0x03F) ∨ (0x060 ≤ off ∧ off ≤ 0x3FF) → step s = .next t)) ∧
  (∀ s t : State, step s = .next t → s.accerr = true → t.accerr = false →
    (∃ rest, s.inputs = .reset :: rest) ∨
    ∃ a v rest, s.inputs = .bus a :: rest ∧ a.supported = true ∧ a.offset = 0x00C ∧ a.kind = .write v ∧
      v.getLsbD 5 = true)

/-- R1021: while busy, slot and DIGEST words read 0 and the other registers their current values, with no side effect and no
ACCERR; CMD then holds the word of the running command (in every state that has the invariant). -/
def Obligations.BusyReadsHideSlotsAndDigest : Prop :=
  ∀ (s : State) l off rest, s.eng = .busy l → off < 2048 → off % 4 = 0 → s.inputs = hostRead off :: rest →
    ∃ v, step s = .next { s with inputs := rest, resp := some (.readData v false) } ∧
      ((0x040 ≤ off ∧ off ≤ 0x05F) ∨ 0x400 ≤ off → v = 0) ∧ (off = 0x000 → v = 0x4D454301) ∧
      (off = 0x004 → v = s.ctrlWord) ∧ (off = 0x008 → v = s.cmd ∧ (s.Inv → s.cmd = l.word)) ∧
      (off = 0x00C → v = s.statusWord) ∧ (off = 0x010 → v = s.dlenWord)

/-- R131, R920, R921: IRQ is DONE and IE, 0 at reset. It rises only when a command completes with IE set, or when IE is set while
DONE; it falls only on a STATUS write with bit 1, a CTRL write with IE = 0, an issue, or reset; and each of these does move it. -/
def Obligations.IrqRisesAndFallsOnlyAsStated : Prop :=
  State.reset.irq = false ∧
  (∀ s : State, s.irq = true ↔ s.statusWord.getLsbD 1 = true ∧ s.ctrlWord.getLsbD 3 = true) ∧
  (∀ s t : State, step s = .next t → s.irq = false → t.irq = true →
    (s.busy = true ∧ s.EngineTurn ∧ t.eng = .idle ∧ s.ctrlIe = true) ∨
    (∃ a v rest, s.inputs = .bus a :: rest ∧ a.supported = true ∧ a.offset = 0x004 ∧ a.kind = .write v ∧
      v.getLsbD 3 = true ∧ s.done = true ∧ s.eng = .idle)) ∧
  (∀ s t : State, step s = .next t → s.irq = true → t.irq = false →
    (∃ rest, s.inputs = .reset :: rest) ∨
    ∃ a v rest, s.inputs = .bus a :: rest ∧ a.supported = true ∧ a.kind = .write v ∧
      ((a.offset = 0x00C ∧ v.getLsbD 1 = true) ∨ (a.offset = 0x004 ∧ v.getLsbD 3 = false ∧ s.eng = .idle) ∨
        (a.offset = 0x008 ∧ s.eng = .idle))) ∧
  (∀ s t : State, step s = .next t → s.busy = true → s.EngineTurn → t.eng = .idle → t.irq = s.ctrlIe) ∧
  (∀ (s t : State) (v : Word) rest, step s = .next t →
    (s.inputs = hostWrite 0x00C v :: rest → v.getLsbD 1 = true → t.irq = false) ∧
    (s.inputs = hostWrite 0x004 v :: rest → s.eng = .idle → t.irq = (s.done && v.getLsbD 3)) ∧
    (s.inputs = hostWrite 0x008 v :: rest → s.eng = .idle → t.irq = false))

/-! ## All commands -/

/-- R101, R221, R906, R912: what a command leaves unchanged when it completes: every slot outside its RD span, and all slots and no
flag set when ERR is nonzero; CTRL, CMD, DLEN, DIGEST and ACCERR; the engine is idle and DONE set. KEYGEN and SIGN alone may
instead wait for a draw, with nothing changed but the engine's own try counter and `ent_pending` (R930, R931; the answers at
hand are taken from the oracle list, log 3). -/
def Obligations.CommandsChangeOnlyTheirDestination : Prop :=
  ∀ (i : Instr) (s : State) l, s.eng = .busy l → ∃ t, exec i s = .next t ∧
    ((EngineDone t ∧ SameSetup s t ∧ (∀ k, k ∉ destSlots i → t.slots.get k = s.slots.get k) ∧
      (t.err ≠ .ok → t.slots = s.slots ∧ t.flags = ⟨false, false, false⟩)) ∨
    ((∃ rd ra, i = .keygen rd ∨ i = .sign rd ra) ∧
      t = { s with tryCounter := t.tryCounter, entPending := true, entropy := [] }))

/-- R124: no flag is an input to any command, nor is any other field of STATUS: with other flags, ERR, TRIES, DONE and ACCERR the
command completes alike. -/
def Obligations.NoStatusFieldIsAnInput : Prop :=
  ∀ (i : Instr) (s t : State) l f e n d a, s.eng = .busy l → exec i s = .next t → t.eng = .idle →
    exec i { s with flags := f, err := e, tries := n, done := d, accerr := a } = .next { t with accerr := a }

/-- R101, R126, R306: a command's outcome depends on nothing but the curve, the slots its RA, RB and RC fields span, the answers to
its draws, and, for SIGN, SIGNK and VERIFY, the first DLEN bytes of the digest: two runs that agree on these give the same ERR,
flags, TRIES and results, whatever secrets the other slots hold. -/
def Obligations.OtherSlotsDoNotLeakIntoResults : Prop :=
  ∀ (i : Instr) (s1 s2 t1 t2 : State) l1 l2, s1.eng = .busy l1 → s2.eng = .busy l2 → l1.curve = l2.curve →
    (∀ k ∈ sourceSlots i, l1.slots.get k = l2.slots.get k) →
    (readsDigest i = true → l1.dlen = l2.dlen ∧
      ∀ b, b < l1.dlen.toNat → Digest.byte l1.digest b = Digest.byte l2.digest b) →
    s1.entropy = s2.entropy → s1.entPending = s2.entPending → s1.tryCounter = s2.tryCounter →
    exec i s1 = .next t1 → exec i s2 = .next t2 → t1.eng = .idle →
    t2.eng = .idle ∧ t1.err = t2.err ∧ t1.flags = t2.flags ∧ t1.tries = t2.tries ∧ t1.entropy = t2.entropy ∧
      (t1.err = .ok → ∀ k ∈ destSlots i, t1.slots.get k = t2.slots.get k)

/-- R306, R1020, R1030: the results of a command do not depend on LAT: any bus access that falls between its issue and its
completion leaves its results, ERR, flags, TRIES and draws as they are without that access. -/
def Obligations.BusAccessesDoNotDisturbARunningCommand : Prop :=
  ∀ (i : Instr) (s t t' : State) l (a : Access), s.eng = .busy l → exec i s = .next t →
    exec i (s.busAccess a) = .next t' →
    t'.slots = t.slots ∧ t'.err = t.err ∧ t'.flags = t.flags ∧ t'.tries = t.tries ∧ t'.eng = t.eng ∧
      t'.ctrlCurve = t.ctrlCurve ∧ t'.ctrlIe = t.ctrlIe ∧ t'.cmd = t.cmd ∧ t'.dlen = t.dlen ∧ t'.digest = t.digest ∧
      t'.entropy = t.entropy ∧ t'.tryCounter = t.tryCounter ∧ t'.entPending = t.entPending

/-- R930, R931, R932: when the provider's answers come does not matter, only their order: a KEYGEN or SIGN that waits after some
answers and then gets the others ends as if all had been at hand. That the last try's class is not kept while waiting is the
model's form (log 20), and this shows it harmless. -/
def Obligations.AnswersMayArriveInParts : Prop :=
  ∀ (i : Instr) (s t : State) l es1 es2, s.eng = .busy l →
    exec i { s with entropy := es1 } = .next t → t.eng ≠ .idle →
    exec i { t with entropy := es2 } = exec i { s with entropy := es1 ++ es2 }

/-- R1032: in every state that has the invariant, a running word completes in the engine's turn once 64 answers are at hand; and
every word but KEYGEN's and SIGN's completes with no answer at all. -/
def Obligations.EveryCommandCompletes : Prop :=
  ∀ (s : State) l, s.Inv → s.eng = .busy l → s.EngineTurn →
    (64 ≤ s.entropy.length ∨ (opField l.word ≠ 0x30 ∧ opField l.word ≠ 0x33)) →
    ∃ t, step s = .next t ∧ t.eng = .idle ∧ t.done = true

/-- R321: the pseudo-instructions. VCLR clears a slot; PCOPY and JCOPY copy a point under their overlap conditions; MNEG negates
modulo `m`. Each leaves every other slot as it was. -/
def Obligations.PseudoInstructionsDoWhatTheySay : Prop :=
  ∀ (s : State) c, s.eng = .idle → Curve.ofId s.ctrlCurve = some c →
    (∀ d : SlotNo, ∃ t, RunsAll (pseudoVclr d) s t ∧ SlotsWritten s t [(d.toNat, 0)]) ∧
    (∀ d a : SlotNo, d.toNat ≤ 30 → a.toNat ≤ 30 → (d.toNat ≤ a.toNat ∨ a.toNat + 2 ≤ d.toNat) →
      ∃ t, RunsAll (pseudoPcopy d a) s t ∧
        SlotsWritten s t [(d.toNat, s.slots.get a.toNat), (d.toNat + 1, s.slots.get (a.toNat + 1))]) ∧
    (∀ d a : SlotNo, d.toNat ≤ 29 → a.toNat ≤ 29 → (d.toNat ≤ a.toNat ∨ a.toNat + 3 ≤ d.toNat) →
      ∃ t, RunsAll (pseudoJcopy d a) s t ∧
        SlotsWritten s t [(d.toNat, s.slots.get a.toNat), (d.toNat + 1, s.slots.get (a.toNat + 1)),
          (d.toNat + 2, s.slots.get (a.toNat + 2))]) ∧
    (∀ (m : MSel) (d a z : SlotNo), s.slots.get z.toNat = 0 → s.slots.get a.toNat < modulus c m →
      ∃ t, RunsAll (pseudoMneg m d a z) s t ∧
        SlotsWritten s t [(d.toNat, (modulus c m - s.slots.get a.toNat) % modulus c m)])

/-! ## VLI commands (40_vli.md) -/

/-- R410, R312: NOP completes under any curve with every flag clear; 0 is its only word, and any other word with OP = 0 ends with
ERR_OPERAND, also under any curve. -/
def Obligations.NopCompletesUnderAnyCurve : Prop :=
  encode .nop = 0x00000000#32 ∧ decode 0x00000000#32 = .ok .nop ∧
  (∀ s l, s.eng = .busy l → CompletesWith .nop s [] ⟨false, false, false⟩) ∧
  (∀ w : Word, opField w = 0x00 → w ≠ 0 → decode w = .error .mustBeZero) ∧
  (∀ s l, s.eng = .busy l → s.EngineTurn → opField l.word = 0x00 → l.word ≠ 0 → RejectsWith s .operand)

/-- R411, R412: VADD and VSUB at width `W`, the sum and the difference modulo `2^(32W)`; C is the carry, the borrow; Z is set when
the written result is 0. -/
def Obligations.VaddAndVsubWrapWithCarryAndBorrow : Prop :=
  ∀ (rd ra rb : SlotNo) (m : MSel), let spans := [(rd, 1), (ra, 1), (rb, 1)]
    CommonRule (.vadd rd ra rb m) (packWord 0x01 rd ra rb 0 m.toBit) spans false ∧
    CommonRule (.vsub rd ra rb m) (packWord 0x02 rd ra rb 0 m.toBit) spans false ∧
    ∀ s l c, s.Ready l c spans false →
      let N := 2 ^ (32 * width c m)
      let A := l.slots.get ra.toNat % N
      let B := l.slots.get rb.toNat % N
      CompletesWith (.vadd rd ra rb m) s [(rd.toNat, (A + B) % N)] ⟨(A + B) % N = 0, N ≤ A + B, false⟩ ∧
      CompletesWith (.vsub rd ra rb m) s [(rd.toNat, (A + N - B) % N)] ⟨(A + N - B) % N = 0, A < B, false⟩

/-- R413, R414: VMUL and VSQR give the exact product, its low 256 bits first; Z is set when the product is 0. -/
def Obligations.VmulAndVsqrGiveTheExactProduct : Prop :=
  ∀ (rd ra rb : SlotNo) (m : MSel), let spans := [(rd, 2), (ra, 1), (rb, 1)]
    CommonRule (.vmul rd ra rb m) (packWord 0x03 rd ra rb 0 m.toBit) spans false ∧
    CommonRule (.vsqr rd ra m) (packWord 0x04 rd ra 0 0 m.toBit) [(rd, 2), (ra, 1)] false ∧
    (∀ s l c, s.Ready l c spans false →
      let A := l.slots.get ra.toNat % 2 ^ (32 * width c m)
      let B := l.slots.get rb.toNat % 2 ^ (32 * width c m)
      ∃ lo hi, A * B = lo + 2 ^ 256 * hi ∧ lo < 2 ^ 256 ∧ hi < 2 ^ 256 ∧
        CompletesWith (.vmul rd ra rb m) s [(rd.toNat, lo), (rd.toNat + 1, hi)] ⟨A * B = 0, false, false⟩) ∧
    (∀ s l c, s.Ready l c [(rd, 2), (ra, 1)] false →
      let A := l.slots.get ra.toNat % 2 ^ (32 * width c m)
      ∃ lo hi, A * A = lo + 2 ^ 256 * hi ∧ lo < 2 ^ 256 ∧ hi < 2 ^ 256 ∧
        CompletesWith (.vsqr rd ra m) s [(rd.toNat, lo), (rd.toNat + 1, hi)] ⟨A * A = 0, false, false⟩)

/-- R415, R416: the shifts by one bit at width `W`; C is the bit shifted out, the top bit of the truncated operand or its bit 0. -/
def Obligations.VshlAndVshrShiftByOneBit : Prop :=
  ∀ (rd ra : SlotNo) (m : MSel), let spans := [(rd, 1), (ra, 1)]
    CommonRule (.vshl1 rd ra m) (packWord 0x05 rd ra 0 0 m.toBit) spans false ∧
    CommonRule (.vshr1 rd ra m) (packWord 0x06 rd ra 0 0 m.toBit) spans false ∧
    ∀ s l c, s.Ready l c spans false →
      let W := width c m
      let A := l.slots.get ra.toNat % 2 ^ (32 * W)
      CompletesWith (.vshl1 rd ra m) s [(rd.toNat, 2 * A % 2 ^ (32 * W))]
        ⟨2 * A % 2 ^ (32 * W) = 0, 2 ^ (32 * W - 1) ≤ A, false⟩ ∧
      CompletesWith (.vshr1 rd ra m) s [(rd.toNat, A / 2)] ⟨A / 2 = 0, A % 2 = 1, false⟩

/-- R417, R419: VCMP compares and VTST tests for zero and parity over `W` words; neither writes a slot. -/
def Obligations.VcmpAndVtstSetFlagsOnly : Prop :=
  ∀ (ra rb : SlotNo) (m : MSel),
    CommonRule (.vcmp ra rb m) (packWord 0x07 0 ra rb 0 m.toBit) [(ra, 1), (rb, 1)] false ∧
    CommonRule (.vtst ra m) (packWord 0x09 0 ra 0 0 m.toBit) [(ra, 1)] false ∧
    (∀ s l c, s.Ready l c [(ra, 1), (rb, 1)] false →
      let A := l.slots.get ra.toNat % 2 ^ (32 * width c m)
      let B := l.slots.get rb.toNat % 2 ^ (32 * width c m)
      CompletesWith (.vcmp ra rb m) s [] ⟨A = B, A < B, false⟩) ∧
    (∀ s l c, s.Ready l c [(ra, 1)] false →
      let A := l.slots.get ra.toNat % 2 ^ (32 * width c m)
      CompletesWith (.vtst ra m) s [] ⟨A = 0, A % 2 = 1, false⟩)

/-- R418, R420, R421: VBITLEN writes the number of bits without leading zeros, with Z for a zero operand; VSEL selects by a
condition tested over `W` words; VMOV copies all 256 bits. -/
def Obligations.VbitlenVselAndVmovWriteTheirSlot : Prop :=
  ∀ (rd ra rb rc : SlotNo) (m : MSel), let spans := [(rd, 1), (ra, 1)]
    CommonRule (.vbitlen rd ra m) (packWord 0x08 rd ra 0 0 m.toBit) spans false ∧
    CommonRule (.vsel rd ra rb rc m) (packWord 0x0A rd ra rb rc m.toBit) [(rd, 1), (ra, 1), (rb, 1), (rc, 1)] false ∧
    CommonRule (.vmov rd ra) (packWord 0x0B rd ra 0 0 0) spans false ∧
    (∀ s l c, s.Ready l c spans false →
      let A := l.slots.get ra.toNat % 2 ^ (32 * width c m)
      (∃ v, (A = 0 → v = 0) ∧ (A ≠ 0 → 1 ≤ v ∧ 2 ^ (v - 1) ≤ A ∧ A < 2 ^ v) ∧
        CompletesWith (.vbitlen rd ra m) s [(rd.toNat, v)] ⟨A = 0, false, false⟩) ∧
      CompletesWith (.vmov rd ra) s [(rd.toNat, l.slots.get ra.toNat)] ⟨l.slots.get ra.toNat = 0, false, false⟩) ∧
    (∀ s l c, s.Ready l c [(rd, 1), (ra, 1), (rb, 1), (rc, 1)] false →
      let N := 2 ^ (32 * width c m)
      (l.slots.get rc.toNat % N ≠ 0 → CompletesWith (.vsel rd ra rb rc m) s [(rd.toNat, l.slots.get ra.toNat % N)]
        ⟨l.slots.get ra.toNat % N = 0, false, false⟩) ∧
      (l.slots.get rc.toNat % N = 0 → CompletesWith (.vsel rd ra rb rc m) s [(rd.toNat, l.slots.get rb.toNat % N)]
        ⟨l.slots.get rb.toNat % N = 0, false, false⟩))

/-! ## Modular commands (41_modular.md) -/

/-- R510, R511, R512: MADD, MSUB and MMUL of operands below the modulus give the exact residue; an operand not below it, on the
whole slot, gives ERR_RANGE. -/
def Obligations.MaddMsubAndMmulGiveTheResidue : Prop :=
  ∀ (rd ra rb : SlotNo) (m : MSel), let spans := [(rd, 1), (ra, 1), (rb, 1)]
    CommonRule (.madd rd ra rb m) (packWord 0x10 rd ra rb 0 m.toBit) spans false ∧
    CommonRule (.msub rd ra rb m) (packWord 0x11 rd ra rb 0 m.toBit) spans false ∧
    CommonRule (.mmul rd ra rb m) (packWord 0x12 rd ra rb 0 m.toBit) spans false ∧
    ∀ s l c, s.Ready l c spans false →
      let M := modulus c m
      let A := l.slots.get ra.toNat
      let B := l.slots.get rb.toNat
      (A < M → B < M →
        CompletesWith (.madd rd ra rb m) s [(rd.toNat, (A + B) % M)] ⟨(A + B) % M = 0, false, false⟩ ∧
        CompletesWith (.msub rd ra rb m) s [(rd.toNat, (A + M - B) % M)] ⟨(A + M - B) % M = 0, false, false⟩ ∧
        CompletesWith (.mmul rd ra rb m) s [(rd.toNat, A * B % M)] ⟨A * B % M = 0, false, false⟩) ∧
      (M ≤ A ∨ M ≤ B → FailsWith (.madd rd ra rb m) s .range ∧ FailsWith (.msub rd ra rb m) s .range ∧
        FailsWith (.mmul rd ra rb m) s .range)

/-- R513, R517: MSQR of a reduced operand gives the exact residue of the square, else ERR_RANGE; MRED reduces any double-width
value, low half first, with no range check. -/
def Obligations.MsqrAndMredReduceExactly : Prop :=
  ∀ (rd ra : SlotNo) (m : MSel),
    CommonRule (.msqr rd ra m) (packWord 0x13 rd ra 0 0 m.toBit) [(rd, 1), (ra, 1)] false ∧
    CommonRule (.mred rd ra m) (packWord 0x16 rd ra 0 0 m.toBit) [(rd, 1), (ra, 2)] false ∧
    (∀ s l c, s.Ready l c [(rd, 1), (ra, 1)] false →
      let M := modulus c m
      let A := l.slots.get ra.toNat
      (A < M → CompletesWith (.msqr rd ra m) s [(rd.toNat, A * A % M)] ⟨A * A % M = 0, false, false⟩) ∧
      (M ≤ A → FailsWith (.msqr rd ra m) s .range)) ∧
    (∀ s l c, s.Ready l c [(rd, 1), (ra, 2)] false →
      let M := modulus c m
      let X := l.slots.get ra.toNat + 2 ^ 256 * l.slots.get (ra.toNat + 1)
      CompletesWith (.mred rd ra m) s [(rd.toNat, X % M)] ⟨X % M = 0, false, false⟩)

/-- R514: MINV of every `A` in `[1, m-1]` gives the one `b` in `[1, m-1]` with `A·b mod m = 1`, with Z = 0; `A ≥ m` gives
ERR_RANGE and `A = 0` gives ERR_NOINV. -/
def Obligations.MinvInvertsOrFails : Prop :=
  ∀ (rd ra : SlotNo) (m : MSel), let spans := [(rd, 1), (ra, 1)]
    CommonRule (.minv rd ra m) (packWord 0x14 rd ra 0 0 m.toBit) spans false ∧
    ∀ s l c, s.Ready l c spans false →
      let M := modulus c m
      let A := l.slots.get ra.toNat
      (A ≠ 0 → A < M → ∃ b, InverseOf M A b ∧ CompletesWith (.minv rd ra m) s [(rd.toNat, b)] ⟨false, false, false⟩) ∧
      (M ≤ A → FailsWith (.minv rd ra m) s .range) ∧ (A = 0 → FailsWith (.minv rd ra m) s .noInv)

/-- R515, R516: MSQRT of a quadratic residue gives the principal root: a root of `A`, `A^((p+1)/4) mod p` where `p mod 4 = 3` and
the even root where `p mod 4 = 1`; `A ≥ p` gives ERR_RANGE and a non-residue ERR_NOSQRT. -/
def Obligations.MsqrtGivesThePrincipalRootOrFails : Prop :=
  ∀ (rd ra : SlotNo), let spans := [(rd, 1), (ra, 1)]
    CommonRule (.msqrt rd ra) (packWord 0x15 rd ra 0 0 0) spans false ∧
    ∀ s l c, s.Ready l c spans false →
      let A := l.slots.get ra.toNat
      (A < c.p → QuadraticResidue c.p A → ∃ v, v < c.p ∧ v * v % c.p = A ∧
        (c.p % 4 = 3 → v = A ^ ((c.p + 1) / 4) % c.p) ∧ (c.p % 4 = 1 → v % 2 = 0) ∧
        CompletesWith (.msqrt rd ra) s [(rd.toNat, v)] ⟨A = 0, false, false⟩) ∧
      (c.p ≤ A → FailsWith (.msqrt rd ra) s .range) ∧
      (A < c.p → ¬ QuadraticResidue c.p A → FailsWith (.msqrt rd ra) s .noSqrt)

/-- R531, R532, R533, with the radix `R = 2^(32·Wm)` of R530: MTOM gives `A·R mod m`, MFROMM the `v < m` with `v·R ≡ A`, MMONT the
`v < m` with `v·R ≡ A·B`; MFROMM undoes MTOM; an operand not below `m` gives ERR_RANGE. -/
def Obligations.MontgomeryCommandsUseTheRadix : Prop :=
  ∀ (rd ra rb : SlotNo) (m : MSel),
    CommonRule (.mmont rd ra rb m) (packWord 0x17 rd ra rb 0 m.toBit) [(rd, 1), (ra, 1), (rb, 1)] false ∧
    CommonRule (.mtom rd ra m) (packWord 0x18 rd ra 0 0 m.toBit) [(rd, 1), (ra, 1)] false ∧
    CommonRule (.mfromm rd ra m) (packWord 0x19 rd ra 0 0 m.toBit) [(rd, 1), (ra, 1)] false ∧
    (∀ s l c, s.Ready l c [(rd, 1), (ra, 1), (rb, 1)] false →
      let M := modulus c m
      let A := l.slots.get ra.toNat
      let B := l.slots.get rb.toNat
      (A < M → B < M → ∃ v, v < M ∧ v * 2 ^ (32 * width c m) % M = A * B % M ∧
        CompletesWith (.mmont rd ra rb m) s [(rd.toNat, v)] ⟨v = 0, false, false⟩) ∧
      (M ≤ A ∨ M ≤ B → FailsWith (.mmont rd ra rb m) s .range)) ∧
    (∀ s l c, s.Ready l c [(rd, 1), (ra, 1)] false →
      let M := modulus c m
      let R := 2 ^ (32 * width c m)
      let A := l.slots.get ra.toNat
      (A < M → CompletesWith (.mtom rd ra m) s [(rd.toNat, A * R % M)] ⟨A * R % M = 0, false, false⟩ ∧
        ∃ v, v < M ∧ v * R % M = A ∧ CompletesWith (.mfromm rd ra m) s [(rd.toNat, v)] ⟨v = 0, false, false⟩) ∧
      (∀ a, a < M → A = a * R % M → CompletesWith (.mfromm rd ra m) s [(rd.toNat, a)] ⟨a = 0, false, false⟩) ∧
      (M ≤ A → FailsWith (.mtom rd ra m) s .range ∧ FailsWith (.mfromm rd ra m) s .range))

/-! ## Point commands (42_point.md) -/

/-- R610, R611: A2J gives `(x, y, 1)` and A2JZ `(x·z², y·z³, z)` with no curve check; `(0, 0)` gives `(1, 1, 0)` and Z = 1; a
coordinate not below `p`, or a `z` that is 0 or not below `p`, gives ERR_RANGE. -/
def Obligations.AffineToJacobianWithAndWithoutZ : Prop :=
  ∀ (rd ra rb : SlotNo),
    CommonRule (.a2j rd ra) (packWord 0x20 rd ra 0 0 0) [(rd, 3), (ra, 2)] false ∧
    CommonRule (.a2jz rd ra rb) (packWord 0x21 rd ra rb 0 0) [(rd, 3), (ra, 2), (rb, 1)] false ∧
    (∀ s l c, s.Ready l c [(rd, 3), (ra, 2)] false →
      let x := l.slots.get ra.toNat
      let y := l.slots.get (ra.toNat + 1)
      (x < c.p → y < c.p → ¬(x = 0 ∧ y = 0) → CompletesWith (.a2j rd ra) s
        [(rd.toNat, x), (rd.toNat + 1, y), (rd.toNat + 2, 1)] ⟨false, false, false⟩) ∧
      (x = 0 → y = 0 → CompletesWith (.a2j rd ra) s
        [(rd.toNat, 1), (rd.toNat + 1, 1), (rd.toNat + 2, 0)] ⟨true, false, false⟩) ∧
      (c.p ≤ x ∨ c.p ≤ y → FailsWith (.a2j rd ra) s .range)) ∧
    (∀ s l c, s.Ready l c [(rd, 3), (ra, 2), (rb, 1)] false →
      let x := l.slots.get ra.toNat
      let y := l.slots.get (ra.toNat + 1)
      let z := l.slots.get rb.toNat
      (x < c.p → y < c.p → ¬(x = 0 ∧ y = 0) → z ≠ 0 → z < c.p → CompletesWith (.a2jz rd ra rb) s
        [(rd.toNat, x * z ^ 2 % c.p), (rd.toNat + 1, y * z ^ 3 % c.p), (rd.toNat + 2, z)] ⟨false, false, false⟩) ∧
      (x = 0 → y = 0 → z ≠ 0 → z < c.p → CompletesWith (.a2jz rd ra rb) s
        [(rd.toNat, 1), (rd.toNat + 1, 1), (rd.toNat + 2, 0)] ⟨true, false, false⟩) ∧
      (c.p ≤ x ∨ c.p ≤ y ∨ z = 0 ∨ c.p ≤ z → FailsWith (.a2jz rd ra rb) s .range))

/-- R620, R601: J2A gives the reduced affine point with `x·Z² ≡ X` and `y·Z³ ≡ Y`; `Z = 0` gives `(0, 0)` with Z = 1; a coordinate
not below `p` gives ERR_RANGE. One corner of the first clause is the model's deduction: at `X = Y = 0` with `Z ≠ 0` the flag Z is
0, as R620 says, where R600 and R606 read literally give 1 (log 25). -/
def Obligations.JacobianToAffineDividesByZ : Prop :=
  ∀ (rd ra : SlotNo), let spans := [(rd, 2), (ra, 3)]
    CommonRule (.j2a rd ra) (packWord 0x22 rd ra 0 0 0) spans false ∧
    ∀ s l c, s.Ready l c spans false →
      let X := l.slots.get ra.toNat
      let Y := l.slots.get (ra.toNat + 1)
      let Zc := l.slots.get (ra.toNat + 2)
      (X < c.p → Y < c.p → Zc < c.p → Zc ≠ 0 → ∃ x y, x < c.p ∧ y < c.p ∧ x * Zc ^ 2 % c.p = X ∧ y * Zc ^ 3 % c.p = Y ∧
        CompletesWith (.j2a rd ra) s [(rd.toNat, x), (rd.toNat + 1, y)] ⟨false, false, false⟩) ∧
      (X < c.p → Y < c.p → Zc = 0 → CompletesWith (.j2a rd ra) s [(rd.toNat, 0), (rd.toNat + 1, 0)] ⟨true, false, false⟩) ∧
      (c.p ≤ X ∨ c.p ≤ Y ∨ c.p ≤ Zc → FailsWith (.j2a rd ra) s .range)

/-- R630, R604: PDBL writes exactly the triple of the doubling formulas, `(1, 1, 0)` for `Z = 0` or `Y = 0`, with no curve check;
Z = 1 exactly for `INF`; a coordinate not below `p` gives ERR_RANGE. -/
def Obligations.PdblWritesTheExactTriple : Prop :=
  ∀ (rd ra : SlotNo), let spans := [(rd, 3), (ra, 3)]
    CommonRule (.pdbl rd ra) (packWord 0x23 rd ra 0 0 0) spans false ∧
    ∀ s l c, s.Ready l c spans false →
      let J : Jac := ⟨l.slots.get ra.toNat, l.slots.get (ra.toNat + 1), l.slots.get (ra.toNat + 2)⟩
      (JacReduced c J → ∃ J', IsDouble c J J' ∧ (J'.z = 0 → J' = ⟨1, 1, 0⟩) ∧
        CompletesWith (.pdbl rd ra) s [(rd.toNat, J'.x), (rd.toNat + 1, J'.y), (rd.toNat + 2, J'.z)]
          ⟨J'.z = 0, false, false⟩) ∧
      (¬ JacReduced c J → FailsWith (.pdbl rd ra) s .range)

/-- R641, R605: JADD writes exactly the triple of the addition formulas, the other triple unchanged where one is `INF`, and
`(1, 1, 0)` for `INF`; Z = 1 exactly for `INF`; a coordinate not below `p` gives ERR_RANGE. -/
def Obligations.JaddWritesTheExactTriple : Prop :=
  ∀ (rd ra rb : SlotNo), let spans := [(rd, 3), (ra, 3), (rb, 3)]
    CommonRule (.jadd rd ra rb) (packWord 0x25 rd ra rb 0 0) spans false ∧
    ∀ s l c, s.Ready l c spans false →
      let P1 : Jac := ⟨l.slots.get ra.toNat, l.slots.get (ra.toNat + 1), l.slots.get (ra.toNat + 2)⟩
      let P2 : Jac := ⟨l.slots.get rb.toNat, l.slots.get (rb.toNat + 1), l.slots.get (rb.toNat + 2)⟩
      (JacReduced c P1 → JacReduced c P2 → ∃ J', IsSum c P1 P2 J' ∧ (J'.z = 0 → J' = ⟨1, 1, 0⟩) ∧
        CompletesWith (.jadd rd ra rb) s [(rd.toNat, J'.x), (rd.toNat + 1, J'.y), (rd.toNat + 2, J'.z)]
          ⟨J'.z = 0, false, false⟩) ∧
      (¬(JacReduced c P1 ∧ JacReduced c P2) → FailsWith (.jadd rd ra rb) s .range)

/-- R640: PADD, the unified mixed addition: `P1` unchanged for the affine `(0, 0)`, `(x2, y2, 1)` for `P1 = INF`, else the exact
triple of the addition formulas with `Z2 = 1`; `INF` is written `(1, 1, 0)` with Z = 1; a coordinate not below `p` gives
ERR_RANGE. -/
def Obligations.PaddIsTheUnifiedMixedAddition : Prop :=
  ∀ (rd ra rb : SlotNo), let spans := [(rd, 3), (ra, 3), (rb, 2)]
    CommonRule (.padd rd ra rb) (packWord 0x24 rd ra rb 0 0) spans false ∧
    ∀ s l c, s.Ready l c spans false →
      let P1 : Jac := ⟨l.slots.get ra.toNat, l.slots.get (ra.toNat + 1), l.slots.get (ra.toNat + 2)⟩
      let x2 := l.slots.get rb.toNat
      let y2 := l.slots.get (rb.toNat + 1)
      (JacReduced c P1 → x2 < c.p → y2 < c.p → ∃ J' : Jac,
        (x2 = 0 → y2 = 0 → P1.z = 0 → J' = ⟨1, 1, 0⟩) ∧ (x2 = 0 → y2 = 0 → P1.z ≠ 0 → J' = P1) ∧
        (¬(x2 = 0 ∧ y2 = 0) → P1.z = 0 → J' = ⟨x2, y2, 1⟩) ∧
        (¬(x2 = 0 ∧ y2 = 0) → P1.z ≠ 0 → IsSum c P1 ⟨x2, y2, 1⟩ J') ∧ (J'.z = 0 → J' = ⟨1, 1, 0⟩) ∧
        CompletesWith (.padd rd ra rb) s [(rd.toNat, J'.x), (rd.toNat + 1, J'.y), (rd.toNat + 2, J'.z)]
          ⟨J'.z = 0, false, false⟩) ∧
      (¬(JacReduced c P1 ∧ x2 < c.p ∧ y2 < c.p) → FailsWith (.padd rd ra rb) s .range)

/-- R650, R660, R602: PNEG gives `(x, (p - y) mod p)`, with Z for `(0, 0)`, and ERR_RANGE for a coordinate not below `p`; PCHK sets
V exactly for a valid point, with no error and no slot written. -/
def Obligations.PnegNegatesAndPchkValidates : Prop :=
  ∀ (rd ra : SlotNo),
    CommonRule (.pneg rd ra) (packWord 0x26 rd ra 0 0 0) [(rd, 2), (ra, 2)] false ∧
    CommonRule (.pchk ra) (packWord 0x27 0 ra 0 0 0) [(ra, 2)] false ∧
    (∀ s l c, s.Ready l c [(rd, 2), (ra, 2)] false →
      let x := l.slots.get ra.toNat
      let y := l.slots.get (ra.toNat + 1)
      (x < c.p → y < c.p → CompletesWith (.pneg rd ra) s [(rd.toNat, x), (rd.toNat + 1, (c.p - y) % c.p)]
        ⟨x = 0 ∧ y = 0, false, false⟩) ∧
      (c.p ≤ x ∨ c.p ≤ y → FailsWith (.pneg rd ra) s .range)) ∧
    (∀ s l c, s.Ready l c [(ra, 2)] false →
      let x := l.slots.get ra.toNat
      let y := l.slots.get (ra.toNat + 1)
      ∃ v : Bool, (v = true ↔ ¬(x = 0 ∧ y = 0) ∧ x < c.p ∧ y < c.p ∧ OnCurveEq c x y) ∧
        CompletesWith (.pchk ra) s [] ⟨false, false, v⟩)

/-- R603, R604, R605: for triples on the curve, what PDBL, JADD and PADD write denotes the sum of the points in the group law
ECADD of R14, with `INF`, equal and opposite points among them. -/
def Obligations.PointCommandsFollowTheGroupLaw : Prop :=
  ∀ (rd ra rb : SlotNo),
    (∀ s l c, s.Ready l c [(rd, 3), (ra, 3)] false →
      let J : Jac := ⟨l.slots.get ra.toNat, l.slots.get (ra.toNat + 1), l.slots.get (ra.toNat + 2)⟩
      JacOnCurve c J → ∃ (J' : Jac) (f : Flags), JacOnCurve c J' ∧
        jacToAffine c J' = ecAdd c (jacToAffine c J) (jacToAffine c J) ∧
        CompletesWith (.pdbl rd ra) s [(rd.toNat, J'.x), (rd.toNat + 1, J'.y), (rd.toNat + 2, J'.z)] f) ∧
    (∀ s l c, s.Ready l c [(rd, 3), (ra, 3), (rb, 3)] false →
      let P1 : Jac := ⟨l.slots.get ra.toNat, l.slots.get (ra.toNat + 1), l.slots.get (ra.toNat + 2)⟩
      let P2 : Jac := ⟨l.slots.get rb.toNat, l.slots.get (rb.toNat + 1), l.slots.get (rb.toNat + 2)⟩
      JacOnCurve c P1 → JacOnCurve c P2 → ∃ (J' : Jac) (f : Flags), JacOnCurve c J' ∧
        jacToAffine c J' = ecAdd c (jacToAffine c P1) (jacToAffine c P2) ∧
        CompletesWith (.jadd rd ra rb) s [(rd.toNat, J'.x), (rd.toNat + 1, J'.y), (rd.toNat + 2, J'.z)] f) ∧
    (∀ s l c, s.Ready l c [(rd, 3), (ra, 3), (rb, 2)] false →
      let P1 : Jac := ⟨l.slots.get ra.toNat, l.slots.get (ra.toNat + 1), l.slots.get (ra.toNat + 2)⟩
      let x2 := l.slots.get rb.toNat
      let y2 := l.slots.get (rb.toNat + 1)
      JacOnCurve c P1 → (x2 = 0 ∧ y2 = 0) ∨ Valid c x2 y2 → ∃ (J' : Jac) (f : Flags), JacOnCurve c J' ∧
        jacToAffine c J' = ecAdd c (jacToAffine c P1) (if x2 = 0 ∧ y2 = 0 then .inf else .affine x2 y2) ∧
        CompletesWith (.padd rd ra rb) s [(rd.toNat, J'.x), (rd.toNat + 1, J'.y), (rd.toNat + 2, J'.z)] f)

/-- R142: every valid point has order exactly `n`: `ECMUL(n, P) = INF`, `ECMUL(k, P) ≠ INF` for `1 ≤ k ≤ n - 1`, and no point has
`y = 0`. Stated of the model's `scalarMul` too, which is `ECMUL` for every scalar up to `n` (R700, log 7). -/
def Obligations.EveryValidPointHasOrderN : Prop :=
  ∀ (c : Curve) (x y : Nat), Valid c x y →
    y ≠ 0 ∧ ecMul c c.n (.affine x y) = .inf ∧
    (∀ k, 1 ≤ k → k ≤ c.n - 1 → ∃ x' y', ecMul c k (.affine x y) = .affine x' y' ∧ Valid c x' y') ∧
    (∀ k, k ≤ c.n → scalarMul c k (.affine x y) = ecMul c k (.affine x y))

/-! ## Scalar multiplication (43_scalar_mult.md) -/

/-- R701, R700: SMUL of a valid point by `1 ≤ k ≤ n - 1` gives `ECMUL(k, P)`, never `INF`; an invalid point gives ERR_POINT first,
then a bad scalar ERR_SCALAR. -/
def Obligations.SmulComputesTheMultiple : Prop :=
  ∀ (rd ra rb : SlotNo), let spans := [(rd, 2), (ra, 2), (rb, 1)]
    CommonRule (.smul rd ra rb) (packWord 0x28 rd ra rb 0 0) spans false ∧
    ∀ s l c, s.Ready l c spans false →
      let x := l.slots.get ra.toNat
      let y := l.slots.get (ra.toNat + 1)
      let k := l.slots.get rb.toNat
      (Valid c x y → k ≠ 0 → k < c.n → ∃ x' y', ecMul c k (.affine x y) = .affine x' y' ∧
        CompletesWith (.smul rd ra rb) s [(rd.toNat, x'), (rd.toNat + 1, y')] ⟨false, false, false⟩) ∧
      (¬ Valid c x y → FailsWith (.smul rd ra rb) s .point) ∧
      (Valid c x y → k = 0 ∨ c.n ≤ k → FailsWith (.smul rd ra rb) s .scalar)

/-! ## Protocol commands (44_protocol.md) -/

/-- R802: the digest scalar: the first DLEN digest bytes read big-endian, kept to their leftmost `nbits` bits, and the reduction
modulo `n` subtracts `n` at most once. -/
def Obligations.DigestScalarKeepsTheLeftmostBits : Prop :=
  ∀ (c : Curve) (l : Latch), l.dlen.toNat ≤ 32 →
    let L := l.dlen.toNat
    let e := ∑ i ∈ Finset.range L, (Digest.byte l.digest i).toNat * 256 ^ (L - 1 - i)
    let e' := if 8 * L > c.nbits then e / 2 ^ (8 * L - c.nbits) else e
    e' < 2 ^ c.nbits ∧ bits2int c l = e' % c.n ∧ (bits2int c l = e' ∨ bits2int c l + c.n = e')

/-- R810, R800, R801, R803, R931: KEYGEN gives `d` and `d·G` of the first accepted candidate, with TRIES its number; 64 rejected
tries end it with ERR_RNG; with too few answers it waits, busy, its draw outstanding. `currentTry` is 1, or the try whose draw
was outstanding; the answers come from the model's oracle list (log 3). -/
def Obligations.KeygenTakesTheFirstAcceptedCandidate : Prop :=
  ∀ (rd : SlotNo), let spans := [(rd, 3)]
    CommonRule (.keygen rd) (packWord 0x30 rd 0 0 0 0) spans false ∧
    ∀ s l c, s.Ready l c spans false →
      (∀ pre w rest, s.entropy = pre ++ .ok w :: rest → (∀ a ∈ pre, DrawRejected c a) → Accepted c w →
        s.currentTry + pre.length ≤ 64 →
        ∃ x y, ecMul c (Candidate c w) c.G = .affine x y ∧ Valid c x y ∧
          CompletesAfterTries (.keygen rd) s (s.currentTry + pre.length) rest
            [(rd.toNat, Candidate c w), (rd.toNat + 1, x), (rd.toNat + 2, y)]) ∧
      (∀ pre a rest, s.entropy = pre ++ a :: rest → (∀ b ∈ pre ++ [a], DrawRejected c b) →
        s.currentTry + pre.length = 64 → ExhaustsWith (.keygen rd) s rest .rng) ∧
      ((∀ a ∈ s.entropy, DrawRejected c a) → s.currentTry + s.entropy.length ≤ 64 →
        exec (.keygen rd) s =
          .next { s with tryCounter := s.currentTry + s.entropy.length, entPending := true, entropy := [] })

/-- R820: PUBKEY gives `d·G`, a valid point, for every `1 ≤ d ≤ n - 1`; `d = 0` or `d ≥ n` gives ERR_SCALAR. -/
def Obligations.PubkeyComputesTheKey : Prop :=
  ∀ (rd ra : SlotNo), let spans := [(rd, 2), (ra, 1)]
    CommonRule (.pubkey rd ra) (packWord 0x31 rd ra 0 0 0) spans false ∧
    ∀ s l c, s.Ready l c spans false →
      let d := l.slots.get ra.toNat
      (d ≠ 0 → d < c.n → ∃ x y, ecMul c d c.G = .affine x y ∧ Valid c x y ∧
        CompletesWith (.pubkey rd ra) s [(rd.toNat, x), (rd.toNat + 1, y)] ⟨false, false, false⟩) ∧
      (d = 0 ∨ c.n ≤ d → FailsWith (.pubkey rd ra) s .scalar)

/-- R830: ECDH gives the x-coordinate of `d·Q` for every valid `Q` and `1 ≤ d ≤ n - 1`, below `p`; an invalid `Q` gives ERR_POINT
first, then a bad `d` ERR_SCALAR. -/
def Obligations.EcdhGivesTheSharedX : Prop :=
  ∀ (rd ra rb : SlotNo), let spans := [(rd, 1), (ra, 2), (rb, 1)]
    CommonRule (.ecdh rd ra rb) (packWord 0x32 rd ra rb 0 0) spans false ∧
    ∀ s l c, s.Ready l c spans false →
      let x := l.slots.get ra.toNat
      let y := l.slots.get (ra.toNat + 1)
      let d := l.slots.get rb.toNat
      (Valid c x y → d ≠ 0 → d < c.n → ∃ x' y', ecMul c d (.affine x y) = .affine x' y' ∧ x' < c.p ∧
        CompletesWith (.ecdh rd ra rb) s [(rd.toNat, x')] ⟨false, false, false⟩) ∧
      (¬ Valid c x y → FailsWith (.ecdh rd ra rb) s .point) ∧
      (Valid c x y → d = 0 ∨ c.n ≤ d → FailsWith (.ecdh rd ra rb) s .scalar)

/-- R830: both sides of an ECDH get the same secret: ECDH(PUBKEY(dB), dA) = ECDH(PUBKEY(dA), dB). -/
def Obligations.EcdhIsSymmetric : Prop :=
  ∀ (c : Curve) (dA dB xA yA xB yB : Nat) (sA sB s1 s2 : State) lA lB l1 l2 (pd pa : SlotNo) (rd ra rb rd' ra' rb' : SlotNo),
    sA.Ready lA c [(pd, 2), (pa, 1)] false → sB.Ready lB c [(pd, 2), (pa, 1)] false →
    lA.slots.get pa.toNat = dA → lB.slots.get pa.toNat = dB →
    CompletesWith (.pubkey pd pa) sA [(pd.toNat, xA), (pd.toNat + 1, yA)] ⟨false, false, false⟩ →
    CompletesWith (.pubkey pd pa) sB [(pd.toNat, xB), (pd.toNat + 1, yB)] ⟨false, false, false⟩ →
    s1.Ready l1 c [(rd, 1), (ra, 2), (rb, 1)] false → s2.Ready l2 c [(rd', 1), (ra', 2), (rb', 1)] false →
    l1.slots.get ra.toNat = xB → l1.slots.get (ra.toNat + 1) = yB → l1.slots.get rb.toNat = dA →
    l2.slots.get ra'.toNat = xA → l2.slots.get (ra'.toNat + 1) = yA → l2.slots.get rb'.toNat = dB →
    ∃ v, CompletesWith (.ecdh rd ra rb) s1 [(rd.toNat, v)] ⟨false, false, false⟩ ∧
      CompletesWith (.ecdh rd' ra' rb') s2 [(rd'.toNat, v)] ⟨false, false, false⟩

/-- R840, R800, R801, R911: SIGN gives the signature of the first try that succeeds, with TRIES its number; a bad `d` ends it with
ERR_SCALAR before any draw. The answers come from the model's oracle list (log 3). -/
def Obligations.SignTakesTheFirstGoodNonce : Prop :=
  ∀ (rd ra : SlotNo), let spans := [(rd, 2), (ra, 1)]
    CommonRule (.sign rd ra) (packWord 0x33 rd ra 0 0 0) spans true ∧
    ∀ s l c, s.Ready l c spans true →
      let d := l.slots.get ra.toNat
      let z := bits2int c l
      (d ≠ 0 → d < c.n → ∀ pre w rest r sig, s.entropy = pre ++ .ok w :: rest → (∀ a ∈ pre, SignTryFails c d z a) →
        Accepted c w → SignatureOf c d z (Candidate c w) r sig → s.currentTry + pre.length ≤ 64 →
        CompletesAfterTries (.sign rd ra) s (s.currentTry + pre.length) rest [(rd.toNat, r), (rd.toNat + 1, sig)]) ∧
      (d = 0 ∨ c.n ≤ d → FailsWith (.sign rd ra) s .scalar)

/-- R840, R803, R931: SIGN exhausted after 64 tries ends with the class of its last try, ERR_RNG or ERR_DEGEN; with too few answers
it waits, busy, its draw outstanding (log 3). -/
def Obligations.SignExhaustionKeepsTheLastClass : Prop :=
  ∀ (rd ra : SlotNo) s l c, s.Ready l c [(rd, 2), (ra, 1)] true →
    let d := l.slots.get ra.toNat
    let z := bits2int c l
    d ≠ 0 → d < c.n →
    (∀ pre a rest, s.entropy = pre ++ a :: rest → (∀ b ∈ pre, SignTryFails c d z b) → s.currentTry + pre.length = 64 →
      (DrawRejected c a → ExhaustsWith (.sign rd ra) s rest .rng) ∧
      (∀ w, a = .ok w → Accepted c w → DegenerateNonce c d z (Candidate c w) → ExhaustsWith (.sign rd ra) s rest .degen)) ∧
    ((∀ a ∈ s.entropy, SignTryFails c d z a) → s.currentTry + s.entropy.length ≤ 64 →
      exec (.sign rd ra) s =
        .next { s with tryCounter := s.currentTry + s.entropy.length, entPending := true, entropy := [] })

/-- R845: SIGNK gives the signature for the caller's nonce, or ERR_DEGEN, and every nonce in range leads to one of the two; a bad
`d` or `k` gives ERR_SCALAR. No draw is made. -/
def Obligations.SignkSignsWithTheGivenNonce : Prop :=
  ∀ (rd ra rb : SlotNo), let spans := [(rd, 2), (ra, 1), (rb, 1)]
    CommonRule (.signk rd ra rb) (packWord 0x34 rd ra rb 0 0) spans true ∧
    ∀ s l c, s.Ready l c spans true →
      let d := l.slots.get ra.toNat
      let k := l.slots.get rb.toNat
      let z := bits2int c l
      (d ≠ 0 → d < c.n → k ≠ 0 → k < c.n →
        ((∃ r sig, SignatureOf c d z k r sig) ∨ DegenerateNonce c d z k) ∧
        (∀ r sig, SignatureOf c d z k r sig →
          CompletesWith (.signk rd ra rb) s [(rd.toNat, r), (rd.toNat + 1, sig)] ⟨false, false, false⟩) ∧
        (DegenerateNonce c d z k → FailsWith (.signk rd ra rb) s .degen)) ∧
      (d = 0 ∨ c.n ≤ d ∨ k = 0 ∨ c.n ≤ k → FailsWith (.signk rd ra rb) s .scalar)

/-- R845, R840, R800: the try at which SIGN succeeds is the first answer that fails in none of the ways of R840, its number is
TRIES (`n`, at most 64), the answers after it are left; and SIGNK with that answer's candidate as its nonce, under the same key
and digest, gives the same result, whatever block it runs on. The answers come from the model's oracle list (log 3). -/
def Obligations.SignAgreesWithSignk : Prop :=
  ∀ (c : Curve) (s1 : State) l1 (rd ra : SlotNo) n rest r sig,
    s1.Ready l1 c [(rd, 2), (ra, 1)] true → n ≤ 64 →
    CompletesAfterTries (.sign rd ra) s1 n rest [(rd.toNat, r), (rd.toNat + 1, sig)] →
    ∃ pre w, s1.entropy = pre ++ .ok w :: rest ∧ n = s1.currentTry + pre.length ∧ Accepted c w ∧
      (∀ a ∈ pre, SignTryFails c (l1.slots.get ra.toNat) (bits2int c l1) a) ∧
      ∀ (s2 : State) l2 (rd' ra' rb' : SlotNo),
        s2.Ready l2 c [(rd', 2), (ra', 1), (rb', 1)] true → l2.dlen = l1.dlen → l2.digest = l1.digest →
        l2.slots.get ra'.toNat = l1.slots.get ra.toNat → l2.slots.get rb'.toNat = Candidate c w →
        CompletesWith (.signk rd' ra' rb') s2 [(rd'.toNat, r), (rd'.toNat + 1, sig)] ⟨false, false, false⟩

/-- R850: VERIFY: an `r` or `s` outside `[1, n-1]` gives V = 0 with no error, before any point check; then an invalid `Q` gives
ERR_POINT; else V is `R' ≠ INF and R'.x mod n = r` for `R' = u1·G + u2·Q`. No slot is written. -/
def Obligations.VerifyChecksTheSignature : Prop :=
  ∀ (ra rb : SlotNo), let spans := [(ra, 2), (rb, 2)]
    CommonRule (.verify ra rb) (packWord 0x35 0 ra rb 0 0) spans true ∧
    ∀ s l c, s.Ready l c spans true →
      let x := l.slots.get ra.toNat
      let y := l.slots.get (ra.toNat + 1)
      let r := l.slots.get rb.toNat
      let sig := l.slots.get (rb.toNat + 1)
      let z := bits2int c l
      let inRange := 1 ≤ r ∧ r ≤ c.n - 1 ∧ 1 ≤ sig ∧ sig ≤ c.n - 1
      (¬ inRange → CompletesWith (.verify ra rb) s [] ⟨false, false, false⟩) ∧
      (inRange → ¬ Valid c x y → FailsWith (.verify ra rb) s .point) ∧
      (inRange → Valid c x y → ∃ w, InverseOf c.n sig w ∧
        let R' := ecAdd c (ecMul c (z * w % c.n) c.G) (ecMul c (r * w % c.n) (.affine x y))
        ∃ v : Bool, (v = true ↔ ∃ x' y', R' = .affine x' y' ∧ x' % c.n = r) ∧
          CompletesWith (.verify ra rb) s [] ⟨false, false, v⟩)

/-- R850: a signature from SIGN or SIGNK verifies under `Q = d·G` and the same digest: V = 1. -/
def Obligations.SignaturesVerify : Prop :=
  ∀ (c : Curve) (s1 s2 : State) l1 l2 (rd ra rb ra' rb' : SlotNo) (r sig x y : Nat),
    ((s1.Ready l1 c [(rd, 2), (ra, 1), (rb, 1)] true ∧
        CompletesWith (.signk rd ra rb) s1 [(rd.toNat, r), (rd.toNat + 1, sig)] ⟨false, false, false⟩) ∨
      (s1.Ready l1 c [(rd, 2), (ra, 1)] true ∧
        ∃ n rest, CompletesAfterTries (.sign rd ra) s1 n rest [(rd.toNat, r), (rd.toNat + 1, sig)])) →
    ecMul c (l1.slots.get ra.toNat) c.G = .affine x y →
    s2.Ready l2 c [(ra', 2), (rb', 2)] true → l2.dlen = l1.dlen → l2.digest = l1.digest →
    l2.slots.get ra'.toNat = x → l2.slots.get (ra'.toNat + 1) = y →
    l2.slots.get rb'.toNat = r → l2.slots.get (rb'.toNat + 1) = sig →
    CompletesWith (.verify ra' rb') s2 [] ⟨false, false, true⟩

/-- R860: COMPRESS of a valid point gives the prefix `2 + (y mod 2)` and `x`, with C the parity of `y`; an invalid point gives
ERR_POINT. -/
def Obligations.CompressKeepsXAndParity : Prop :=
  ∀ (rd ra : SlotNo), let spans := [(rd, 2), (ra, 2)]
    CommonRule (.compress rd ra) (packWord 0x36 rd ra 0 0 0) spans false ∧
    ∀ s l c, s.Ready l c spans false →
      let x := l.slots.get ra.toNat
      let y := l.slots.get (ra.toNat + 1)
      (Valid c x y → CompletesWith (.compress rd ra) s [(rd.toNat, 2 + y % 2), (rd.toNat + 1, x)]
        ⟨false, y % 2 = 1, false⟩) ∧
      (¬ Valid c x y → FailsWith (.compress rd ra) s .point)

/-- R870: DECOMPRESS gives the valid point with this `x` whose `y` has the parity of bit 0 of the prefix; `x ≥ p`, or an
`x³ + a·x + b` that is no square, gives ERR_POINT. -/
def Obligations.DecompressRecoversThePoint : Prop :=
  ∀ (rd ra : SlotNo), let spans := [(rd, 2), (ra, 2)]
    CommonRule (.decompress rd ra) (packWord 0x37 rd ra 0 0 0) spans false ∧
    ∀ s l c, s.Ready l c spans false →
      let par := l.slots.get ra.toNat % 2
      let x := l.slots.get (ra.toNat + 1)
      let α := (x ^ 3 + c.a * x + c.b) % c.p
      (c.p ≤ x → FailsWith (.decompress rd ra) s .point) ∧
      (x < c.p → ¬ QuadraticResidue c.p α → FailsWith (.decompress rd ra) s .point) ∧
      (x < c.p → QuadraticResidue c.p α → ∃ y, y < c.p ∧ y * y % c.p = α ∧ y % 2 = par ∧ Valid c x y ∧
        CompletesWith (.decompress rd ra) s [(rd.toNat, x), (rd.toNat + 1, y)] ⟨false, par = 1, false⟩)

/-- R870: DECOMPRESS(COMPRESS(Q)) = Q for every valid `Q`, on every curve. -/
def Obligations.DecompressUndoesCompress : Prop :=
  ∀ (c : Curve) (x y pre cx : Nat) (s1 s2 : State) l1 l2 (rd ra rd' ra' : SlotNo),
    Valid c x y → s1.Ready l1 c [(rd, 2), (ra, 2)] false → s2.Ready l2 c [(rd', 2), (ra', 2)] false →
    l1.slots.get ra.toNat = x → l1.slots.get (ra.toNat + 1) = y →
    CompletesWith (.compress rd ra) s1 [(rd.toNat, pre), (rd.toNat + 1, cx)] ⟨false, y % 2 = 1, false⟩ →
    l2.slots.get ra'.toNat = pre → l2.slots.get (ra'.toNat + 1) = cx →
    CompletesWith (.decompress rd' ra') s2 [(rd'.toNat, x), (rd'.toNat + 1, y)] ⟨false, y % 2 = 1, false⟩

end Statements
end

