-- ==== Sys2Proof/Laws/Arith.lean ====
section
/-! SUPPORT. What the arithmetic primitives compute: residues, bit lengths, powers and inverses, and the sizes of the curve
table's numbers. -/

namespace Sys2Proof

/-! ## Residues -/

theorem residue_lt (z : Int) {m : Nat} (hm : 0 < m) : residue z m < m := by
  have h1 := Int.emod_nonneg z (by omega : (m : Int) ≠ 0)
  have h2 := Int.emod_lt_of_pos z (by exact_mod_cast hm : (0 : Int) < m)
  unfold residue
  omega

theorem residue_coe (z : Int) {m : Nat} (hm : 0 < m) : ((residue z m : Nat) : Int) = z % m := by
  have h1 := Int.emod_nonneg z (by omega : (m : Int) ≠ 0)
  unfold residue
  omega

/-- In `ZMod m` a residue is the integer it came from. -/
theorem residue_cast (z : Int) {m : Nat} (hm : 0 < m) : ((residue z m : Nat) : ZMod m) = (z : ZMod m) := by
  have h : (((residue z m : Nat) : Int) : ZMod m) = ((z % m : Int) : ZMod m) := by rw [residue_coe z hm]
  simpa using h

theorem residue_natCast (a m : Nat) : residue (a : Int) m = a % m := by
  unfold residue
  omega

/-! ## Bit lengths (R13) -/

theorem lt_two_pow_bitlen (v : Nat) : v < 2 ^ bitlen v := by
  unfold bitlen
  split
  · omega
  · exact Nat.lt_log2_self

theorem bitlen_le_of_lt {v k : Nat} (h : v < 2 ^ k) : bitlen v ≤ k := by
  unfold bitlen
  split
  · omega
  · rename_i hv
    exact (Nat.log2_lt hv).2 h

/-! ## Powers -/

theorem powModAux_eq (m : Nat) : ∀ (fuel b e acc : Nat), e < 2 ^ fuel → acc % m = acc →
    powModAux m fuel b e acc = acc * b ^ e % m := by
  intro fuel
  induction fuel with
  | zero =>
    intro b e acc he ha
    have : e = 0 := by simpa using he
    subst this
    simpa [powModAux] using ha.symm
  | succ fuel ih =>
    intro b e acc he ha
    have he2 : e / 2 < 2 ^ fuel := by
      rw [pow_succ] at he
      omega
    unfold powModAux
    rw [ih _ _ _ he2 (by split <;> simp_all)]
    have hb : (b * b % m) ^ (e / 2) ≡ b ^ (2 * (e / 2)) [MOD m] := by
      rw [pow_mul, pow_two]
      exact (Nat.mod_modEq _ _).pow _
    by_cases ho : e % 2 = 1
    · rw [if_pos ho]
      have he' : e = 2 * (e / 2) + 1 := by omega
      calc acc * b % m * (b * b % m) ^ (e / 2) % m = acc * b * b ^ (2 * (e / 2)) % m :=
            Nat.ModEq.mul (Nat.mod_modEq _ _) hb
        _ = acc * b ^ e % m := by
            conv_rhs => rw [he', pow_succ]
            ring_nf
    · rw [if_neg ho]
      have he' : e = 2 * (e / 2) := by omega
      calc acc * (b * b % m) ^ (e / 2) % m = acc * b ^ (2 * (e / 2)) % m := Nat.ModEq.mul_left _ hb
        _ = acc * b ^ e % m := by rw [← he']

/-- `powMod` is the power. -/
theorem powMod_eq (a e m : Nat) : powMod a e m = a ^ e % m := by
  unfold powMod
  rw [powModAux_eq m _ _ _ _ (lt_two_pow_bitlen e) (Nat.mod_mod _ _)]
  exact Nat.ModEq.trans (Nat.ModEq.mul (Nat.mod_modEq _ _) ((Nat.mod_modEq _ _).pow _)) (by rw [one_mul])

theorem powMod_lt (a e : Nat) {m : Nat} (hm : 0 < m) : powMod a e m < m := by
  rw [powMod_eq]
  exact Nat.mod_lt _ hm

theorem powMod_cast (a e m : Nat) : ((powMod a e m : Nat) : ZMod m) = (a : ZMod m) ^ e := by
  rw [powMod_eq, ZMod.natCast_mod, Nat.cast_pow]

/-! ## Inverses -/

/-- The coefficient that the extended Euclidean algorithm ends with. -/
theorem euclidCoeff_spec (m : Nat) (a : ZMod m) : ∀ (fuel r0 r1 : Nat) (s0 s1 : Int), r1 < r0 → r0 * r1 < 2 ^ fuel →
    (r0 : ZMod m) = s0 * a → (r1 : ZMod m) = s1 * a →
    ((Nat.gcd r0 r1 : Nat) : ZMod m) = (euclidCoeff fuel r0 r1 s0 s1 : Int) * a := by
  intro fuel
  induction fuel with
  | zero =>
    intro r0 r1 s0 s1 hlt hp h0 _
    have hz : r1 = 0 := by
      rcases Nat.eq_zero_or_pos r1 with h | h
      · exact h
      · have : 1 ≤ r0 * r1 := Nat.mul_pos (by omega) h
        omega
    subst hz
    simpa [euclidCoeff] using h0
  | succ fuel ih =>
    intro r0 r1 s0 s1 hlt hp h0 h1
    unfold euclidCoeff
    by_cases hz : r1 = 0
    · subst hz
      simpa using h0
    · rw [if_neg hz]
      have hr1 : 0 < r1 := Nat.pos_of_ne_zero hz
      have hmod : r0 % r1 < r1 := Nat.mod_lt _ hr1
      have hdiv : r1 * (r0 / r1) + r0 % r1 = r0 := Nat.div_add_mod r0 r1
      have hq : 1 ≤ r0 / r1 := (Nat.one_le_div_iff hr1).2 (by omega)
      have hge : r1 + r0 % r1 ≤ r0 := by nlinarith
      have hprod : r1 * (r0 % r1) < 2 ^ fuel := by
        rw [pow_succ] at hp
        have : r1 * (2 * (r0 % r1)) ≤ r1 * r0 := Nat.mul_le_mul_left _ (by omega)
        nlinarith
      rw [Nat.gcd_comm r0 r1, Nat.gcd_rec r1 r0, Nat.gcd_comm (r0 % r1) r1]
      refine ih r1 (r0 % r1) s1 _ hmod hprod h1 ?_
      have hcast : (r0 : ZMod m) = r1 * ((r0 / r1 : Nat) : ZMod m) + ((r0 % r1 : Nat) : ZMod m) := by
        rw [← Nat.cast_mul, ← Nat.cast_add, hdiv]
      have : ((r0 % r1 : Nat) : ZMod m) = r0 - r1 * ((r0 / r1 : Nat) : ZMod m) := by rw [hcast]; ring
      rw [this, h0, h1]
      rw [Int.cast_sub, Int.cast_mul, Int.cast_natCast]
      ring

theorem invMod_lt (a : Nat) {m : Nat} (hm : 0 < m) : invMod a m < m := residue_lt _ hm

/-- `a·inv_m(a) = 1` in `ZMod m` when `gcd(a, m) = 1` (R13). -/
theorem invMod_cast {a m : Nat} (hm : 0 < m) (h : Nat.Coprime a m) : (a : ZMod m) * (invMod a m : Nat) = 1 := by
  have hlt : a % m < m := Nat.mod_lt _ hm
  have hprod : m * (a % m) < 2 ^ (2 * bitlen m + 2) := by
    have hb := lt_two_pow_bitlen m
    calc m * (a % m) ≤ m * m := Nat.mul_le_mul_left _ (by omega)
      _ < 2 ^ bitlen m * 2 ^ bitlen m := Nat.mul_lt_mul'' hb hb
      _ = 2 ^ (2 * bitlen m) := by rw [← pow_add]; ring_nf
      _ ≤ 2 ^ (2 * bitlen m + 2) := Nat.pow_le_pow_right (by omega) (by omega)
  have key := euclidCoeff_spec m (a : ZMod m) _ m (a % m) 0 1 hlt hprod (by simp) (by simp)
  have hg : Nat.gcd m (a % m) = 1 := by
    rw [Nat.gcd_comm, ← Nat.gcd_rec, Nat.gcd_comm]
    exact h
  rw [hg, Nat.cast_one] at key
  unfold invMod
  rw [residue_cast _ hm, mul_comm]
  exact key.symm

/-- `a·inv_m(a) mod m = 1` when `gcd(a, m) = 1` and `m > 1` (R13). -/
theorem mul_invMod_mod {a m : Nat} (hm : 1 < m) (h : Nat.Coprime a m) : a * invMod a m % m = 1 := by
  have hc := invMod_cast (by omega) h
  have : ((a * invMod a m : Nat) : ZMod m) = ((1 : Nat) : ZMod m) := by push_cast; exact hc
  have := (ZMod.natCast_eq_natCast_iff _ _ _).1 this
  rw [Nat.ModEq, Nat.mod_eq_of_lt hm] at this
  exact this

/-! ## Sizes of the curve table (R10, R140) -/

theorem Curve.one_lt_p (c : Curve) : 1 < c.p := by cases c <;> decide
theorem Curve.one_lt_n (c : Curve) : 1 < c.n := by cases c <;> decide
theorem Curve.p_pos (c : Curve) : 0 < c.p := by cases c <;> decide
theorem Curve.n_pos (c : Curve) : 0 < c.n := by cases c <;> decide
theorem Curve.p_lt (c : Curve) : c.p < 2 ^ 256 := by cases c <;> decide
theorem Curve.n_lt (c : Curve) : c.n < 2 ^ 256 := by cases c <;> decide
theorem Curve.n_lt_nbits (c : Curve) : c.n < 2 ^ c.nbits := lt_two_pow_bitlen _
theorem Curve.wp_le (c : Curve) : c.wp ≤ 8 := by cases c <;> decide
theorem Curve.wn_le (c : Curve) : c.wn ≤ 8 := by cases c <;> decide

theorem truncW_lt (W v : Nat) : truncW W v < 2 ^ (32 * W) := Nat.mod_lt _ (by positivity)

theorem pow_width_le {W : Nat} (h : W ≤ 8) : 2 ^ (32 * W) ≤ 2 ^ 256 := Nat.pow_le_pow_right (by omega) (by omega)

end Sys2Proof
end

