-- ==== Sys2Proof/Laws/State.lean ====
section
/-! SUPPORT. One simp lemma per field for each update of the state, true by rfl: no later proof unfolds a record update. -/

namespace Sys2Proof.Machine

variable (s : State)

/-! ## `State.complete` -/

@[simp] theorem State.complete_slots (ws : List (Nat × Nat)) (f : Flags) (n : Nat) : (s.complete ws f n).slots = s.slots.putAll ws := rfl
@[simp] theorem State.complete_ctrlCurve (ws : List (Nat × Nat)) (f : Flags) (n : Nat) : (s.complete ws f n).ctrlCurve = s.ctrlCurve := rfl
@[simp] theorem State.complete_ctrlIe (ws : List (Nat × Nat)) (f : Flags) (n : Nat) : (s.complete ws f n).ctrlIe = s.ctrlIe := rfl
@[simp] theorem State.complete_cmd (ws : List (Nat × Nat)) (f : Flags) (n : Nat) : (s.complete ws f n).cmd = s.cmd := rfl
@[simp] theorem State.complete_done (ws : List (Nat × Nat)) (f : Flags) (n : Nat) : (s.complete ws f n).done = true := rfl
@[simp] theorem State.complete_flags (ws : List (Nat × Nat)) (f : Flags) (n : Nat) : (s.complete ws f n).flags = f := rfl
@[simp] theorem State.complete_accerr (ws : List (Nat × Nat)) (f : Flags) (n : Nat) : (s.complete ws f n).accerr = s.accerr := rfl
@[simp] theorem State.complete_err (ws : List (Nat × Nat)) (f : Flags) (n : Nat) : (s.complete ws f n).err = .ok := rfl
@[simp] theorem State.complete_tries (ws : List (Nat × Nat)) (f : Flags) (n : Nat) : (s.complete ws f n).tries = BitVec.ofNat 8 n := rfl
@[simp] theorem State.complete_dlen (ws : List (Nat × Nat)) (f : Flags) (n : Nat) : (s.complete ws f n).dlen = s.dlen := rfl
@[simp] theorem State.complete_digest (ws : List (Nat × Nat)) (f : Flags) (n : Nat) : (s.complete ws f n).digest = s.digest := rfl
@[simp] theorem State.complete_eng (ws : List (Nat × Nat)) (f : Flags) (n : Nat) : (s.complete ws f n).eng = .idle := rfl
@[simp] theorem State.complete_tryCounter (ws : List (Nat × Nat)) (f : Flags) (n : Nat) : (s.complete ws f n).tryCounter = 0 := rfl
@[simp] theorem State.complete_entPending (ws : List (Nat × Nat)) (f : Flags) (n : Nat) : (s.complete ws f n).entPending = false := rfl
@[simp] theorem State.complete_inputs (ws : List (Nat × Nat)) (f : Flags) (n : Nat) : (s.complete ws f n).inputs = s.inputs := rfl
@[simp] theorem State.complete_entropy (ws : List (Nat × Nat)) (f : Flags) (n : Nat) : (s.complete ws f n).entropy = s.entropy := rfl
@[simp] theorem State.complete_resp (ws : List (Nat × Nat)) (f : Flags) (n : Nat) : (s.complete ws f n).resp = s.resp := rfl

/-! ## `State.fail` -/

@[simp] theorem State.fail_slots (e : ErrCode) (n : Nat) : (s.fail e n).slots = s.slots := rfl
@[simp] theorem State.fail_ctrlCurve (e : ErrCode) (n : Nat) : (s.fail e n).ctrlCurve = s.ctrlCurve := rfl
@[simp] theorem State.fail_ctrlIe (e : ErrCode) (n : Nat) : (s.fail e n).ctrlIe = s.ctrlIe := rfl
@[simp] theorem State.fail_cmd (e : ErrCode) (n : Nat) : (s.fail e n).cmd = s.cmd := rfl
@[simp] theorem State.fail_done (e : ErrCode) (n : Nat) : (s.fail e n).done = true := rfl
@[simp] theorem State.fail_flags (e : ErrCode) (n : Nat) : (s.fail e n).flags = Flags.clear := rfl
@[simp] theorem State.fail_accerr (e : ErrCode) (n : Nat) : (s.fail e n).accerr = s.accerr := rfl
@[simp] theorem State.fail_err (e : ErrCode) (n : Nat) : (s.fail e n).err = e := rfl
@[simp] theorem State.fail_tries (e : ErrCode) (n : Nat) : (s.fail e n).tries = BitVec.ofNat 8 n := rfl
@[simp] theorem State.fail_dlen (e : ErrCode) (n : Nat) : (s.fail e n).dlen = s.dlen := rfl
@[simp] theorem State.fail_digest (e : ErrCode) (n : Nat) : (s.fail e n).digest = s.digest := rfl
@[simp] theorem State.fail_eng (e : ErrCode) (n : Nat) : (s.fail e n).eng = .idle := rfl
@[simp] theorem State.fail_tryCounter (e : ErrCode) (n : Nat) : (s.fail e n).tryCounter = 0 := rfl
@[simp] theorem State.fail_entPending (e : ErrCode) (n : Nat) : (s.fail e n).entPending = false := rfl
@[simp] theorem State.fail_inputs (e : ErrCode) (n : Nat) : (s.fail e n).inputs = s.inputs := rfl
@[simp] theorem State.fail_entropy (e : ErrCode) (n : Nat) : (s.fail e n).entropy = s.entropy := rfl
@[simp] theorem State.fail_resp (e : ErrCode) (n : Nat) : (s.fail e n).resp = s.resp := rfl

/-! ## `State.issue` -/

@[simp] theorem State.issue_slots (w : Word) : (s.issue w).slots = s.slots := rfl
@[simp] theorem State.issue_ctrlCurve (w : Word) : (s.issue w).ctrlCurve = s.ctrlCurve := rfl
@[simp] theorem State.issue_ctrlIe (w : Word) : (s.issue w).ctrlIe = s.ctrlIe := rfl
@[simp] theorem State.issue_cmd (w : Word) : (s.issue w).cmd = w := rfl
@[simp] theorem State.issue_done (w : Word) : (s.issue w).done = false := rfl
@[simp] theorem State.issue_flags (w : Word) : (s.issue w).flags = Flags.clear := rfl
@[simp] theorem State.issue_accerr (w : Word) : (s.issue w).accerr = s.accerr := rfl
@[simp] theorem State.issue_err (w : Word) : (s.issue w).err = .ok := rfl
@[simp] theorem State.issue_tries (w : Word) : (s.issue w).tries = 0 := rfl
@[simp] theorem State.issue_dlen (w : Word) : (s.issue w).dlen = s.dlen := rfl
@[simp] theorem State.issue_digest (w : Word) : (s.issue w).digest = s.digest := rfl
@[simp] theorem State.issue_eng (w : Word) : (s.issue w).eng = .busy (s.latchFor w) := rfl
@[simp] theorem State.issue_tryCounter (w : Word) : (s.issue w).tryCounter = 0 := rfl
@[simp] theorem State.issue_entPending (w : Word) : (s.issue w).entPending = false := rfl
@[simp] theorem State.issue_inputs (w : Word) : (s.issue w).inputs = s.inputs := rfl
@[simp] theorem State.issue_entropy (w : Word) : (s.issue w).entropy = s.entropy := rfl
@[simp] theorem State.issue_resp (w : Word) : (s.issue w).resp = s.resp := rfl

/-! ## `State.waitForDraw` -/

@[simp] theorem State.waitForDraw_slots (t : Nat) : (s.waitForDraw t).slots = s.slots := rfl
@[simp] theorem State.waitForDraw_ctrlCurve (t : Nat) : (s.waitForDraw t).ctrlCurve = s.ctrlCurve := rfl
@[simp] theorem State.waitForDraw_ctrlIe (t : Nat) : (s.waitForDraw t).ctrlIe = s.ctrlIe := rfl
@[simp] theorem State.waitForDraw_cmd (t : Nat) : (s.waitForDraw t).cmd = s.cmd := rfl
@[simp] theorem State.waitForDraw_done (t : Nat) : (s.waitForDraw t).done = s.done := rfl
@[simp] theorem State.waitForDraw_flags (t : Nat) : (s.waitForDraw t).flags = s.flags := rfl
@[simp] theorem State.waitForDraw_accerr (t : Nat) : (s.waitForDraw t).accerr = s.accerr := rfl
@[simp] theorem State.waitForDraw_err (t : Nat) : (s.waitForDraw t).err = s.err := rfl
@[simp] theorem State.waitForDraw_tries (t : Nat) : (s.waitForDraw t).tries = s.tries := rfl
@[simp] theorem State.waitForDraw_dlen (t : Nat) : (s.waitForDraw t).dlen = s.dlen := rfl
@[simp] theorem State.waitForDraw_digest (t : Nat) : (s.waitForDraw t).digest = s.digest := rfl
@[simp] theorem State.waitForDraw_eng (t : Nat) : (s.waitForDraw t).eng = .busy s.latched := rfl
@[simp] theorem State.waitForDraw_tryCounter (t : Nat) : (s.waitForDraw t).tryCounter = t := rfl
@[simp] theorem State.waitForDraw_entPending (t : Nat) : (s.waitForDraw t).entPending = true := rfl
@[simp] theorem State.waitForDraw_inputs (t : Nat) : (s.waitForDraw t).inputs = s.inputs := rfl
@[simp] theorem State.waitForDraw_entropy (t : Nat) : (s.waitForDraw t).entropy = [] := rfl
@[simp] theorem State.waitForDraw_resp (t : Nat) : (s.waitForDraw t).resp = s.resp := rfl

/-! ## `State.advance` -/

@[simp] theorem State.advance_slots : s.advance.slots = s.slots := rfl
@[simp] theorem State.advance_ctrlCurve : s.advance.ctrlCurve = s.ctrlCurve := rfl
@[simp] theorem State.advance_ctrlIe : s.advance.ctrlIe = s.ctrlIe := rfl
@[simp] theorem State.advance_cmd : s.advance.cmd = s.cmd := rfl
@[simp] theorem State.advance_done : s.advance.done = s.done := rfl
@[simp] theorem State.advance_flags : s.advance.flags = s.flags := rfl
@[simp] theorem State.advance_accerr : s.advance.accerr = s.accerr := rfl
@[simp] theorem State.advance_err : s.advance.err = s.err := rfl
@[simp] theorem State.advance_tries : s.advance.tries = s.tries := rfl
@[simp] theorem State.advance_dlen : s.advance.dlen = s.dlen := rfl
@[simp] theorem State.advance_digest : s.advance.digest = s.digest := rfl
@[simp] theorem State.advance_eng : s.advance.eng = s.eng := rfl
@[simp] theorem State.advance_tryCounter : s.advance.tryCounter = s.tryCounter := rfl
@[simp] theorem State.advance_entPending : s.advance.entPending = s.entPending := rfl
@[simp] theorem State.advance_inputs : s.advance.inputs = s.inputs.tail := rfl
@[simp] theorem State.advance_entropy : s.advance.entropy = s.entropy := rfl
@[simp] theorem State.advance_resp : s.advance.resp = none := rfl

/-! ## `State.resetInput` -/

@[simp] theorem State.resetInput_slots : s.resetInput.slots = Vector.replicate 32 0 := rfl
@[simp] theorem State.resetInput_ctrlCurve : s.resetInput.ctrlCurve = 0 := rfl
@[simp] theorem State.resetInput_ctrlIe : s.resetInput.ctrlIe = false := rfl
@[simp] theorem State.resetInput_cmd : s.resetInput.cmd = 0 := rfl
@[simp] theorem State.resetInput_done : s.resetInput.done = false := rfl
@[simp] theorem State.resetInput_flags : s.resetInput.flags = Flags.clear := rfl
@[simp] theorem State.resetInput_accerr : s.resetInput.accerr = false := rfl
@[simp] theorem State.resetInput_err : s.resetInput.err = .ok := rfl
@[simp] theorem State.resetInput_tries : s.resetInput.tries = 0 := rfl
@[simp] theorem State.resetInput_dlen : s.resetInput.dlen = 0 := rfl
@[simp] theorem State.resetInput_digest : s.resetInput.digest = Vector.replicate 8 0 := rfl
@[simp] theorem State.resetInput_eng : s.resetInput.eng = .idle := rfl
@[simp] theorem State.resetInput_tryCounter : s.resetInput.tryCounter = 0 := rfl
@[simp] theorem State.resetInput_entPending : s.resetInput.entPending = false := rfl
@[simp] theorem State.resetInput_inputs : s.resetInput.inputs = s.inputs := rfl
@[simp] theorem State.resetInput_entropy : s.resetInput.entropy = s.answersAfterReset := rfl
@[simp] theorem State.resetInput_resp : s.resetInput.resp = none := rfl

/-- The answer to the abandoned draw is dropped (R1001). -/
theorem State.answersAfterReset_of_pending (h : s.entPending = true) : s.answersAfterReset = s.entropy.tail := by
  simp [State.answersAfterReset, h]

/-- With no draw outstanding a reset abandons no answer. -/
theorem State.answersAfterReset_of_not_pending (h : s.entPending = false) : s.answersAfterReset = s.entropy := by
  simp [State.answersAfterReset, h]

/-! ## `State.refuseWrite` -/

@[simp] theorem State.refuseWrite_slots : s.refuseWrite.slots = s.slots := rfl
@[simp] theorem State.refuseWrite_ctrlCurve : s.refuseWrite.ctrlCurve = s.ctrlCurve := rfl
@[simp] theorem State.refuseWrite_ctrlIe : s.refuseWrite.ctrlIe = s.ctrlIe := rfl
@[simp] theorem State.refuseWrite_cmd : s.refuseWrite.cmd = s.cmd := rfl
@[simp] theorem State.refuseWrite_done : s.refuseWrite.done = s.done := rfl
@[simp] theorem State.refuseWrite_flags : s.refuseWrite.flags = s.flags := rfl
@[simp] theorem State.refuseWrite_accerr : s.refuseWrite.accerr = true := rfl
@[simp] theorem State.refuseWrite_err : s.refuseWrite.err = s.err := rfl
@[simp] theorem State.refuseWrite_tries : s.refuseWrite.tries = s.tries := rfl
@[simp] theorem State.refuseWrite_dlen : s.refuseWrite.dlen = s.dlen := rfl
@[simp] theorem State.refuseWrite_digest : s.refuseWrite.digest = s.digest := rfl
@[simp] theorem State.refuseWrite_eng : s.refuseWrite.eng = s.eng := rfl
@[simp] theorem State.refuseWrite_tryCounter : s.refuseWrite.tryCounter = s.tryCounter := rfl
@[simp] theorem State.refuseWrite_entPending : s.refuseWrite.entPending = s.entPending := rfl
@[simp] theorem State.refuseWrite_inputs : s.refuseWrite.inputs = s.inputs := rfl
@[simp] theorem State.refuseWrite_entropy : s.refuseWrite.entropy = s.entropy := rfl
@[simp] theorem State.refuseWrite_resp : s.refuseWrite.resp = s.resp := rfl

/-! ## `State.writeStatus` -/

@[simp] theorem State.writeStatus_slots (v : Word) : (s.writeStatus v).slots = s.slots := rfl
@[simp] theorem State.writeStatus_ctrlCurve (v : Word) : (s.writeStatus v).ctrlCurve = s.ctrlCurve := rfl
@[simp] theorem State.writeStatus_ctrlIe (v : Word) : (s.writeStatus v).ctrlIe = s.ctrlIe := rfl
@[simp] theorem State.writeStatus_cmd (v : Word) : (s.writeStatus v).cmd = s.cmd := rfl
@[simp] theorem State.writeStatus_done (v : Word) : (s.writeStatus v).done = (s.done && !v.getLsbD 1) := rfl
@[simp] theorem State.writeStatus_flags (v : Word) : (s.writeStatus v).flags = s.flags := rfl
@[simp] theorem State.writeStatus_accerr (v : Word) : (s.writeStatus v).accerr = (s.accerr && !v.getLsbD 5) := rfl
@[simp] theorem State.writeStatus_err (v : Word) : (s.writeStatus v).err = s.err := rfl
@[simp] theorem State.writeStatus_tries (v : Word) : (s.writeStatus v).tries = s.tries := rfl
@[simp] theorem State.writeStatus_dlen (v : Word) : (s.writeStatus v).dlen = s.dlen := rfl
@[simp] theorem State.writeStatus_digest (v : Word) : (s.writeStatus v).digest = s.digest := rfl
@[simp] theorem State.writeStatus_eng (v : Word) : (s.writeStatus v).eng = s.eng := rfl
@[simp] theorem State.writeStatus_tryCounter (v : Word) : (s.writeStatus v).tryCounter = s.tryCounter := rfl
@[simp] theorem State.writeStatus_entPending (v : Word) : (s.writeStatus v).entPending = s.entPending := rfl
@[simp] theorem State.writeStatus_inputs (v : Word) : (s.writeStatus v).inputs = s.inputs := rfl
@[simp] theorem State.writeStatus_entropy (v : Word) : (s.writeStatus v).entropy = s.entropy := rfl
@[simp] theorem State.writeStatus_resp (v : Word) : (s.writeStatus v).resp = s.resp := rfl

/-! ## Views -/

@[simp] theorem State.latched_of_busy (l : Latch) (h : s.eng = .busy l) : s.latched = l := by
  simp [State.latched, h]

@[simp] theorem State.busy_of_busy (l : Latch) (h : s.eng = .busy l) : s.busy = true := by
  simp [State.busy, h]

@[simp] theorem State.busy_of_idle (h : s.eng = .idle) : s.busy = false := by
  simp [State.busy, h]

theorem State.latched_advance : s.advance.latched = s.latched := rfl

end Sys2Proof.Machine
end

