-- ==== Sys2Proof/Laws/Ops.lean ====
section
/-! SUPPORT. What the shared operations can do, said once: slot writes, the common checks, a command without draws, the
retry loop, and the operations on the register window. -/

namespace Sys2Proof.Machine

/-! ## Slots -/

theorem Slots.get_lt (x : Slots) (k : Nat) : x.get k < 2 ^ 256 := (x[k]?.getD 0).isLt

theorem Slots.get_put_same (x : Slots) (k v : Nat) (hk : k < 32) (hv : v < 2 ^ 256) : (x.put k v).get k = v := by
  simpa [Slots.get, Slots.put, hk] using hv

theorem Slots.get_put_other (x : Slots) (k j v : Nat) (h : j ≠ k) : (x.put k v).get j = x.get j := by
  simp [Slots.get, Slots.put, h.symm]

@[simp] theorem Slots.putAll_nil (x : Slots) : x.putAll [] = x := rfl

@[simp] theorem Slots.putAll_cons (x : Slots) (w : Nat × Nat) (ws : List (Nat × Nat)) :
    x.putAll (w :: ws) = (x.put w.1 w.2).putAll ws := rfl

theorem Slots.get_putAll_other (ws : List (Nat × Nat)) : ∀ (x : Slots) (k : Nat), k ∉ ws.map Prod.fst →
    (x.putAll ws).get k = x.get k := by
  induction ws with
  | nil => intro x k _; rfl
  | cons w ws ih =>
    intro x k hk
    simp only [List.map_cons, List.mem_cons, not_or] at hk
    rw [Slots.putAll_cons, ih _ _ hk.2, Slots.get_put_other _ _ _ _ hk.1]

/-- Distinct slots below 32 read back what was written, if it fits 256 bits. -/
theorem Slots.get_putAll_of_mem (ws : List (Nat × Nat)) : ∀ (x : Slots), (ws.map Prod.fst).Nodup →
    (∀ w ∈ ws, w.1 < 32 ∧ w.2 < 2 ^ 256) → ∀ w ∈ ws, (x.putAll ws).get w.1 = w.2 := by
  induction ws with
  | nil => intro x _ _ w hw; cases hw
  | cons a ws ih =>
    intro x hnd hb w hw
    simp only [List.map_cons, List.nodup_cons] at hnd
    rcases List.mem_cons.1 hw with rfl | hw
    · rw [Slots.putAll_cons, Slots.get_putAll_other _ _ _ hnd.1]
      exact Slots.get_put_same _ _ _ (hb _ List.mem_cons_self).1 (hb _ List.mem_cons_self).2
    · rw [Slots.putAll_cons]
      exact ih _ hnd.2 (fun v hv => hb v (List.mem_cons_of_mem _ hv)) w hw

/-- The slot writes of a completion, as `SlotsWritten` says them. -/
theorem slotsWritten_complete (s : State) (ws : List (Nat × Nat)) (f : Flags) (n : Nat)
    (hnd : (ws.map Prod.fst).Nodup) (hb : ∀ w ∈ ws, w.1 < 32 ∧ w.2 < 2 ^ 256) :
    SlotsWritten s (s.complete ws f n) ws :=
  ⟨fun w hw => Slots.get_putAll_of_mem ws s.slots hnd hb w hw, fun k hk => Slots.get_putAll_other ws s.slots k hk⟩

theorem spanFits_iff (f : SlotNo) (k : Nat) : spanFits f k = true ↔ f.toNat + k ≤ 32 := by
  simp [spanFits]

/-! ## The common checks -/

theorem commonChecks_curve (l : Latch) (spans : List (SlotNo × Nat)) (u : Bool) (h : Curve.ofId l.curve = none) :
    commonChecks l spans u = .error .curve := by
  simp [commonChecks, h]

theorem commonChecks_operand (l : Latch) (spans : List (SlotNo × Nat)) (u : Bool) (c : Curve)
    (h : Curve.ofId l.curve = some c) (ho : operandError l spans u = true) :
    commonChecks l spans u = .error .operand := by
  simp [commonChecks, h, ho]

theorem commonChecks_ok (l : Latch) (spans : List (SlotNo × Nat)) (u : Bool) (c : Curve)
    (h : Curve.ofId l.curve = some c) (ho : operandError l spans u = false) :
    commonChecks l spans u = .ok c := by
  simp [commonChecks, h, ho]

theorem operandError_plain (l : Latch) (spans : List (SlotNo × Nat)) :
    operandError l spans false = !(spans.all fun fk => spanFits fk.1 fk.2) := by
  simp [operandError]

/-! ## A command that makes no draw -/

/-- Everything a command without draws can do. -/
theorem runCommand_cases (spans : List (SlotNo × Nat)) (u : Bool) (body : Latch → Curve → CmdResult) (s : State) :
    (Curve.ofId s.latched.curve = none ∧ runCommand spans u body s = .next (s.fail .curve 0)) ∨
    ∃ c, Curve.ofId s.latched.curve = some c ∧
      ((operandError s.latched spans u = true ∧ runCommand spans u body s = .next (s.fail .operand 0)) ∨
       (operandError s.latched spans u = false ∧ runCommand spans u body s = .next (s.finish (body s.latched c)))) := by
  cases h : Curve.ofId s.latched.curve with
  | none => exact .inl ⟨rfl, by simp [runCommand, commonChecks_curve _ _ _ h]⟩
  | some c =>
    refine .inr ⟨c, rfl, ?_⟩
    cases ho : operandError s.latched spans u with
    | true => exact .inl ⟨rfl, by simp [runCommand, commonChecks_operand _ _ _ _ h ho]⟩
    | false => exact .inr ⟨rfl, by simp [runCommand, commonChecks_ok _ _ _ _ h ho]⟩

/-- A running command whose checks pass completes with what its pseudocode gives. -/
theorem runCommand_running {s : State} {l : Latch} {c : Curve} (h : s.Running l c) {spans : List (SlotNo × Nat)} {u : Bool}
    (ho : operandError l spans u = false) (body : Latch → Curve → CmdResult) :
    runCommand spans u body s = .next (s.finish (body l c)) := by
  have hl := State.latched_of_busy s l h.1
  simp [runCommand, hl, commonChecks_ok l spans u c h.2 ho]

/-- What `finish` leaves unchanged. -/
theorem sameSetup_finish (s : State) (r : CmdResult) : SameSetup s (s.finish r) := by
  cases r <;> exact ⟨rfl, rfl, rfl, rfl, rfl, rfl, rfl, rfl⟩

theorem engineDone_finish (s : State) (r : CmdResult) : EngineDone (s.finish r) := by
  cases r <;> exact ⟨rfl, rfl, rfl, rfl⟩

theorem sameSetup_fail (s : State) (e : ErrCode) (n : Nat) : SameSetup s (s.fail e n) :=
  ⟨rfl, rfl, rfl, rfl, rfl, rfl, rfl, rfl⟩

theorem engineDone_fail (s : State) (e : ErrCode) (n : Nat) : EngineDone (s.fail e n) := ⟨rfl, rfl, rfl, rfl⟩

theorem sameSetup_complete (s : State) (ws : List (Nat × Nat)) (f : Flags) (n : Nat) : SameSetup s (s.complete ws f n) :=
  ⟨rfl, rfl, rfl, rfl, rfl, rfl, rfl, rfl⟩

theorem engineDone_complete (s : State) (ws : List (Nat × Nat)) (f : Flags) (n : Nat) : EngineDone (s.complete ws f n) :=
  ⟨rfl, rfl, rfl, rfl⟩

/-! ## The retry loop -/

/-- A failed draw uses up one try (R800). -/
theorem retryLoop_fail {α : Type} (c : Curve) (body : Nat → Except ErrCode α) (fuel t : Nat) (last : ErrCode)
    (es : List EntropyAnswer) :
    retryLoop c body (fuel + 1) t last (.fail :: es) = retryLoop c body fuel (t + 1) .rng es := rfl

/-- With no answer at hand the draw stays outstanding (R931). -/
theorem retryLoop_waiting {α : Type} (c : Curve) (body : Nat → Except ErrCode α) (fuel t : Nat) (last : ErrCode) :
    retryLoop c body (fuel + 1) t last [] = .waiting t := rfl

/-- A rejected candidate uses up one try (R800). -/
theorem retryLoop_rejected {α : Type} (c : Curve) (body : Nat → Except ErrCode α) (fuel t : Nat) (last : ErrCode)
    (w : Vector Word 8) (es : List EntropyAnswer) (h : candidate c w = 0 ∨ candidate c w ≥ c.n) :
    retryLoop c body (fuel + 1) t last (.ok w :: es) = retryLoop c body fuel (t + 1) .rng es := by
  simp only [retryLoop, if_pos h]

/-- An accepted candidate whose body fails gives its class to the loop (R800). -/
theorem retryLoop_body_error {α : Type} (c : Curve) (body : Nat → Except ErrCode α) (fuel t : Nat) (last e : ErrCode)
    (w : Vector Word 8) (es : List EntropyAnswer) (h : ¬(candidate c w = 0 ∨ candidate c w ≥ c.n))
    (hb : body (candidate c w) = .error e) :
    retryLoop c body (fuel + 1) t last (.ok w :: es) = retryLoop c body fuel (t + 1) e es := by
  simp only [retryLoop, if_neg h, hb]

/-- An accepted candidate whose body succeeds ends the loop (R800). -/
theorem retryLoop_body_ok {α : Type} (c : Curve) (body : Nat → Except ErrCode α) (fuel t : Nat) (last : ErrCode)
    (w : Vector Word 8) (es : List EntropyAnswer) (v : α) (h : ¬(candidate c w = 0 ∨ candidate c w ≥ c.n))
    (hb : body (candidate c w) = .ok v) :
    retryLoop c body (fuel + 1) t last (.ok w :: es) = .ok v t es := by
  simp only [retryLoop, if_neg h, hb]

/-- Where the loop can end: a success at a try of its range, exhaustion only once every try has had its answer, waiting at a
try of its range. -/
theorem retryLoop_cases {α : Type} (c : Curve) (body : Nat → Except ErrCode α) : ∀ (fuel t : Nat) (last : ErrCode)
    (es : List EntropyAnswer),
    (∃ v t' rest, retryLoop c body fuel t last es = .ok v t' rest ∧ t ≤ t' ∧ t' < t + fuel) ∨
    (∃ e rest, retryLoop c body fuel t last es = .fail e rest ∧ fuel ≤ es.length) ∨
    (∃ t', retryLoop c body fuel t last es = .waiting t' ∧ t ≤ t' ∧ t' < t + fuel ∧ es.length < fuel) := by
  intro fuel
  induction fuel with
  | zero => intro t last es; exact .inr (.inl ⟨last, es, rfl, Nat.zero_le _⟩)
  | succ fuel ih =>
    intro t last es
    have next : ∀ (last' : ErrCode) (a : EntropyAnswer) (es' : List EntropyAnswer), es = a :: es' →
        retryLoop c body (fuel + 1) t last es = retryLoop c body fuel (t + 1) last' es' →
        (∃ v t' rest, retryLoop c body (fuel + 1) t last es = .ok v t' rest ∧ t ≤ t' ∧ t' < t + (fuel + 1)) ∨
        (∃ e rest, retryLoop c body (fuel + 1) t last es = .fail e rest ∧ fuel + 1 ≤ es.length) ∨
        (∃ t', retryLoop c body (fuel + 1) t last es = .waiting t' ∧ t ≤ t' ∧ t' < t + (fuel + 1) ∧
          es.length < fuel + 1) := by
      intro last' a es' he hr
      rw [hr]
      subst he
      rcases ih (t + 1) last' es' with ⟨v, t', r, h, h1, h2⟩ | ⟨e, r, h, h1⟩ | ⟨t', h, h1, h2, h3⟩
      · exact .inl ⟨v, t', r, h, by omega, by omega⟩
      · exact .inr (.inl ⟨e, r, h, by simp; omega⟩)
      · exact .inr (.inr ⟨t', h, by omega, by omega, by simp; omega⟩)
    match es with
    | [] => exact .inr (.inr ⟨t, rfl, by omega, by omega, by simp⟩)
    | .fail :: es' => exact next .rng .fail es' rfl (retryLoop_fail ..)
    | .ok w :: es' =>
      by_cases h : candidate c w = 0 ∨ candidate c w ≥ c.n
      · exact next .rng (.ok w) es' rfl (retryLoop_rejected c body fuel t last w es' h)
      · cases hb : body (candidate c w) with
        | ok v => exact .inl ⟨v, t, es', retryLoop_body_ok c body fuel t last w es' v h hb, by omega, by omega⟩
        | error e => exact next e (.ok w) es' rfl (retryLoop_body_error c body fuel t last e w es' h hb)

/-- The candidate is below `2^nbits` (R801). -/
theorem candidate_lt (c : Curve) (w : Vector Word 8) : candidate c w < 2 ^ c.nbits :=
  Nat.mod_lt _ (by positivity)

/-- Everything the loop of KEYGEN and SIGN can do to the state. -/
theorem runLoop_cases {α : Type} (s : State) (c : Curve) (body : Nat → Except ErrCode α) (onOk : α → List (Nat × Nat))
    (onFail : ErrCode → ErrCode) :
    (∃ v t rest, s.runLoop c body onOk onFail = { s with entropy := rest }.complete (onOk v) Flags.clear t ∧
      s.currentTry ≤ t ∧ t ≤ Config.maxTries) ∨
    (∃ last rest, s.runLoop c body onOk onFail = { s with entropy := rest }.fail (onFail last) Config.maxTries ∧
      Config.maxTries + 1 - s.currentTry ≤ s.entropy.length) ∨
    (∃ t, s.runLoop c body onOk onFail = s.waitForDraw t ∧ s.currentTry ≤ t ∧ t ≤ Config.maxTries ∧
      s.entropy.length < Config.maxTries + 1 - s.currentTry) := by
  rcases retryLoop_cases c body (Config.maxTries + 1 - s.currentTry) s.currentTry .rng s.entropy with
    ⟨v, t, r, h, h1, h2⟩ | ⟨e, r, h, h1⟩ | ⟨t, h, h1, h2, h3⟩
  · exact .inl ⟨v, t, r, by simp only [State.runLoop, h], h1, by omega⟩
  · exact .inr (.inl ⟨e, r, by simp only [State.runLoop, h], h1⟩)
  · exact .inr (.inr ⟨t, by simp only [State.runLoop, h], h1, by omega, h3⟩)

end Sys2Proof.Machine
end

