-- ==== Sys2Proof/Laws/Bus.lean ====
section
/-! SUPPORT. Bus accesses at the window's offsets: what the block decodes, and the step that takes one. -/

namespace Sys2Proof.Machine

/-- `BASE` is a multiple of 2048, so the block sees the offset (R200). -/
theorem base_offset {off : Nat} (h : off < 2048) : (BitVec.ofNat 11 (Config.base + off)).toNat = off := by
  rw [BitVec.toNat_ofNat, Config.base, Nat.mul_add_mod]
  exact Nat.mod_eq_of_lt h

theorem base_offset_eq {off : Nat} (h : off < 2048) : BitVec.ofNat 11 (Config.base + off) = BitVec.ofNat 11 off := by
  apply BitVec.eq_of_toNat_eq
  rw [base_offset h, BitVec.toNat_ofNat, Nat.mod_eq_of_lt h]

/-- A word access at an aligned offset of the window is supported (R214). -/
theorem supported_word {off : Nat} (h : off < 2048) (h4 : off % 4 = 0) (k : AccessKind) :
    (Access.mk (Config.base + off) .word 0xF k).supported = true := by
  have h2 : (BitVec.ofNat 11 (Config.base + off)).extractLsb' 0 2 = 0#2 := by
    apply BitVec.eq_of_toNat_eq
    rw [BitVec.extractLsb'_toNat, base_offset h]
    simpa using h4
  simp [Access.supported, Access.offset, h2]

/-- The step that takes a bus access (R240). -/
theorem step_bus {s : State} {a : Access} {rest : List Input} (h : s.inputs = .bus a :: rest) :
    step s = .next (s.advance.busAccess a) := by
  simp [step, h]

/-- A supported write (R220). -/
theorem step_hostWrite {s : State} {off : Nat} {v : Word} {rest : List Input} (hoff : off < 2048) (h4 : off % 4 = 0)
    (h : s.inputs = hostWrite off v :: rest) :
    step s = .next { s.advance.writeReg (Reg.ofOffset (BitVec.ofNat 11 off)) v with resp := some (.writeDone false) } := by
  rw [step_bus h]
  unfold State.busAccess
  rw [if_pos (supported_word hoff h4 _)]
  simp only [Access.offset, base_offset_eq hoff]

/-- A supported read (R220). -/
theorem step_hostRead {s : State} {off : Nat} {rest : List Input} (hoff : off < 2048) (h4 : off % 4 = 0)
    (h : s.inputs = hostRead off :: rest) :
    step s = .next { s.advance with
      resp := some (.readData (s.advance.readReg (Reg.ofOffset (BitVec.ofNat 11 off))) false) } := by
  rw [step_bus h]
  unfold State.busAccess
  rw [if_pos (supported_word hoff h4 _)]
  simp only [Access.offset, base_offset_eq hoff]

/-- The engine's turn (log 2). -/
theorem step_engineTurn {s : State} (h : s.EngineTurn) : step s = s.advance.runEngine := by
  rcases h with h | ⟨rest, h⟩ <;> simp [step, h]

/-! ## The register map (R210) -/

theorem ofOffset_digest {off : Nat} (h1 : 0x40 ≤ off) (h2 : off < 0x60) :
    Reg.ofOffset (BitVec.ofNat 11 off) = .digest ((BitVec.ofNat 11 off).extractLsb' 2 3) := by
  interval_cases off <;> rfl

theorem ofOffset_slot {off : Nat} (h1 : 0x400 ≤ off) (h2 : off < 2048) :
    Reg.ofOffset (BitVec.ofNat 11 off) =
      .slot ((BitVec.ofNat 11 off).extractLsb' 5 5) ((BitVec.ofNat 11 off).extractLsb' 2 3) := by
  have hn : (BitVec.ofNat 11 off).toNat = off := by rw [BitVec.toNat_ofNat, Nat.mod_eq_of_lt h2]
  have ne : ∀ k : Nat, k < 0x400 → BitVec.ofNat 11 off ≠ BitVec.ofNat 11 k := by
    intro k hk he
    have := congrArg BitVec.toNat he
    rw [hn, BitVec.toNat_ofNat, Nat.mod_eq_of_lt (by omega)] at this
    omega
  unfold Reg.ofOffset
  rw [if_neg (ne 0 (by norm_num)), if_neg (ne 4 (by norm_num)), if_neg (ne 8 (by norm_num)),
    if_neg (ne 0xC (by norm_num)), if_neg (ne 0x10 (by norm_num)), hn, if_neg (by omega), if_pos h1]

theorem ofOffset_reserved {off : Nat} (h4 : off % 4 = 0)
    (h : (0x14 ≤ off ∧ off < 0x40) ∨ (0x60 ≤ off ∧ off < 0x400)) : Reg.ofOffset (BitVec.ofNat 11 off) = .reserved := by
  obtain ⟨m, rfl⟩ := Nat.dvd_of_mod_eq_zero h4
  rcases h with ⟨h1, h2⟩ | ⟨h1, h2⟩
  · have : 5 ≤ m := by omega
    have : m < 16 := by omega
    interval_cases m <;> rfl
  · have : 24 ≤ m := by omega
    have : m < 256 := by omega
    interval_cases m <;> rfl

/-- The slot and the word that an offset of the slot window names (R211). -/
theorem slot_offset {k j : Nat} (hk : k < 32) (hj : j < 8) :
    ((BitVec.ofNat 11 (0x400 + 32 * k + 4 * j)).extractLsb' 5 5).toNat = k ∧
    ((BitVec.ofNat 11 (0x400 + 32 * k + 4 * j)).extractLsb' 2 3).toNat = j := by
  simp only [BitVec.extractLsb'_toNat, BitVec.toNat_ofNat, Nat.shiftRight_eq_div_pow]
  omega

end Sys2Proof.Machine
end

