-- ==== Sys2Proof/Laws/Decode.lean ====
section
/-! SUPPORT. The fields of a packed word, the opcode table's rows, and the cases of the decoder. -/

namespace Sys2Proof

@[simp] theorem MSel.ofBit_toBit (m : MSel) : MSel.ofBit m.toBit = m := by cases m <;> rfl

theorem MSel.toBit_ofBit (b : BitVec 1) : (MSel.ofBit b).toBit = b := by
  revert b; decide

section Fields
variable (op : BitVec 8) (rd ra rb rc : SlotNo) (m : BitVec 1)

@[simp] theorem opField_packWord : opField (packWord op rd ra rb rc m) = op := by
  unfold opField packWord
  ext i hi
  simp only [BitVec.getElem_extractLsb', BitVec.getLsbD_or, BitVec.getLsbD_shiftLeft, BitVec.getLsbD_setWidth]
  simp [show i < 8 by omega, show i < 13 by omega, show i < 18 by omega, show i < 23 by omega, show i < 28 by omega, show i < 32 by omega]

@[simp] theorem rdField_packWord : rdField (packWord op rd ra rb rc m) = rd := by
  unfold rdField packWord
  ext i hi
  simp only [BitVec.getElem_extractLsb', BitVec.getLsbD_or, BitVec.getLsbD_shiftLeft, BitVec.getLsbD_setWidth]
  simp [show ¬ (8 + i < 8) by omega, show 8 + i < 13 by omega, show 8 + i < 18 by omega, show 8 + i < 23 by omega, show 8 + i < 28 by omega, show 8 + i - 8 = i by omega, show 8 + i < 32 by omega, show i < 32 by omega]
  exact BitVec.getLsbD_eq_getElem hi

@[simp] theorem raField_packWord : raField (packWord op rd ra rb rc m) = ra := by
  unfold raField packWord
  ext i hi
  simp only [BitVec.getElem_extractLsb', BitVec.getLsbD_or, BitVec.getLsbD_shiftLeft, BitVec.getLsbD_setWidth]
  simp [show ¬ (13 + i < 8) by omega, show ¬ (13 + i < 13) by omega, show 13 + i < 18 by omega, show 13 + i < 23 by omega, show 13 + i < 28 by omega, show 13 + i - 13 = i by omega, show 13 + i < 32 by omega, show i < 32 by omega, BitVec.getLsbD_of_ge op (13 + i) (by omega), BitVec.getLsbD_of_ge rd (13 + i - 8) (by omega)]
  exact BitVec.getLsbD_eq_getElem hi

@[simp] theorem rbField_packWord : rbField (packWord op rd ra rb rc m) = rb := by
  unfold rbField packWord
  ext i hi
  simp only [BitVec.getElem_extractLsb', BitVec.getLsbD_or, BitVec.getLsbD_shiftLeft, BitVec.getLsbD_setWidth]
  simp [show ¬ (18 + i < 8) by omega, show ¬ (18 + i < 13) by omega, show ¬ (18 + i < 18) by omega, show 18 + i < 23 by omega, show 18 + i < 28 by omega, show 18 + i - 18 = i by omega, show 18 + i < 32 by omega, show i < 32 by omega, BitVec.getLsbD_of_ge op (18 + i) (by omega), BitVec.getLsbD_of_ge rd (18 + i - 8) (by omega), BitVec.getLsbD_of_ge ra (18 + i - 13) (by omega)]
  exact BitVec.getLsbD_eq_getElem hi

@[simp] theorem rcField_packWord : rcField (packWord op rd ra rb rc m) = rc := by
  unfold rcField packWord
  ext i hi
  simp only [BitVec.getElem_extractLsb', BitVec.getLsbD_or, BitVec.getLsbD_shiftLeft, BitVec.getLsbD_setWidth]
  simp [show ¬ (23 + i < 8) by omega, show ¬ (23 + i < 13) by omega, show ¬ (23 + i < 18) by omega, show ¬ (23 + i < 23) by omega, show 23 + i < 28 by omega, show 23 + i - 23 = i by omega, show 23 + i < 32 by omega, show i < 32 by omega, BitVec.getLsbD_of_ge op (23 + i) (by omega), BitVec.getLsbD_of_ge rd (23 + i - 8) (by omega), BitVec.getLsbD_of_ge ra (23 + i - 13) (by omega), BitVec.getLsbD_of_ge rb (23 + i - 18) (by omega)]
  exact BitVec.getLsbD_eq_getElem hi

@[simp] theorem mField_packWord : mField (packWord op rd ra rb rc m) = m := by
  unfold mField packWord
  ext i hi
  simp only [BitVec.getElem_extractLsb', BitVec.getLsbD_or, BitVec.getLsbD_shiftLeft, BitVec.getLsbD_setWidth]
  simp [show ¬ (28 + i < 8) by omega, show ¬ (28 + i < 13) by omega, show ¬ (28 + i < 18) by omega, show ¬ (28 + i < 23) by omega, show ¬ (28 + i < 28) by omega, show 28 + i - 28 = i by omega, show 28 + i < 32 by omega, show i < 32 by omega, BitVec.getLsbD_of_ge op (28 + i) (by omega), BitVec.getLsbD_of_ge rd (28 + i - 8) (by omega), BitVec.getLsbD_of_ge ra (28 + i - 13) (by omega), BitVec.getLsbD_of_ge rb (28 + i - 18) (by omega), BitVec.getLsbD_of_ge rc (28 + i - 23) (by omega)]
  exact BitVec.getLsbD_eq_getElem hi

end Fields

/-- A word whose reserved bits are 0 is the packing of its fields (R300). -/
theorem packWord_fields (w : Word) (h : w.extractLsb' 29 3 = 0#3) :
    packWord (opField w) (rdField w) (raField w) (rbField w) (rcField w) (mField w) = w := by
  have hr : ∀ j, 29 ≤ j → j < 32 → w.getLsbD j = false := by
    intro j h1 h2
    have := congrArg (fun v => v.getLsbD (j - 29)) h
    simpa [BitVec.getLsbD_extractLsb', show j - 29 < 3 by omega, show 29 + (j - 29) = j by omega] using this
  unfold packWord opField rdField raField rbField rcField mField
  apply BitVec.eq_of_getLsbD_eq
  intro i hi
  simp only [BitVec.getLsbD_or, BitVec.getLsbD_shiftLeft, BitVec.getLsbD_setWidth, BitVec.getLsbD_extractLsb']
  rcases (by omega : i < 8 ∨ (8 ≤ i ∧ i < 13) ∨ (13 ≤ i ∧ i < 18) ∨ (18 ≤ i ∧ i < 23) ∨ (23 ≤ i ∧ i < 28) ∨ i = 28 ∨
    29 ≤ i) with h | h | h | h | h | h | h
  · simp [h, hi, show i < 13 by omega, show i < 18 by omega, show i < 23 by omega, show i < 28 by omega]
  · simp [hi, show ¬ i < 8 by omega, show i < 13 by omega, show i < 18 by omega, show i < 23 by omega,
      show i < 28 by omega, show i - 8 < 5 by omega, show i - 8 < 32 by omega, show 8 + (i - 8) = i by omega]
  · simp [hi, show ¬ i < 8 by omega, show ¬ i < 13 by omega, show i < 18 by omega, show i < 23 by omega,
      show i < 28 by omega, show ¬ i - 8 < 5 by omega, show i - 13 < 5 by omega, show i - 13 < 32 by omega,
      show 13 + (i - 13) = i by omega]
  · simp [hi, show ¬ i < 8 by omega, show ¬ i < 13 by omega, show ¬ i < 18 by omega, show i < 23 by omega,
      show i < 28 by omega, show ¬ i - 8 < 5 by omega, show ¬ i - 13 < 5 by omega, show i - 18 < 5 by omega,
      show i - 18 < 32 by omega, show 18 + (i - 18) = i by omega]
  · simp [hi, show ¬ i < 8 by omega, show ¬ i < 13 by omega, show ¬ i < 18 by omega, show ¬ i < 23 by omega,
      show i < 28 by omega, show ¬ i - 8 < 5 by omega, show ¬ i - 13 < 5 by omega, show ¬ i - 18 < 5 by omega,
      show i - 23 < 5 by omega, show i - 23 < 32 by omega, show 23 + (i - 23) = i by omega]
  · subst h; simp
  · simp [hr i h hi, show ¬ i < 8 by omega, show ¬ i - 8 < 5 by omega, show ¬ i - 13 < 5 by omega,
      show ¬ i - 18 < 5 by omega, show ¬ i - 23 < 5 by omega, show ¬ i - 28 < 1 by omega]

/-- No two rows share an OP (R313). -/
theorem opTable_ops_nodup : (opTable.map OpRow.op).Nodup := by decide

/-- A row's mask covers all of OP, so a word of the row has the row's OP. -/
theorem opTable_masks : ∀ r ∈ opTable, r.mask &&& 0xFF#32 = 0xFF#32 ∧ r.pattern &&& r.mask = r.pattern := by decide

/-- Everything the decoder can do. -/
theorem decode_cases (w : Word) :
    (rowOf (opField w) = none ∧ decode w = .error .illegal) ∨
    ∃ r, rowOf (opField w) = some r ∧
      ((w &&& r.mask = r.pattern ∧ decode w = .ok (r.make w)) ∨
       (w &&& r.mask ≠ r.pattern ∧ decode w = .error .mustBeZero)) := by
  cases h : rowOf (opField w) with
  | none => exact .inl ⟨rfl, by simp [decode, h]⟩
  | some r =>
    refine .inr ⟨r, rfl, ?_⟩
    by_cases hm : w &&& r.mask = r.pattern
    · exact .inl ⟨hm, by simp [decode, h, hm]⟩
    · exact .inr ⟨hm, by simp [decode, h, hm]⟩

end Sys2Proof
end

