-- ==== Sys2Proof/Laws/Primes.lean ====
section
/-! SUPPORT. The field primes and the group orders of the five curves are prime (R142): Pratt certificates, checked by the
kernel. -/

namespace Sys2Proof

/-- A certificate: `num - 1` is the product of the listed prime powers, and `base` has order `num - 1` modulo `num`. -/
structure PrattCert where
  num : Nat
  base : Nat
  factors : List (Nat × Nat)

/-- Trial division from `d` on. -/
def noDivisorFrom : Nat → Nat → Nat → Bool
  | 0, _, _ => false
  | fuel + 1, d, f => if d * d > f then true else if f % d = 0 then false else noDivisorFrom fuel (d + 1) f

/-- A prime below 2^20, by trial division. -/
def smallPrime (f : Nat) : Bool := decide (2 ≤ f) && noDivisorFrom 1024 2 f

/-- The check of one certificate, given numbers known to be prime. -/
def PrattCert.ok (known : List Nat) (c : PrattCert) : Bool :=
  decide (1 < c.num) && decide ((c.factors.map fun f => f.1 ^ f.2).prod + 1 = c.num) &&
  c.factors.all (fun f => known.contains f.1 || smallPrime f.1) &&
  decide (powMod c.base (c.num - 1) c.num = 1) &&
  c.factors.all (fun f => decide (powMod c.base ((c.num - 1) / f.1) c.num ≠ 1))

/-- Certificates checked in order, each number joining the known ones. -/
def checkCerts : List Nat → List PrattCert → Bool
  | _, [] => true
  | known, c :: cs => c.ok known && checkCerts (c.num :: known) cs

theorem noDivisorFrom_spec : ∀ (fuel d f : Nat), noDivisorFrom fuel d f = true → ∀ e, d ≤ e → e * e ≤ f → ¬ e ∣ f := by
  intro fuel
  induction fuel with
  | zero => intro d f h; simp [noDivisorFrom] at h
  | succ fuel ih =>
    intro d f h e hde hef hdvd
    unfold noDivisorFrom at h
    split_ifs at h with h1 h2
    · exact absurd (Nat.mul_le_mul hde hde) (by omega)
    · rcases Nat.eq_or_lt_of_le hde with rfl | hlt
      · exact h2 (Nat.mod_eq_zero_of_dvd hdvd)
      · exact ih _ _ h e hlt hef hdvd

theorem smallPrime_prime {f : Nat} (h : smallPrime f = true) : f.Prime := by
  simp only [smallPrime, Bool.and_eq_true, decide_eq_true_eq] at h
  refine (Nat.prime_def_le_sqrt).2 ⟨h.1, fun e he hs => ?_⟩
  exact noDivisorFrom_spec _ _ _ h.2 e he (Nat.le_sqrt.1 hs)

/-- A checked certificate proves its number prime, by Lucas' test. -/
theorem PrattCert.prime (c : PrattCert) (known : List Nat) (hk : ∀ q ∈ known, q.Prime) (h : c.ok known = true) :
    c.num.Prime := by
  simp only [PrattCert.ok, Bool.and_eq_true, decide_eq_true_eq, List.all_eq_true, Bool.or_eq_true,
    List.contains_iff_mem] at h
  obtain ⟨⟨⟨⟨h1, hprod⟩, hprimes⟩, hpow⟩, hord⟩ := h
  have hfac : ∀ f ∈ c.factors, f.1.Prime := fun f hf => (hprimes f hf).elim (hk _) smallPrime_prime
  refine lucas_primality c.num (c.base : ZMod c.num) ?_ ?_
  · rw [← powMod_cast, hpow, Nat.cast_one]
  · intro q hq hdvd hone
    have hd : q ∣ (c.factors.map fun f => f.1 ^ f.2).prod := by
      have : c.num - 1 = (c.factors.map fun f => f.1 ^ f.2).prod := by omega
      rwa [← this]
    obtain ⟨x, hx, hqx⟩ := (Prime.dvd_prod_iff hq.prime).1 hd
    obtain ⟨f, hf, rfl⟩ := List.mem_map.1 hx
    have hqf : q = f.1 := (Nat.prime_dvd_prime_iff_eq hq (hfac f hf)).1 (hq.dvd_of_dvd_pow hqx)
    refine hord f hf ?_
    rw [← hqf]
    rw [← powMod_cast] at hone
    have hc : ((powMod c.base ((c.num - 1) / q) c.num : Nat) : ZMod c.num) = ((1 : Nat) : ZMod c.num) := by
      rw [hone, Nat.cast_one]
    have := (ZMod.natCast_eq_natCast_iff _ _ _).1 hc
    rw [Nat.ModEq, Nat.mod_eq_of_lt (powMod_lt _ _ (by omega)), Nat.mod_eq_of_lt h1] at this
    exact this

theorem checkCerts_prime : ∀ (cs : List PrattCert) (known : List Nat), (∀ q ∈ known, q.Prime) →
    checkCerts known cs = true → ∀ c ∈ cs, c.num.Prime := by
  intro cs
  induction cs with
  | nil => intro _ _ _ c hc; cases hc
  | cons d ds ih =>
    intro known hk h c hc
    simp only [checkCerts, Bool.and_eq_true] at h
    have hd := d.prime known hk h.1
    rcases List.mem_cons.1 hc with rfl | hc
    · exact hd
    · exact ih _ (fun q hq => (List.mem_cons.1 hq).elim (fun e => e ▸ hd) (hk q)) h.2 c hc

/-- The last certificate of a checked list proves its number prime. -/
theorem prime_of_certs {cs : List PrattCert} {n : Nat} (h : checkCerts [] cs = true)
    (hl : cs.getLast?.map PrattCert.num = some n) : n.Prime := by
  obtain ⟨c, hc, rfl⟩ := Option.map_eq_some_iff.1 hl
  exact checkCerts_prime cs [] (by simp) h c (List.mem_of_getLast? hc)

/-- Certificates for p of secp160r1. -/
def secp160r1_p_certs : List PrattCert :=
  [ ⟨6030259, 2, [(2, 1), (3, 1), (13, 2), (19, 1), (313, 1)]⟩,
    ⟨104179991, 11, [(2, 1), (5, 1), (349, 1), (29851, 1)]⟩,
    ⟨1519826521, 7, [(2, 3), (3, 1), (5, 1), (17, 1), (745013, 1)]⟩,
    ⟨3799566302501, 2, [(2, 2), (5, 4), (1519826521, 1)]⟩,
    ⟨9281531860908577342183, 5, [(2, 1), (3, 2), (11, 1), (709, 1), (17401, 1), (3799566302501, 1)]⟩,
    ⟨176070659401435712181211511, 7, [(2, 1), (5, 1), (7, 1), (271, 1), (9281531860908577342183, 1)]⟩,
    ⟨1461501637330902918203684832716283019653785059327, 3, [(2, 1), (3, 1), (19, 1), (115901, 1), (6030259, 1), (104179991, 1), (176070659401435712181211511, 1)]⟩ ]

theorem secp160r1_p_certs_ok : checkCerts [] secp160r1_p_certs = true := by decide +kernel

/-- Certificates for n of secp160r1. -/
def secp160r1_n_certs : List PrattCert :=
  [ ⟨1021621, 7, [(2, 2), (3, 1), (5, 1), (17027, 1)]⟩,
    ⟨3099723569, 3, [(2, 4), (6551, 1), (29573, 1)]⟩,
    ⟨1786087, 3, [(2, 1), (3, 2), (67, 1), (1481, 1)]⟩,
    ⟨1281221, 10, [(2, 2), (5, 1), (29, 1), (47, 2)]⟩,
    ⟨81596517090689, 3, [(2, 7), (497551, 1), (1281221, 1)]⟩,
    ⟨32965410909254210768022022994233, 10, [(2, 3), (3, 1), (31, 1), (97, 1), (1123, 1), (2791, 1), (1786087, 1), (81596517090689, 1)]⟩,
    ⟨1461501637330902918203687197606826779884643492439, 7, [(2, 1), (7, 1), (1021621, 1), (3099723569, 1), (32965410909254210768022022994233, 1)]⟩ ]

theorem secp160r1_n_certs_ok : checkCerts [] secp160r1_n_certs = true := by decide +kernel

/-- Certificates for p of secp192r1. -/
def secp192r1_p_certs : List PrattCert :=
  [ ⟨11393611, 10, [(2, 1), (3, 1), (5, 1), (379787, 1)]⟩,
    ⟨108341181769254293, 2, [(2, 2), (17, 1), (43, 1), (2477, 1), (54251, 1), (275729, 1)]⟩,
    ⟨8413201, 29, [(2, 4), (3, 3), (5, 2), (19, 1), (41, 1)]⟩,
    ⟨252396031, 3, [(2, 1), (3, 1), (5, 1), (8413201, 1)]⟩,
    ⟨455827231987, 2, [(2, 1), (3, 1), (7, 1), (43, 1), (252396031, 1)]⟩,
    ⟨5933177618131140283, 2, [(2, 1), (3, 2), (723127, 1), (455827231987, 1)]⟩,
    ⟨288626509448065367648032903, 6, [(2, 1), (3, 1), (19, 2), (37, 1), (607, 1), (5933177618131140283, 1)]⟩,
    ⟨6277101735386680763835789423207666416083908700390324961279, 11, [(2, 1), (59, 1), (149309, 1), (11393611, 1), (108341181769254293, 1), (288626509448065367648032903, 1)]⟩ ]

theorem secp192r1_p_certs_ok : checkCerts [] secp192r1_p_certs = true := by decide +kernel

/-- Certificates for n of secp192r1. -/
def secp192r1_n_certs : List PrattCert :=
  [ ⟨15716741, 2, [(2, 2), (5, 1), (13, 1), (60449, 1)]⟩,
    ⟨46245989, 2, [(2, 2), (1693, 1), (6829, 1)]⟩,
    ⟨7244839476697597, 2, [(2, 2), (3, 1), (239, 1), (54623, 1), (46245989, 1)]⟩,
    ⟨9564682313913860059195669, 2, [(2, 2), (3, 1), (7, 1), (15716741, 1), (7244839476697597, 1)]⟩,
    ⟨51920273, 3, [(2, 4), (61, 1), (53197, 1)]⟩,
    ⟨103840547, 2, [(2, 1), (51920273, 1)]⟩,
    ⟨7532705587894727, 5, [(2, 1), (29, 1), (43, 2), (331, 1), (4127, 1), (51419, 1)]⟩,
    ⟨3433859179316188682119986911, 13, [(2, 1), (5, 1), (439, 1), (103840547, 1), (7532705587894727, 1)]⟩,
    ⟨6277101735386680763835789423176059013767194773182842284081, 3, [(2, 4), (5, 1), (2389, 1), (9564682313913860059195669, 1), (3433859179316188682119986911, 1)]⟩ ]

theorem secp192r1_n_certs_ok : checkCerts [] secp192r1_n_certs = true := by decide +kernel

/-- Certificates for p of secp224r1. -/
def secp224r1_p_certs : List PrattCert :=
  [ ⟨6700417, 5, [(2, 7), (3, 1), (17449, 1)]⟩,
    ⟨2998279, 3, [(2, 1), (3, 2), (166571, 1)]⟩,
    ⟨67280421310721, 3, [(2, 8), (5, 1), (47, 1), (373, 1), (2998279, 1)]⟩,
    ⟨26959946667150639794667015087019630673557916260026308143510066298881, 22, [(2, 96), (3, 1), (5, 1), (17, 1), (257, 1), (641, 1), (65537, 1), (274177, 1), (6700417, 1), (67280421310721, 1)]⟩ ]

theorem secp224r1_p_certs_ok : checkCerts [] secp224r1_p_certs = true := by decide +kernel

/-- Certificates for n of secp224r1. -/
def secp224r1_n_certs : List PrattCert :=
  [ ⟨13928737, 15, [(2, 5), (3, 1), (145091, 1)]⟩,
    ⟨11105363, 2, [(2, 1), (509, 1), (10909, 1)]⟩,
    ⟨821796863, 5, [(2, 1), (37, 1), (11105363, 1)]⟩,
    ⟨432621809776543, 3, [(2, 1), (3, 1), (87739, 1), (821796863, 1)]⟩,
    ⟨136401162692544977256234449, 3, [(2, 4), (31, 1), (20599, 1), (30859, 1), (432621809776543, 1)]⟩,
    ⟨34646440928557194402992574983797, 2, [(2, 2), (3, 1), (61, 1), (347, 1), (136401162692544977256234449, 1)]⟩,
    ⟨375503554633724504423937478103159147573209, 19, [(2, 3), (3, 1), (2707, 1), (166823, 1), (34646440928557194402992574983797, 1)]⟩,
    ⟨50520606258875818707470860153287666700917696099933389351507, 2, [(2, 1), (89, 1), (631, 1), (85999, 1), (13928737, 1), (375503554633724504423937478103159147573209, 1)]⟩,
    ⟨26959946667150639794667015087019625940457807714424391721682722368061, 2, [(2, 2), (3, 6), (5, 1), (17, 1), (2153, 1), (50520606258875818707470860153287666700917696099933389351507, 1)]⟩ ]

theorem secp224r1_n_certs_ok : checkCerts [] secp224r1_n_certs = true := by decide +kernel

/-- Certificates for p of secp256r1. -/
def secp256r1_p_certs : List PrattCert :=
  [ ⟨6700417, 5, [(2, 7), (3, 1), (17449, 1)]⟩,
    ⟨204061199, 11, [(2, 1), (11, 1), (23, 1), (107, 1), (3769, 1)]⟩,
    ⟨34282281433, 17, [(2, 3), (3, 1), (7, 1), (204061199, 1)]⟩,
    ⟨66417393611, 6, [(2, 1), (5, 1), (53, 1), (173, 1), (197, 1), (3677, 1)]⟩,
    ⟨11290956913871, 13, [(2, 1), (5, 1), (17, 1), (66417393611, 1)]⟩,
    ⟨46076956964474543, 5, [(2, 1), (23, 1), (18169, 1), (78283, 1), (704251, 1)]⟩,
    ⟨774023187263532362759620327192479577272145303, 3, [(2, 1), (3, 2), (2411, 1), (34282281433, 1), (11290956913871, 1), (46076956964474543, 1)]⟩,
    ⟨835945042244614951780389953367877943453916927241, 11, [(2, 3), (3, 3), (5, 1), (774023187263532362759620327192479577272145303, 1)]⟩,
    ⟨115792089210356248762697446949407573530086143415290314195533631308867097853951, 6, [(2, 1), (3, 1), (5, 2), (17, 1), (257, 1), (641, 1), (1531, 1), (65537, 1), (490463, 1), (6700417, 1), (835945042244614951780389953367877943453916927241, 1)]⟩ ]

theorem secp256r1_p_certs_ok : checkCerts [] secp256r1_p_certs = true := by decide +kernel

/-- Certificates for n of secp256r1. -/
def secp256r1_n_certs : List PrattCert :=
  [ ⟨9350987, 2, [(2, 1), (17, 1), (229, 1), (1201, 1)]⟩,
    ⟨187019741, 2, [(2, 2), (5, 1), (9350987, 1)]⟩,
    ⟨311245691, 2, [(2, 1), (5, 1), (7, 1), (17, 1), (29, 2), (311, 1)]⟩,
    ⟨622491383, 5, [(2, 1), (311245691, 1)]⟩,
    ⟨3969899, 2, [(2, 1), (19, 1), (104471, 1)]⟩,
    ⟨1002328039319, 19, [(2, 1), (126241, 1), (3969899, 1)]⟩,
    ⟨191039911, 3, [(2, 1), (3, 1), (5, 1), (41, 1), (155317, 1)]⟩,
    ⟨208150935158385979, 2, [(2, 1), (3, 1), (11, 1), (43, 1), (127, 1), (3023, 1), (191039911, 1)]⟩,
    ⟨2624747550333869278416773953, 7, [(2, 6), (3, 2), (1297, 1), (16879, 1), (208150935158385979, 1)]⟩,
    ⟨115792089210356248762697446949407573529996955224135760342422259061068512044369, 7, [(2, 4), (3, 1), (71, 1), (131, 1), (373, 1), (3407, 1), (17449, 1), (38189, 1), (187019741, 1), (622491383, 1), (1002328039319, 1), (2624747550333869278416773953, 1)]⟩ ]

theorem secp256r1_n_certs_ok : checkCerts [] secp256r1_n_certs = true := by decide +kernel

/-- Certificates for p of secp256k1. -/
def secp256k1_p_certs : List PrattCert :=
  [ ⟨13331831, 13, [(2, 1), (5, 1), (971, 1), (1373, 1)]⟩,
    ⟨173378833005251801, 6, [(2, 3), (5, 2), (2621, 1), (24809, 1), (13331831, 1)]⟩,
    ⟨22149492674086928081353, 5, [(2, 3), (3, 1), (5323, 1), (173378833005251801, 1)]⟩,
    ⟨132896956044521568488119, 6, [(2, 1), (3, 1), (22149492674086928081353, 1)]⟩,
    ⟨1206781, 10, [(2, 2), (3, 1), (5, 1), (20113, 1)]⟩,
    ⟨7240687, 3, [(2, 1), (3, 1), (1206781, 1)]⟩,
    ⟨107590001, 3, [(2, 4), (5, 4), (7, 1), (29, 1), (53, 1)]⟩,
    ⟨255515944373312847190720520512484175977, 3, [(2, 3), (7, 2), (11, 1), (1627, 1), (2657, 1), (4423, 1), (41201, 1), (96557, 1), (7240687, 1), (107590001, 1)]⟩,
    ⟨205115282021455665897114700593932402728804164701536103180137503955397371, 10, [(2, 1), (3, 1), (5, 1), (29, 2), (31, 1), (7723, 1), (132896956044521568488119, 1), (255515944373312847190720520512484175977, 1)]⟩,
    ⟨115792089237316195423570985008687907853269984665640564039457584007908834671663, 3, [(2, 1), (3, 1), (7, 1), (13441, 1), (205115282021455665897114700593932402728804164701536103180137503955397371, 1)]⟩ ]

theorem secp256k1_p_certs_ok : checkCerts [] secp256k1_p_certs = true := by decide +kernel

/-- Certificates for n of secp256k1. -/
def secp256k1_n_certs : List PrattCert :=
  [ ⟨4681609, 23, [(2, 3), (3, 1), (97, 1), (2011, 1)]⟩,
    ⟨107361793816595537, 3, [(2, 4), (16699, 1), (85831, 1), (4681609, 1)]⟩,
    ⟨44706919, 6, [(2, 1), (3, 1), (797, 1), (9349, 1)]⟩,
    ⟨174723607534414371449, 3, [(2, 3), (17, 1), (59, 1), (4051, 1), (120233, 1), (44706919, 1)]⟩,
    ⟨545358713, 5, [(2, 3), (41, 1), (59, 1), (28181, 1)]⟩,
    ⟨1627771, 3, [(2, 1), (3, 1), (5, 1), (29, 1), (1871, 1)]⟩,
    ⟨297159362677, 2, [(2, 2), (3, 2), (11, 1), (461, 1), (1627771, 1)]⟩,
    ⟨29047611873442575647497758179, 2, [(2, 1), (293, 1), (305873, 1), (545358713, 1), (297159362677, 1)]⟩,
    ⟨341948486974166000522343609283189, 2, [(2, 2), (3, 3), (109, 1), (29047611873442575647497758179, 1)]⟩,
    ⟨115792089237316195423570985008687907852837564279074904382605163141518161494337, 7, [(2, 6), (3, 1), (149, 1), (631, 1), (107361793816595537, 1), (174723607534414371449, 1), (341948486974166000522343609283189, 1)]⟩ ]

theorem secp256k1_n_certs_ok : checkCerts [] secp256k1_n_certs = true := by decide +kernel

/-- `p` is prime for all five curves (R142). -/
theorem Curve.p_prime (c : Curve) : c.p.Prime := by
  cases c
  · exact prime_of_certs secp160r1_p_certs_ok rfl
  · exact prime_of_certs secp192r1_p_certs_ok rfl
  · exact prime_of_certs secp224r1_p_certs_ok rfl
  · exact prime_of_certs secp256r1_p_certs_ok rfl
  · exact prime_of_certs secp256k1_p_certs_ok rfl

/-- `n` is prime for all five curves (R142). -/
theorem Curve.n_prime (c : Curve) : c.n.Prime := by
  cases c
  · exact prime_of_certs secp160r1_n_certs_ok rfl
  · exact prime_of_certs secp192r1_n_certs_ok rfl
  · exact prime_of_certs secp224r1_n_certs_ok rfl
  · exact prime_of_certs secp256r1_n_certs_ok rfl
  · exact prime_of_certs secp256k1_n_certs_ok rfl

end Sys2Proof
end

