-- ==== Sys2Proof/Laws/Group.lean ====
section
/-! SUPPORT. The group law of R14 is that of Mathlib's Weierstrass curves: what ECADD, ECMUL and ECNEG denote, so that
associativity and the multiples of a point come from the library. -/

namespace Sys2Proof

/-- The curve over its prime field, as the library has it: `y² = x³ + a·x + b` (R2). -/
def Curve.weierstrass (c : Curve) : WeierstrassCurve.Affine (ZMod c.p) :=
  { a₁ := 0, a₂ := 0, a₃ := 0, a₄ := (c.a : ZMod c.p), a₆ := (c.b : ZMod c.p) }

theorem Curve.weierstrass_a₁ (c : Curve) : c.weierstrass.a₁ = 0 := rfl
theorem Curve.weierstrass_a₂ (c : Curve) : c.weierstrass.a₂ = 0 := rfl
theorem Curve.weierstrass_a₃ (c : Curve) : c.weierstrass.a₃ = 0 := rfl
theorem Curve.weierstrass_a₄ (c : Curve) : c.weierstrass.a₄ = c.a := rfl

theorem natCast_eq_zero_of_lt {p v : Nat} (h : v < p) : (v : ZMod p) = 0 ↔ v = 0 := by
  rw [ZMod.natCast_eq_zero_iff]
  exact ⟨fun hd => Nat.eq_zero_of_dvd_of_lt hd h, fun hv => by simp [hv]⟩

theorem natCast_inj_of_lt {p v w : Nat} (hv : v < p) (hw : w < p) : (v : ZMod p) = w ↔ v = w := by
  rw [ZMod.natCast_eq_natCast_iff', Nat.mod_eq_of_lt hv, Nat.mod_eq_of_lt hw]

/-- `OnCurve` is the curve's equation in `ZMod p` (R14). -/
theorem onCurve_iff (c : Curve) (x y : Nat) :
    onCurve c x y = true ↔ (y : ZMod c.p) ^ 2 = (x : ZMod c.p) ^ 3 + c.a * x + c.b := by
  have hp := c.p_pos
  have hlt := residue_lt ((y * y : Int) - (x * x * x + c.a * x + c.b)) hp
  unfold onCurve
  rw [decide_eq_true_iff, ← natCast_eq_zero_of_lt hlt, residue_cast _ hp]
  push_cast
  rw [sub_eq_zero]
  constructor <;> intro h <;> linear_combination h

/-- A valid point (R602) in plain words. -/
theorem validPoint_iff (c : Curve) (x y : Nat) :
    validPoint c x y = true ↔ ¬(x = 0 ∧ y = 0) ∧ x < c.p ∧ y < c.p ∧ onCurve c x y = true := by
  simp [validPoint, and_assoc]
  tauto

theorem Curve.b_ne_zero (c : Curve) : (c.b : ZMod c.p) ≠ 0 := by
  rw [Ne, natCast_eq_zero_of_lt (by cases c <;> decide)]
  cases c <;> decide

/-- On the curve no point is `(0, 0)` (R142), so `Valid` is the range and the equation. -/
theorem validPoint_of_onCurve (c : Curve) {x y : Nat} (hx : x < c.p) (hy : y < c.p) (h : onCurve c x y = true) :
    validPoint c x y = true := by
  refine (validPoint_iff c x y).2 ⟨?_, hx, hy, h⟩
  rintro ⟨rfl, rfl⟩
  rw [onCurve_iff] at h
  exact c.b_ne_zero (by simpa using h.symm)

theorem Curve.two_ne_zero (c : Curve) : (2 : ZMod c.p) ≠ 0 := by
  have h : ((2 : Nat) : ZMod c.p) ≠ 0 := by
    rw [Ne, natCast_eq_zero_of_lt (by cases c <;> decide)]
    decide
  simpa using h

/-- The discriminant is not 0: every affine point of the curve is nonsingular. -/
theorem Curve.disc_ne_zero (c : Curve) : c.weierstrass.Δ ≠ 0 := by
  have h : ((16 * (4 * c.a * c.a * c.a + 27 * c.b * c.b) : Nat) : ZMod c.p) ≠ 0 := by
    rw [Ne, ZMod.natCast_eq_zero_iff]
    cases c <;> decide
  intro h0
  apply h
  rw [WeierstrassCurve.Δ, WeierstrassCurve.b₂, WeierstrassCurve.b₄, WeierstrassCurve.b₆, WeierstrassCurve.b₈] at h0
  simp only [Curve.weierstrass] at h0
  push_cast
  linear_combination -h0

/-- The library's point that a point of R14 denotes. -/
inductive Denotes (c : Curve) [Fact c.p.Prime] : Point → c.weierstrass.Point → Prop
  | inf : Denotes c .inf 0
  | affine {x y : Nat} (hx : x < c.p) (hy : y < c.p)
      (h : c.weierstrass.Nonsingular (x : ZMod c.p) (y : ZMod c.p)) : Denotes c (.affine x y) (.some _ _ h)

section
variable (c : Curve) [Fact c.p.Prime]

theorem Denotes.right_unique {P : Point} {A B : c.weierstrass.Point} (ha : Denotes c P A) (hb : Denotes c P B) :
    A = B := by
  cases ha <;> cases hb <;> rfl

/-- Distinct points of R14 denote distinct points. -/
theorem Denotes.left_unique {P Q : Point} {A : c.weierstrass.Point} (hp : Denotes c P A) (hq : Denotes c Q A) :
    P = Q := by
  cases hp with
  | inf => cases hq; rfl
  | affine hx hy h =>
    generalize hA : WeierstrassCurve.Affine.Point.some _ _ h = A at hq
    cases hq with
    | inf => cases hA
    | affine hx' hy' h' =>
      rw [WeierstrassCurve.Affine.Point.some.injEq] at hA
      rw [(natCast_inj_of_lt hx hx').1 hA.1, (natCast_inj_of_lt hy hy').1 hA.2]

/-- Reduced coordinates denote the point they are congruent to. -/
theorem Denotes.of_cast {x y : Nat} {X Y : ZMod c.p} (hx : x < c.p) (hy : y < c.p) (ex : (x : ZMod c.p) = X)
    (ey : (y : ZMod c.p) = Y) (h : c.weierstrass.Nonsingular X Y) : Denotes c (.affine x y) (.some X Y h) := by
  subst ex ey
  exact .affine hx hy h

theorem nonsingular_iff_onCurve (x y : Nat) :
    c.weierstrass.Nonsingular (x : ZMod c.p) (y : ZMod c.p) ↔ onCurve c x y = true := by
  rw [← WeierstrassCurve.Affine.equation_iff_nonsingular_of_Δ_ne_zero c.disc_ne_zero,
    WeierstrassCurve.Affine.equation_iff, onCurve_iff]
  simp only [Curve.weierstrass]
  constructor <;> intro h <;> linear_combination h

/-- Every valid point denotes one. -/
theorem exists_denotes {x y : Nat} (h : validPoint c x y = true) :
    ∃ A, Denotes c (.affine x y) A ∧ A ≠ 0 := by
  obtain ⟨-, hx, hy, ho⟩ := (validPoint_iff c x y).1 h
  exact ⟨_, .affine hx hy ((nonsingular_iff_onCurve c x y).2 ho), WeierstrassCurve.Affine.Point.some_ne_zero _⟩

/-- A point that denotes one is `INF` or valid. -/
theorem Denotes.valid {x y : Nat} {A : c.weierstrass.Point} (h : Denotes c (.affine x y) A) :
    validPoint c x y = true := by
  cases h with
  | affine hx hy h => exact validPoint_of_onCurve c hx hy ((nonsingular_iff_onCurve c x y).1 h)

theorem Denotes.eq_inf_iff {P : Point} {A : c.weierstrass.Point} (h : Denotes c P A) : P = .inf ↔ A = 0 := by
  cases h with
  | inf => simp
  | affine hx hy h => simp [WeierstrassCurve.Affine.Point.some_ne_zero]

/-- An inverse modulo `p` is the field's. -/
theorem invMod_cast_inv {a : Nat} (h : (a : ZMod c.p) ≠ 0) : ((invMod a c.p : Nat) : ZMod c.p) = (a : ZMod c.p)⁻¹ := by
  have hc : Nat.Coprime a c.p := by
    rw [Nat.coprime_comm, (Fact.out : c.p.Prime).coprime_iff_not_dvd, ← ZMod.natCast_eq_zero_iff]
    exact h
  exact eq_inv_of_mul_eq_one_right (invMod_cast c.p_pos hc)

/-- The chord and tangent construction of R14, once the slope is known. -/
theorem denotes_chord {l x1 y1 x2 y2 : Nat}
    (h1 : c.weierstrass.Nonsingular (x1 : ZMod c.p) (y1 : ZMod c.p))
    (h2 : c.weierstrass.Nonsingular (x2 : ZMod c.p) (y2 : ZMod c.p))
    (hxy : ¬((x1 : ZMod c.p) = x2 ∧ (y1 : ZMod c.p) = c.weierstrass.negY x2 y2))
    (hl : (l : ZMod c.p) = c.weierstrass.slope x1 x2 y1 y2) :
    Denotes c (chord c.p l x1 y1 x2) (.some _ _ h1 + .some _ _ h2) := by
  rw [WeierstrassCurve.Affine.Point.add_some hxy]
  have hp := c.p_pos
  have ex : ((residue ((l * l : Int) - x1 - x2) c.p : Nat) : ZMod c.p) =
      c.weierstrass.addX x1 x2 (c.weierstrass.slope x1 x2 y1 y2) := by
    rw [residue_cast _ hp, ← hl]
    simp only [WeierstrassCurve.Affine.addX, Curve.weierstrass]
    push_cast
    ring
  have ey : ((residue ((l : Int) * (x1 - (residue ((l * l : Int) - x1 - x2) c.p : Nat)) - y1) c.p : Nat) : ZMod c.p) =
      c.weierstrass.addY x1 x2 y1 (c.weierstrass.slope x1 x2 y1 y2) := by
    rw [residue_cast _ hp]
    rw [WeierstrassCurve.Affine.addY, WeierstrassCurve.Affine.negAddY, WeierstrassCurve.Affine.negY, ← ex, ← hl]
    simp only [Curve.weierstrass]
    push_cast
    ring
  exact Denotes.of_cast c (residue_lt _ hp) (residue_lt _ hp) ex ey _

/-- `ECADD` is the group law (R14). -/
theorem denotes_ecAdd {P Q : Point} {A B : c.weierstrass.Point} (hP : Denotes c P A) (hQ : Denotes c Q B) :
    Denotes c (ecAdd c P Q) (A + B) := by
  cases hP with
  | inf => rw [zero_add]; exact hQ
  | @affine x1 y1 hx1 hy1 h1 =>
    generalize hB : B = B' at hQ
    cases hQ with
    | inf => subst hB; rw [add_zero]; exact .affine hx1 hy1 h1
    | @affine x2 y2 hx2 hy2 h2 =>
      subst hB
      have hp := c.p_pos
      simp only [ecAdd]
      by_cases hx : x1 = x2
      · rw [if_pos hx]
        have hneg : ((y1 + y2) % c.p = 0) ↔ (y1 : ZMod c.p) = c.weierstrass.negY x2 y2 := by
          rw [← Nat.dvd_iff_mod_eq_zero, ← ZMod.natCast_eq_zero_iff, Nat.cast_add]
          simp only [WeierstrassCurve.Affine.negY, Curve.weierstrass]
          constructor <;> intro h <;> linear_combination h
        by_cases hy : (y1 + y2) % c.p = 0
        · rw [if_pos hy, WeierstrassCurve.Affine.Point.add_of_Y_eq (by rw [hx]) (hneg.1 hy)]
          exact .inf
        · rw [if_neg hy]
          have hyne : (y1 : ZMod c.p) ≠ c.weierstrass.negY x2 y2 := fun h => hy (hneg.2 h)
          have hyy : (y1 : ZMod c.p) = y2 :=
            WeierstrassCurve.Affine.Y_eq_of_Y_ne h1.1 h2.1 (by rw [hx]) hyne
          have h2y : ((2 * y1 : Nat) : ZMod c.p) ≠ 0 := by
            intro h
            apply hyne
            simp only [WeierstrassCurve.Affine.negY, Curve.weierstrass]
            rw [← hyy]
            push_cast at h
            linear_combination h
          refine denotes_chord c h1 h2 (fun h => hyne h.2) ?_
          rw [WeierstrassCurve.Affine.slope_of_Y_ne (by rw [hx]) hyne, residue_cast _ hp, div_eq_mul_inv]
          push_cast
          rw [invMod_cast_inv c h2y]
          simp only [WeierstrassCurve.Affine.negY, Curve.weierstrass]
          push_cast
          ring_nf
      · rw [if_neg hx]
        have hxne : (x1 : ZMod c.p) ≠ x2 := fun h => hx ((natCast_inj_of_lt hx1 hx2).1 h)
        have hd : ((residue ((x2 : Int) - x1) c.p : Nat) : ZMod c.p) = x2 - x1 := by
          rw [residue_cast _ hp]; push_cast; ring
        have hd0 : ((residue ((x2 : Int) - x1) c.p : Nat) : ZMod c.p) ≠ 0 := by
          rw [hd]; exact sub_ne_zero.2 (Ne.symm hxne)
        refine denotes_chord c h1 h2 (fun h => hxne h.1) ?_
        rw [WeierstrassCurve.Affine.slope_of_X_ne hxne, residue_cast _ hp]
        push_cast
        rw [invMod_cast_inv c hd0, hd, ← neg_sub (y1 : ZMod c.p), ← neg_sub (x1 : ZMod c.p), inv_neg, neg_mul_neg,
          div_eq_mul_inv]

/-- `ECMUL` is the multiple (R14). -/
theorem denotes_ecMul {P : Point} {A : c.weierstrass.Point} (hP : Denotes c P A) (k : Nat) :
    Denotes c (ecMul c k P) (k • A) := by
  induction k with
  | zero => rw [zero_nsmul]; exact .inf
  | succ k ih => rw [succ_nsmul]; exact denotes_ecAdd c ih hP

/-- `ECNEG` is the inverse (R14). -/
theorem denotes_ecNeg {P : Point} {A : c.weierstrass.Point} (hP : Denotes c P A) : Denotes c (ecNeg c P) (-A) := by
  cases hP with
  | inf => rw [neg_zero]; exact .inf
  | @affine x y hx hy h =>
    have ey : (((c.p - y) % c.p : Nat) : ZMod c.p) = c.weierstrass.negY x y := by
      rw [ZMod.natCast_mod, Nat.cast_sub hy.le]
      simp [WeierstrassCurve.Affine.negY, Curve.weierstrass]
    exact Denotes.of_cast c hx (Nat.mod_lt _ c.p_pos) rfl ey _

end

end Sys2Proof
end

