-- ==== Sys2Proof/Laws/Jacobian.lean ====
section
/-! SUPPORT. What the Jacobian formulas of R604 and R605 denote, and that the ladder computes `ECMUL` (R700, R707). -/

namespace Sys2Proof

/-- The library's point that a Jacobian triple denotes (R15): `0` for `Z = 0`, else the affine point `(X/Z², Y/Z³)`. -/
structure JacDenotes (c : Curve) [Fact c.p.Prime] (J : Jac) (A : c.weierstrass.Point) : Prop where
  x_lt : J.x < c.p
  y_lt : J.y < c.p
  z_lt : J.z < c.p
  inf : J.z = 0 → A = 0
  point : J.z ≠ 0 → ∃ (X Y : ZMod c.p) (h : c.weierstrass.Nonsingular X Y), A = .some X Y h ∧
    (J.x : ZMod c.p) = X * (J.z : ZMod c.p) ^ 2 ∧ (J.y : ZMod c.p) = Y * (J.z : ZMod c.p) ^ 3

section
variable (c : Curve) [Fact c.p.Prime]

theorem JacDenotes.of_inf : JacDenotes c .inf 0 where
  x_lt := c.one_lt_p
  y_lt := c.one_lt_p
  z_lt := c.p_pos
  inf := fun _ => rfl
  point := fun h => absurd rfl h

/-- An affine point with `Z = 1` (R610). -/
theorem JacDenotes.of_affine {x y : Nat} {A : c.weierstrass.Point} (h : Denotes c (.affine x y) A) :
    JacDenotes c ⟨x, y, 1⟩ A := by
  cases h with
  | affine hx hy h =>
    exact ⟨hx, hy, c.one_lt_p, fun h0 => absurd h0 one_ne_zero, fun _ => ⟨_, _, h, rfl, by simp, by simp⟩⟩

theorem JacDenotes.z_cast_ne {J : Jac} {A : c.weierstrass.Point} (hJ : JacDenotes c J A) (hz : J.z ≠ 0) :
    (J.z : ZMod c.p) ≠ 0 := fun h => hz ((natCast_eq_zero_of_lt hJ.z_lt).1 h)

/-- On the curve, only `INF` has `Z = 0`. -/
theorem JacDenotes.eq_zero_iff {J : Jac} {A : c.weierstrass.Point} (hJ : JacDenotes c J A) : J.z = 0 ↔ A = 0 := by
  refine ⟨hJ.inf, fun hA => ?_⟩
  by_contra hz
  obtain ⟨X, Y, h, rfl, -, -⟩ := hJ.point hz
  exact WeierstrassCurve.Affine.Point.some_ne_zero _ hA

/-- A triple of residues with the right affine value. -/
theorem JacDenotes.of_some {J : Jac} {X Y : ZMod c.p} (h : c.weierstrass.Nonsingular X Y) (hx : J.x < c.p)
    (hy : J.y < c.p) (hz : J.z < c.p) (hz0 : (J.z : ZMod c.p) ≠ 0) (ex : (J.x : ZMod c.p) = X * (J.z : ZMod c.p) ^ 2)
    (ey : (J.y : ZMod c.p) = Y * (J.z : ZMod c.p) ^ 3) : JacDenotes c J (.some X Y h) :=
  ⟨hx, hy, hz, fun h0 => absurd (by rw [h0, Nat.cast_zero]) hz0, fun _ => ⟨X, Y, h, rfl, ex, ey⟩⟩

/-- `JDBL` is doubling (R604). -/
theorem jdbl_denotes {J : Jac} {A : c.weierstrass.Point} (hJ : JacDenotes c J A) : JacDenotes c (jdbl c J) (A + A) := by
  unfold jdbl
  by_cases h0 : J.z = 0 ∨ J.y = 0
  · rw [if_pos h0]
    have hA : A + A = 0 := by
      by_cases hz : J.z = 0
      · rw [hJ.inf hz, add_zero]
      · obtain ⟨X, Y, h, rfl, -, ey⟩ := hJ.point hz
        have hy : J.y = 0 := h0.resolve_left hz
        have hY : Y = 0 := by
          rw [hy, Nat.cast_zero] at ey
          exact (mul_eq_zero.1 ey.symm).resolve_right (pow_ne_zero _ (hJ.z_cast_ne c hz))
        apply WeierstrassCurve.Affine.Point.add_self_of_Y_eq
        simp [WeierstrassCurve.Affine.negY, Curve.weierstrass, hY]
    rw [hA]
    exact .of_inf c
  · rw [if_neg h0]
    simp only [not_or] at h0
    obtain ⟨X, Y, h, rfl, ex, ey⟩ := hJ.point h0.1
    have hz := hJ.z_cast_ne c h0.1
    have hp := c.p_pos
    have hyc : (J.y : ZMod c.p) ≠ 0 := fun h => h0.2 ((natCast_eq_zero_of_lt hJ.y_lt).1 h)
    have hY : Y ≠ 0 := fun h => hyc (by rw [ey, h, zero_mul])
    have h2 := c.two_ne_zero
    have hne : Y ≠ c.weierstrass.negY X Y := by
      intro he
      simp only [WeierstrassCurve.Affine.negY, Curve.weierstrass] at he
      have : 2 * Y = 0 := by linear_combination he
      exact (mul_ne_zero h2 hY) this
    rw [WeierstrassCurve.Affine.Point.add_self_of_Y_ne hne]
    have hl : c.weierstrass.slope X X Y Y * (2 * Y) = 3 * X ^ 2 + c.a := by
      rw [WeierstrassCurve.Affine.slope_of_Y_ne rfl hne]
      have : Y - c.weierstrass.negY X Y = 2 * Y := by
        simp only [WeierstrassCurve.Affine.negY, Curve.weierstrass]; ring
      rw [this, div_mul_cancel₀ _ (mul_ne_zero h2 hY)]
      simp only [Curve.weierstrass]
      ring
    have hco : ∀ z : Int, (((residue z c.p : Nat) : Int).toNat : ZMod c.p) = (z : ZMod c.p) := by
      intro z; rw [Int.toNat_natCast, residue_cast _ hp]
    refine .of_some c _ ?_ ?_ ?_ ?_ ?_ ?_
    · simpa using residue_lt _ hp
    · exact residue_lt _ hp
    · dsimp only; exact residue_lt _ hp
    · rw [residue_cast _ hp]
      push_cast
      exact mul_ne_zero (mul_ne_zero h2 hyc) hz
    · simp only [Int.toNat_natCast, residue_cast _ hp]
      push_cast
      simp only [residue_cast _ hp]
      push_cast
      rw [ex, ey]
      simp only [WeierstrassCurve.Affine.addX, c.weierstrass_a₁, c.weierstrass_a₂]
      linear_combination (-(J.z : ZMod c.p) ^ 8 * (c.weierstrass.slope X X Y Y * (2 * Y) + (3 * X ^ 2 + c.a))) * hl
    · simp only [residue_cast _ hp]
      push_cast
      simp only [residue_cast _ hp]
      push_cast
      simp only [residue_cast _ hp]
      push_cast
      rw [ex, ey]
      simp only [WeierstrassCurve.Affine.addY, WeierstrassCurve.Affine.negAddY, WeierstrassCurve.Affine.negY,
        WeierstrassCurve.Affine.addX, c.weierstrass_a₁, c.weierstrass_a₂, c.weierstrass_a₃]
      have hM : 3 * X ^ 2 + (c.a : ZMod c.p) = c.weierstrass.slope X X Y Y * (2 * Y) := hl.symm
      have ha : (c.a : ZMod c.p) = c.weierstrass.slope X X Y Y * (2 * Y) - 3 * X ^ 2 := by linear_combination hM
      rw [ha]
      ring

/-- `JSUM` is addition (R605). -/
theorem jsum_denotes {P Q : Jac} {A B : c.weierstrass.Point} (hP : JacDenotes c P A) (hQ : JacDenotes c Q B) :
    JacDenotes c (jsum c P Q) (A + B) := by
  unfold jsum
  by_cases h1 : P.z = 0
  · rw [hP.inf h1, zero_add]
    by_cases h2 : Q.z = 0
    · rw [if_pos ⟨h1, h2⟩, hQ.inf h2]
      exact .of_inf c
    · rw [if_neg (fun h => h2 h.2), if_pos h1]
      exact hQ
  · rw [if_neg (fun h => h1 h.1), if_neg h1]
    by_cases h2 : Q.z = 0
    · rw [if_pos h2, hQ.inf h2, add_zero]
      exact hP
    · rw [if_neg h2]
      dsimp only
      obtain ⟨X1, Y1, n1, rfl, ex1, ey1⟩ := hP.point h1
      obtain ⟨X2, Y2, n2, rfl, ex2, ey2⟩ := hQ.point h2
      have hz1 := hP.z_cast_ne c h1
      have hz2 := hQ.z_cast_ne c h2
      have hp := c.p_pos
      generalize hU1 : residue (P.x * (Q.z * Q.z : Int)) c.p = U1
      generalize hU2 : residue (Q.x * (P.z * P.z : Int)) c.p = U2
      generalize hS1 : residue (P.y * (Q.z * Q.z * Q.z : Int)) c.p = S1
      generalize hS2 : residue (Q.y * (P.z * P.z * P.z : Int)) c.p = S2
      have eU1 : (U1 : ZMod c.p) = X1 * ((P.z : ZMod c.p) * Q.z) ^ 2 := by
        rw [← hU1, residue_cast _ hp]; push_cast; rw [ex1]; ring
      have eU2 : (U2 : ZMod c.p) = X2 * ((P.z : ZMod c.p) * Q.z) ^ 2 := by
        rw [← hU2, residue_cast _ hp]; push_cast; rw [ex2]; ring
      have eS1 : (S1 : ZMod c.p) = Y1 * ((P.z : ZMod c.p) * Q.z) ^ 3 := by
        rw [← hS1, residue_cast _ hp]; push_cast; rw [ey1]; ring
      have eS2 : (S2 : ZMod c.p) = Y2 * ((P.z : ZMod c.p) * Q.z) ^ 3 := by
        rw [← hS2, residue_cast _ hp]; push_cast; rw [ey2]; ring
      have hHlt := residue_lt ((U2 : Int) - U1) hp
      have hRlt := residue_lt ((S2 : Int) - S1) hp
      have eH : ((residue ((U2 : Int) - U1) c.p : Nat) : ZMod c.p) = (X2 - X1) * ((P.z : ZMod c.p) * Q.z) ^ 2 := by
        rw [residue_cast _ hp]; push_cast; rw [eU1, eU2]; ring
      have eR : ((residue ((S2 : Int) - S1) c.p : Nat) : ZMod c.p) = (Y2 - Y1) * ((P.z : ZMod c.p) * Q.z) ^ 3 := by
        rw [residue_cast _ hp]; push_cast; rw [eS1, eS2]; ring
      generalize residue ((U2 : Int) - U1) c.p = H at *
      generalize residue ((S2 : Int) - S1) c.p = R at *
      have hzz : (P.z : ZMod c.p) * Q.z ≠ 0 := mul_ne_zero hz1 hz2
      by_cases hH : H = 0
      · have hX : X1 = X2 := by
          rw [hH, Nat.cast_zero] at eH
          exact (sub_eq_zero.1 ((mul_eq_zero.1 eH.symm).resolve_right (pow_ne_zero _ hzz))).symm
        simp only [hH, Nat.cast_zero, if_true]
        by_cases hR : R = 0
        · have hY : Y1 = Y2 := by
            rw [hR, Nat.cast_zero] at eR
            exact (sub_eq_zero.1 ((mul_eq_zero.1 eR.symm).resolve_right (pow_ne_zero _ hzz))).symm
          subst hX hY
          simp only [hR, Nat.cast_zero, if_true]
          exact jdbl_denotes c hP
        · rw [if_neg (by exact_mod_cast hR)]
          have hY : Y1 ≠ Y2 := by
            intro h
            apply hR
            rw [← natCast_eq_zero_of_lt hRlt, eR, h, sub_self, zero_mul]
          have hneg : Y1 = c.weierstrass.negY X2 Y2 :=
            (WeierstrassCurve.Affine.Y_eq_of_X_eq n1.1 n2.1 hX).resolve_left hY
          rw [WeierstrassCurve.Affine.Point.add_of_Y_eq hX hneg]
          exact .of_inf c
      · rw [if_neg (by exact_mod_cast hH)]
        have hHc : (H : ZMod c.p) ≠ 0 := fun h => hH ((natCast_eq_zero_of_lt hHlt).1 h)
        have hX : X1 ≠ X2 := by
          intro h
          rw [eH, h, sub_self, zero_mul] at hHc
          exact hHc rfl
        rw [WeierstrassCurve.Affine.Point.add_of_X_ne hX]
        have hl : c.weierstrass.slope X1 X2 Y1 Y2 * (X2 - X1) = Y2 - Y1 := by
          rw [WeierstrassCurve.Affine.slope_of_X_ne hX, ← neg_sub X1 X2, ← neg_sub Y1 Y2, mul_neg,
            div_mul_cancel₀ _ (sub_ne_zero.2 hX)]
        rw [← hl] at eR
        refine .of_some c _ ?_ ?_ ?_ ?_ ?_ ?_
        · simpa using residue_lt _ hp
        · exact residue_lt _ hp
        · dsimp only; exact residue_lt _ hp
        · rw [residue_cast _ hp]
          push_cast
          exact mul_ne_zero (mul_ne_zero hHc hz1) hz2
        · simp only [Int.toNat_natCast, residue_cast _ hp]
          push_cast
          rw [eR, eH, eU1]
          simp only [WeierstrassCurve.Affine.addX, c.weierstrass_a₁, c.weierstrass_a₂]
          ring
        · simp only [residue_cast _ hp]
          push_cast
          simp only [residue_cast _ hp]
          push_cast
          rw [eR, eH, eU1, eS1]
          simp only [WeierstrassCurve.Affine.addY, WeierstrassCurve.Affine.negAddY, WeierstrassCurve.Affine.negY,
            WeierstrassCurve.Affine.addX, c.weierstrass_a₁, c.weierstrass_a₂, c.weierstrass_a₃]
          ring

/-- The canonical form denotes the same point (R600). -/
theorem canonical_denotes {J : Jac} {A : c.weierstrass.Point} (hJ : JacDenotes c J A) : JacDenotes c J.canonical A := by
  unfold Jac.canonical
  by_cases h : J.z = 0
  · rw [if_pos h, hJ.inf h]
    exact .of_inf c
  · rw [if_neg h]
    exact hJ

/-- The unified mixed adder is addition of an affine point or `INF` (R640). -/
theorem mixedAdd_denotes {J : Jac} {A B : c.weierstrass.Point} {x y : Nat} (hJ : JacDenotes c J A)
    (hB : (x = 0 ∧ y = 0 ∧ B = 0) ∨ Denotes c (.affine x y) B) : JacDenotes c (mixedAdd c J x y) (A + B) := by
  unfold mixedAdd
  apply canonical_denotes
  rcases hB with ⟨rfl, rfl, rfl⟩ | hB
  · rw [if_pos ⟨rfl, rfl⟩, add_zero]
    by_cases hz : J.z = 0
    · rw [if_pos hz, hJ.inf hz]
      exact .of_inf c
    · rw [if_neg hz]
      exact hJ
  · rw [if_neg ((validPoint_iff c x y).1 (hB.valid c)).1]
    by_cases hz : J.z = 0
    · rw [if_pos hz, hJ.inf hz, zero_add]
      exact .of_affine c hB
    · rw [if_neg hz]
      exact jsum_denotes c hJ (.of_affine c hB)

/-- `J2A` gives the affine point (R620). -/
theorem jacToAffine_denotes {J : Jac} {A : c.weierstrass.Point} (hJ : JacDenotes c J A) :
    Denotes c (jacToAffine c J) A := by
  unfold jacToAffine
  by_cases hz : J.z = 0
  · rw [if_pos hz, hJ.inf hz]
    exact .inf
  · rw [if_neg hz]
    obtain ⟨X, Y, h, rfl, ex, ey⟩ := hJ.point hz
    have hz0 := hJ.z_cast_ne c hz
    have hp := c.p_pos
    refine .of_cast c (residue_lt _ hp) (residue_lt _ hp) ?_ ?_ _
    · rw [residue_cast _ hp]
      push_cast
      rw [invMod_cast_inv c hz0, ex]
      field_simp
    · rw [residue_cast _ hp]
      push_cast
      rw [invMod_cast_inv c hz0, ey]
      field_simp

/-- `i` iterations take `m·P` to `(2^i·m + (k mod 2^i))·P` (R707). -/
theorem ladder_denotes {x y : Nat} {A : c.weierstrass.Point} (hA : Denotes c (.affine x y) A) (k : Nat) :
    ∀ (i m : Nat) (R : Jac), JacDenotes c R (m • A) → JacDenotes c (ladder c x y k i R) ((2 ^ i * m + k % 2 ^ i) • A) := by
  intro i
  induction i with
  | zero => intro m R hR; simpa [ladder, Nat.mod_one] using hR
  | succ i ih =>
    intro m R hR
    have hD := jdbl_denotes c hR
    rw [← two_nsmul, smul_smul] at hD
    have hmod : k % 2 ^ (i + 1) = 2 ^ i * (if k.testBit i then 1 else 0) + k % 2 ^ i := by
      rw [Nat.testBit_eq_decide_div_mod_eq, pow_succ, Nat.mod_mul]
      have : k / 2 ^ i % 2 < 2 := Nat.mod_lt _ (by norm_num)
      interval_cases h : k / 2 ^ i % 2 <;> simp <;> ring
    rw [hmod]
    unfold ladder ladderStep
    cases hb : k.testBit i with
    | true =>
      have hT := mixedAdd_denotes c hD (.inr hA)
      rw [← succ_nsmul] at hT
      have := ih _ _ hT
      simp only [if_true]
      convert this using 2
      ring
    | false =>
      have := ih _ _ hD
      simp only [Bool.false_eq_true, if_false]
      convert this using 2
      ring

/-- `ScalarMul` is the multiple for every scalar of at most `nbits` bits. -/
theorem scalarMul_denotes {P : Point} {A : c.weierstrass.Point} (hA : Denotes c P A) {k : Nat} (hk : k < 2 ^ c.nbits) :
    Denotes c (scalarMul c k P) (k • A) := by
  cases P with
  | inf => cases hA; rw [nsmul_zero]; exact .inf
  | affine x y =>
    have h0 : JacDenotes c .inf (0 • A) := by rw [zero_nsmul]; exact .of_inf c
    have h := ladder_denotes c hA k c.nbits 0 .inf h0
    rw [mul_zero, zero_add, Nat.mod_eq_of_lt hk] at h
    exact jacToAffine_denotes c h

end

end Sys2Proof
end

