-- ==== Sys2Proof/Machine/Layout.lean ====
section
/-! DEFINITION. The external byte layouts of R230 and R231: a contract of the surrounding software, beside the machine (R7).
The block exchanges integers in slots; these functions say what bytes a host makes of them (log 18). -/

namespace Sys2Proof.Layout

/-- Byte string of a layout. -/
abbrev Bytes := List (BitVec 8)

/-- An integer in a field of `L` bytes, big-endian and fixed-width; it needs `v < 2^(8·L)` (R231). -/
def fieldBytes (L v : Nat) : Option Bytes :=
  if v < 2 ^ (8 * L) then some ((List.range L).map fun i => BitVec.ofNat 8 (v / 256 ^ (L - 1 - i))) else none

/-- The integer of a field, `int_be` of its bytes (R13, R231). -/
def fieldInt (bs : Bytes) : Nat := bs.foldl (fun acc b => acc * 256 + b.toNat) 0

/-- Private key `d`: `NBn` bytes (R230). -/
def privateKey (c : Curve) (d : Nat) : Option Bytes := fieldBytes c.nbn d

/-- Uncompressed public key: `x ‖ y`, each `NBp` bytes (R230). -/
def publicKey (c : Curve) (x y : Nat) : Option Bytes := do
  let bx ← fieldBytes c.nbp x
  let by' ← fieldBytes c.nbp y
  pure (bx ++ by')

/-- The prefix byte of a compressed public key: 0x02 if `y` is even and 0x03 if `y` is odd (R230). -/
def prefixByte (y : Nat) : BitVec 8 := if y % 2 = 0 then 0x02 else 0x03

/-- Compressed public key of `(x, y)`: the prefix byte, then `x` in `NBp` bytes (R230). -/
def compressedKey (c : Curve) (x y : Nat) : Option Bytes := do
  let bx ← fieldBytes c.nbp x
  pure (prefixByte y :: bx)

/-- Signature: `r ‖ s`, each `NBp` bytes (R230, C2). -/
def signature (c : Curve) (r s : Nat) : Option Bytes := do
  let br ← fieldBytes c.nbp r
  let bs ← fieldBytes c.nbp s
  pure (br ++ bs)

/-- Shared secret: `x` in `NBp` bytes (R230). -/
def sharedSecret (c : Curve) (x : Nat) : Option Bytes := fieldBytes c.nbp x

end Sys2Proof.Layout
end

