-- ==== Sys2Proof/Laws/Layout.lean ====
section
/-! SUPPORT. The external layouts: a field gives its integer back, and the prefix byte is the integer COMPRESS writes. -/

namespace Sys2Proof.Layout

/-- The value of big-endian bytes, most significant first, one byte appended. -/
theorem fieldInt_append (bs : Bytes) (b : BitVec 8) : fieldInt (bs ++ [b]) = fieldInt bs * 256 + b.toNat := by
  simp [fieldInt]

/-- The first `k` bytes of an `L`-byte field hold the integer's quotient by the rest. -/
theorem fieldInt_take (L v : Nat) (hv : v < 256 ^ L) : ∀ k, k ≤ L →
    fieldInt ((List.range k).map fun i => BitVec.ofNat 8 (v / 256 ^ (L - 1 - i))) = v / 256 ^ (L - k)
  | 0, _ => by simpa [fieldInt] using (Nat.div_eq_of_lt hv).symm
  | k + 1, hk => by
    have e : L - k = L - 1 - k + 1 := by omega
    rw [List.range_succ, List.map_append, List.map_singleton, fieldInt_append, fieldInt_take L v hv k (by omega), e,
      Nat.pow_succ, ← Nat.div_div_eq_div_mul, Nat.sub_sub, Nat.add_comm 1 k]
    simp only [BitVec.toNat_ofNat]
    omega

/-- R231: a field has its width, and its integer is the value written to it. -/
theorem fieldBytes_spec {L v : Nat} {bs : Bytes} (h : fieldBytes L v = some bs) : bs.length = L ∧ fieldInt bs = v := by
  unfold fieldBytes at h
  split at h
  · next hv =>
    cases h
    refine ⟨by simp, ?_⟩
    simpa using fieldInt_take L v (by simpa [pow_mul] using hv) L le_rfl
  · cases h

/-- R231: a field holds exactly the values below `2^(8·L)`. -/
theorem fieldBytes_isSome (L v : Nat) : (fieldBytes L v).isSome = true ↔ v < 2 ^ (8 * L) := by
  unfold fieldBytes
  split <;> simp [*]

/-- R860: the prefix byte of the layout is the integer `2 + (y mod 2)` of COMPRESS's prefix slot. -/
theorem prefixByte_toNat (y : Nat) : (prefixByte y).toNat = 2 + y % 2 := by
  unfold prefixByte
  split
  · simp [*]
  · have : y % 2 = 1 := by omega
    simp [this]

/-- R230: a compressed key has `NBp + 1` bytes: the prefix byte, then the field of `x`. -/
theorem compressedKey_spec {c : Curve} {x y : Nat} {bs : Bytes} (h : compressedKey c x y = some bs) :
    ∃ bx, bs = prefixByte y :: bx ∧ bx.length = c.nbp ∧ fieldInt bx = x := by
  unfold compressedKey at h
  obtain ⟨bx, hx, rfl⟩ : ∃ bx, fieldBytes c.nbp x = some bx ∧ prefixByte y :: bx = bs := by
    simpa [Option.bind_eq_some_iff] using h
  exact ⟨bx, rfl, (fieldBytes_spec hx).1, (fieldBytes_spec hx).2⟩

end Sys2Proof.Layout
end

