-- ==== Sys2Proof/Laws/Order.lean ====
section
/-! SUPPORT. The group of each curve has order exactly `n` (R142): `n·G = INF`, no point of order 2, and fewer than `3n`
points. So every affine point of the curve has order `n`, and `k·P` is not `INF` for `1 ≤ k ≤ n - 1`. -/

namespace Sys2Proof

/-! ## `x³ + a·x + b` has no root, so no point has `y = 0` -/

/-- A polynomial of degree at most 2 modulo `x³ + a·x + b`, its coefficients from the constant one on. -/
structure Quad where
  c0 : Nat
  c1 : Nat
  c2 : Nat
  deriving DecidableEq

/-- The product modulo the cubic and modulo `p`. -/
def Quad.mul (c : Curve) (u v : Quad) : Quad :=
  let d0 := u.c0 * v.c0
  let d1 := u.c0 * v.c1 + u.c1 * v.c0
  let d2 := u.c0 * v.c2 + u.c1 * v.c1 + u.c2 * v.c0
  let d3 := u.c1 * v.c2 + u.c2 * v.c1
  let d4 := u.c2 * v.c2
  ⟨(d0 + (c.p - c.b) * d3) % c.p, (d1 + (c.p - c.a) * d3 + (c.p - c.b) * d4) % c.p, (d2 + (c.p - c.a) * d4) % c.p⟩

/-- Square and multiply. -/
def Quad.pow (c : Curve) : Nat → Quad → Nat → Quad → Quad
  | 0, _, _, acc => acc
  | fuel + 1, u, e, acc => Quad.pow c fuel (u.mul c u) (e / 2) (if e % 2 = 1 then acc.mul c u else acc)

/-- `x^p` modulo the cubic. -/
def Curve.frobenius (c : Curve) : Quad := Quad.pow c c.pbits ⟨0, 1, 0⟩ c.p ⟨1, 0, 0⟩

/-- Coefficients of `A = a0 + a1·x` and `B = b0 + b1·x + b2·x²` with `A·f + B·(x^p - x) = 1` modulo the cubic's own
multiples, where `f = x³ + a·x + b`. -/
structure BezoutCert where
  a0 : Nat
  a1 : Nat
  b0 : Nat
  b1 : Nat
  b2 : Nat

def Curve.bezout : Curve → BezoutCert
  | .secp160r1 => ⟨0xE853DDA28D85D97D02ECCCAC1D7026DE76978C8A, 0xE0C933DE753972A3ED38B28507CA3255E38B8853,
      0xC7B5256EF86C6A009D2AE65AC792C404B44A5037,
      0x485572BB49CE0261D9784C2A79F1A2B95AEF9EE4,
      0x89EBBF216D65C8BA63F249476ADD5B3FA2BE30F6⟩
  | .secp192r1 => ⟨0x85704EF060C790B71C2AB562244B2AC723EBE69DC1678E7, 0x655CA455A71F18D11749B690E677B05CABFEC772C1E244C8,
      0x7D7D3677298D126E9C139A383A39B775C25F4554658D2119,
      0xC6AABB3906C7BAD6E1A2F11F58CC6D1F359D787AEF929D0F,
      0x44E7DF8DDD6646FC8C51E95334AFF5EAE0CB98A960C2FA6⟩
  | .secp224r1 => ⟨0x56211205EC2E9D382015FC5B47B669B9A905A357744436BA8CB97D42, 0xB66A51B0E2A1220BAD6CD5A771A3B5A73C2359128BD73D3C1EFC937B,
      0xBFB0C7416CEF2338924950EA297BABA9A45A8C19E56D07522BD2DC8,
      0x2A3B0FC55481FE7547493ED752409B4196872E39038F751A4BFD5D05,
      0x59A2DB6EB892F815D2E402ECA1CE1637EC1ED57EE546B67E75D09DCC⟩
  | .secp256r1 => ⟨0xED31F3B7E1F57596F80C37F95AE2665123A4AE100C3FD1B79E0FD4FA86C24540, 0xE2064682E0B89B67347009D7A074489E0BA61223CA75A16AF0484BD16BC9DDC,
      0xA969487079F1744798BF0DE6FDED091B66E9D328EB0645FE5D979D1339B7F47F,
      0xA4A08891884100C13323460107A8D28EEDE4387FA3E6E9BFEBEC9F6D72D0B5CC,
      0x4CDE11CF86CB876CD59CF0115813C55AF0ECD3CDA667D98BB9A347A56AA74A6D⟩
  | .secp256k1 => ⟨0xDB6DB6DB6DB6DB6DB6DB6DB6DB6DB6DB6DB6DB6DB6DB6DB6DB6DB6DA9249214D, 0x0,
      0x0,
      0x0,
      0x676072C51D36AB00C84DEB078E4BA0FEEF17A1F9626D375046274E4AB01347C8⟩

/-- The five coefficients of `A·f + B·(x^p - x) - 1`. -/
def Curve.bezoutOk (c : Curve) : Bool :=
  let k := c.bezout
  let g := c.frobenius
  let g1 := g.c1 + (c.p - 1)
  (k.a0 * c.b + k.b0 * g.c0) % c.p = 1 &&
  (k.a0 * c.a + k.a1 * c.b + k.b0 * g1 + k.b1 * g.c0) % c.p = 0 &&
  (k.a1 * c.a + k.b0 * g.c2 + k.b1 * g1 + k.b2 * g.c0) % c.p = 0 &&
  (k.a0 + k.b1 * g.c2 + k.b2 * g1) % c.p = 0 &&
  (k.a1 + k.b2 * g.c2) % c.p = 0

theorem Curve.bezoutOk_true (c : Curve) : c.bezoutOk = true := by
  cases c <;> decide +kernel

/-- The value at `r`. -/
def Quad.eval (p : Nat) (u : Quad) (r : ZMod p) : ZMod p := u.c0 + u.c1 * r + u.c2 * r ^ 2

theorem Curve.a_le (c : Curve) : c.a ≤ c.p := by cases c <;> decide
theorem Curve.b_le (c : Curve) : c.b ≤ c.p := by cases c <;> decide

theorem Quad.eval_mul (c : Curve) (u v : Quad) (r : ZMod c.p) (hr : r ^ 3 + c.a * r + c.b = 0) :
    (u.mul c v).eval c.p r = u.eval c.p r * v.eval c.p r := by
  simp only [Quad.eval, Quad.mul, ZMod.natCast_mod]
  push_cast [Nat.cast_sub c.a_le, Nat.cast_sub c.b_le]
  simp only [CharP.cast_eq_zero]
  linear_combination (-((u.c1 : ZMod c.p) * v.c2 + u.c2 * v.c1) - u.c2 * v.c2 * r) * hr

theorem Quad.eval_pow (c : Curve) (r : ZMod c.p) (hr : r ^ 3 + c.a * r + c.b = 0) : ∀ (fuel : Nat) (u : Quad) (e : Nat)
    (acc : Quad), e < 2 ^ fuel → (Quad.pow c fuel u e acc).eval c.p r = acc.eval c.p r * u.eval c.p r ^ e := by
  intro fuel
  induction fuel with
  | zero => intro u e acc he; simp [Quad.pow, show e = 0 by simpa using he]
  | succ fuel ih =>
    intro u e acc he
    have he2 : e / 2 < 2 ^ fuel := by rw [pow_succ] at he; omega
    unfold Quad.pow
    rw [ih _ _ _ he2, Quad.eval_mul c u u r hr]
    by_cases ho : e % 2 = 1
    · rw [if_pos ho, Quad.eval_mul c acc u r hr]
      conv_rhs => rw [show e = 2 * (e / 2) + 1 by omega, pow_succ, pow_mul]
      ring
    · rw [if_neg ho]
      conv_rhs => rw [show e = 2 * (e / 2) by omega, pow_mul]
      ring

/-- No element of the field is a root of `x³ + a·x + b` (R142: no point has `y = 0`). -/
theorem Curve.cubic_ne_zero (c : Curve) (r : ZMod c.p) : r ^ 3 + c.a * r + c.b ≠ 0 := by
  intro hr
  have : Fact c.p.Prime := ⟨c.p_prime⟩
  have hf := Quad.eval_pow c r hr c.pbits ⟨0, 1, 0⟩ c.p ⟨1, 0, 0⟩ (lt_two_pow_bitlen _)
  have hx : c.frobenius.eval c.p r = r := by
    unfold Curve.frobenius
    rw [hf]
    simp only [Quad.eval, Nat.cast_zero, Nat.cast_one, zero_mul, one_mul, add_zero, zero_add]
    exact ZMod.pow_card r
  have hk := c.bezoutOk_true
  unfold Curve.bezoutOk at hk
  simp only [Bool.and_eq_true, decide_eq_true_eq] at hk
  obtain ⟨⟨⟨⟨h0, h1⟩, h2⟩, h3⟩, h4⟩ := hk
  have cast0 : ∀ v : Nat, v % c.p = 0 → ((v : Nat) : ZMod c.p) = 0 := fun v hv => by
    rw [ZMod.natCast_eq_zero_iff]; exact Nat.dvd_of_mod_eq_zero hv
  have e0 : ((c.bezout.a0 * c.b + c.bezout.b0 * c.frobenius.c0 : Nat) : ZMod c.p) = 1 := by
    rw [← ZMod.natCast_mod, h0, Nat.cast_one]
  have e1 := cast0 _ h1
  have e2 := cast0 _ h2
  have e3 := cast0 _ h3
  have e4 := cast0 _ h4
  have hp1 : ((c.p - 1 : Nat) : ZMod c.p) = -1 := by
    rw [Nat.cast_sub c.p_pos, CharP.cast_eq_zero, Nat.cast_one, zero_sub]
  push_cast [hp1] at e0 e1 e2 e3 e4
  unfold Quad.eval at hx
  have : (1 : ZMod c.p) = 0 := by
    linear_combination -e0 - r * e1 - r ^ 2 * e2 - r ^ 3 * e3 - r ^ 4 * e4 +
      ((c.bezout.a0 : ZMod c.p) + c.bezout.a1 * r) * hr +
      ((c.bezout.b0 : ZMod c.p) + c.bezout.b1 * r + c.bezout.b2 * r ^ 2) * hx
  exact one_ne_zero this

/-! ## `n·G = INF` -/

theorem Curve.G_valid (c : Curve) : validPoint c c.gx c.gy = true := by
  cases c <;> decide +kernel

theorem Curve.scalarMul_n_G (c : Curve) : scalarMul c c.n c.G = .inf := by
  cases c <;> decide +kernel

section
variable (c : Curve) [Fact c.p.Prime]

theorem nsmul_G_eq_zero {A : c.weierstrass.Point} (hA : Denotes c c.G A) : c.n • A = 0 :=
  ((scalarMul_denotes c hA c.n_lt_nbits).eq_inf_iff c).1 c.scalarMul_n_G

theorem addOrderOf_G {A : c.weierstrass.Point} (hA : Denotes c c.G A) : addOrderOf A = c.n := by
  have : Fact c.n.Prime := ⟨c.n_prime⟩
  refine addOrderOf_eq_prime (nsmul_G_eq_zero c hA) ?_
  intro h
  exact absurd ((hA.eq_inf_iff c).2 h) (by simp [Curve.G])

/-! ## The number of points -/

/-- The abscissa, with that of `INF` anywhere. -/
def pointX : c.weierstrass.Point → ZMod c.p
  | .zero => 0
  | .some x _ _ => x

theorem point_finite : Finite c.weierstrass.Point := by
  refine Finite.of_injective (β := Option (ZMod c.p × ZMod c.p))
    (fun P => match P with | .zero => none | .some x y _ => some (x, y)) ?_
  intro P Q h
  cases P <;> cases Q <;> simp_all

theorem three_n_gt (c : Curve) : 2 * c.p + 1 < 3 * c.n := by cases c <;> decide

/-- At most two points share an abscissa, so there are at most `2p + 1`. -/
theorem card_point_le : Nat.card c.weierstrass.Point ≤ 2 * c.p + 1 := by
  classical
  have := point_finite c
  have : Fintype c.weierstrass.Point := Fintype.ofFinite _
  rw [Nat.card_eq_fintype_card, ← Finset.card_univ]
  have hsplit : (Finset.univ : Finset c.weierstrass.Point).card ≤ (Finset.univ.erase (0 : c.weierstrass.Point)).card + 1 := by
    rw [Finset.card_erase_of_mem (Finset.mem_univ _)]
    omega
  have hfib : (Finset.univ.erase (0 : c.weierstrass.Point)).card ≤
      2 * ((Finset.univ.erase (0 : c.weierstrass.Point)).image (pointX c)).card := by
    refine Finset.card_le_mul_card_image _ 2 ?_
    intro a ha
    obtain ⟨Q, hQ, rfl⟩ := Finset.mem_image.1 ha
    refine (Finset.card_le_card (t := {Q, -Q}) ?_).trans Finset.card_le_two
    intro P hP
    simp only [Finset.mem_filter, Finset.mem_erase] at hP hQ
    obtain ⟨⟨hP0, -⟩, hx⟩ := hP
    cases P with
    | zero => exact absurd rfl hP0
    | some x1 y1 h1 =>
      cases Q with
      | zero => exact absurd rfl hQ.1
      | some x2 y2 h2 =>
        simp only [Finset.mem_insert, Finset.mem_singleton]
        exact WeierstrassCurve.Affine.Point.X_eq_iff.1 hx
  have himg : ((Finset.univ.erase (0 : c.weierstrass.Point)).image (pointX c)).card ≤ c.p := by
    refine (Finset.card_le_univ _).trans ?_
    rw [ZMod.card]
  omega

/-- No point has order 2 (R142). -/
theorem no_order_two (A : c.weierstrass.Point) : addOrderOf A ≠ 2 := by
  intro h
  have h2 : A + A = 0 := by
    have := addOrderOf_nsmul_eq_zero A
    rwa [h, two_nsmul] at this
  have hneg := add_eq_zero_iff_eq_neg.1 h2
  cases A with
  | zero =>
    have : addOrderOf (0 : c.weierstrass.Point) = 1 := addOrderOf_zero
    rw [WeierstrassCurve.Affine.Point.zero_def] at this
    omega
  | some x y hxy =>
    rw [WeierstrassCurve.Affine.Point.neg_some, WeierstrassCurve.Affine.Point.some.injEq] at hneg
    have hy : y = 0 := by
      have h1 := hneg.2
      simp only [WeierstrassCurve.Affine.negY, c.weierstrass_a₁, c.weierstrass_a₃] at h1
      have : 2 * y = 0 := by linear_combination h1
      exact (mul_eq_zero.1 this).resolve_left c.two_ne_zero
    have heq := (WeierstrassCurve.Affine.equation_iff _ _).1 hxy.1
    apply c.cubic_ne_zero x
    simp only [Curve.weierstrass] at heq
    rw [hy] at heq
    linear_combination -heq

/-- The group has order exactly `n` (R142). -/
theorem card_point : Nat.card c.weierstrass.Point = c.n := by
  have := point_finite c
  obtain ⟨A, hA, -⟩ := exists_denotes c c.G_valid
  have hdvd : c.n ∣ Nat.card c.weierstrass.Point := by
    rw [← addOrderOf_G c hA]
    exact addOrderOf_dvd_natCard A
  obtain ⟨m, hm⟩ := hdvd
  have hle := card_point_le c
  have h3 := three_n_gt c
  have hpos : 0 < Nat.card c.weierstrass.Point := Nat.card_pos
  have hm3 : m < 3 := by
    by_contra h
    have : c.n * 3 ≤ c.n * m := Nat.mul_le_mul_left _ (by omega)
    omega
  have hm2 : m ≠ 2 := by
    rintro rfl
    have : Fact (Nat.Prime 2) := ⟨Nat.prime_two⟩
    obtain ⟨B, hB⟩ := exists_prime_addOrderOf_dvd_card' 2 (hm ▸ Nat.dvd_mul_left 2 c.n)
    exact no_order_two c B hB
  have hm0 : m ≠ 0 := by
    rintro rfl
    omega
  rw [hm, show m = 1 by omega, mul_one]

/-- Every point other than `INF` has order `n` (R142). -/
theorem addOrderOf_point {A : c.weierstrass.Point} (hA : A ≠ 0) : addOrderOf A = c.n := by
  have : Fact c.n.Prime := ⟨c.n_prime⟩
  refine addOrderOf_eq_prime ?_ hA
  rw [← card_point c]
  exact card_nsmul_eq_zero'

theorem nsmul_mod_n (k : Nat) (A : c.weierstrass.Point) : (k % c.n) • A = k • A := by
  by_cases hA : A = 0
  · rw [hA, nsmul_zero, nsmul_zero]
  · rw [← addOrderOf_point c hA]
    exact mod_addOrderOf_nsmul A k

/-- `k·P ≠ INF` for `1 ≤ k ≤ n - 1` (R142). -/
theorem nsmul_ne_zero {A : c.weierstrass.Point} (hA : A ≠ 0) {k : Nat} (h1 : k ≠ 0) (hn : k < c.n) : k • A ≠ 0 := by
  intro h
  have hd := addOrderOf_dvd_of_nsmul_eq_zero h
  rw [addOrderOf_point c hA] at hd
  exact absurd (Nat.le_of_dvd (Nat.pos_of_ne_zero h1) hd) (by omega)

end

end Sys2Proof
end

