-- ==== Sys2Proof/Laws/PerInstr.lean ====
section
/-! SUPPORT. A law of every command as syntax: the OP field of its word is the opcode of its row (R300, R310). -/

namespace Sys2Proof.Laws

/-- The word of a command carries its opcode in bits [7:0]. -/
def OpField.Statement (i : Instr) : Prop := opField (encode i) = i.opcode

theorem OpField.nop : OpField.Statement (.nop) :=
  opField_packWord _ _ _ _ _ _
theorem OpField.vadd (rd ra rb : SlotNo) (m : MSel) : OpField.Statement (.vadd rd ra rb m) :=
  opField_packWord _ _ _ _ _ _
theorem OpField.vsub (rd ra rb : SlotNo) (m : MSel) : OpField.Statement (.vsub rd ra rb m) :=
  opField_packWord _ _ _ _ _ _
theorem OpField.vmul (rd ra rb : SlotNo) (m : MSel) : OpField.Statement (.vmul rd ra rb m) :=
  opField_packWord _ _ _ _ _ _
theorem OpField.vsqr (rd ra : SlotNo) (m : MSel) : OpField.Statement (.vsqr rd ra m) :=
  opField_packWord _ _ _ _ _ _
theorem OpField.vshl1 (rd ra : SlotNo) (m : MSel) : OpField.Statement (.vshl1 rd ra m) :=
  opField_packWord _ _ _ _ _ _
theorem OpField.vshr1 (rd ra : SlotNo) (m : MSel) : OpField.Statement (.vshr1 rd ra m) :=
  opField_packWord _ _ _ _ _ _
theorem OpField.vcmp (ra rb : SlotNo) (m : MSel) : OpField.Statement (.vcmp ra rb m) :=
  opField_packWord _ _ _ _ _ _
theorem OpField.vbitlen (rd ra : SlotNo) (m : MSel) : OpField.Statement (.vbitlen rd ra m) :=
  opField_packWord _ _ _ _ _ _
theorem OpField.vtst (ra : SlotNo) (m : MSel) : OpField.Statement (.vtst ra m) :=
  opField_packWord _ _ _ _ _ _
theorem OpField.vsel (rd ra rb rc : SlotNo) (m : MSel) : OpField.Statement (.vsel rd ra rb rc m) :=
  opField_packWord _ _ _ _ _ _
theorem OpField.vmov (rd ra : SlotNo) : OpField.Statement (.vmov rd ra) :=
  opField_packWord _ _ _ _ _ _
theorem OpField.madd (rd ra rb : SlotNo) (m : MSel) : OpField.Statement (.madd rd ra rb m) :=
  opField_packWord _ _ _ _ _ _
theorem OpField.msub (rd ra rb : SlotNo) (m : MSel) : OpField.Statement (.msub rd ra rb m) :=
  opField_packWord _ _ _ _ _ _
theorem OpField.mmul (rd ra rb : SlotNo) (m : MSel) : OpField.Statement (.mmul rd ra rb m) :=
  opField_packWord _ _ _ _ _ _
theorem OpField.msqr (rd ra : SlotNo) (m : MSel) : OpField.Statement (.msqr rd ra m) :=
  opField_packWord _ _ _ _ _ _
theorem OpField.minv (rd ra : SlotNo) (m : MSel) : OpField.Statement (.minv rd ra m) :=
  opField_packWord _ _ _ _ _ _
theorem OpField.msqrt (rd ra : SlotNo) : OpField.Statement (.msqrt rd ra) :=
  opField_packWord _ _ _ _ _ _
theorem OpField.mred (rd ra : SlotNo) (m : MSel) : OpField.Statement (.mred rd ra m) :=
  opField_packWord _ _ _ _ _ _
theorem OpField.mmont (rd ra rb : SlotNo) (m : MSel) : OpField.Statement (.mmont rd ra rb m) :=
  opField_packWord _ _ _ _ _ _
theorem OpField.mtom (rd ra : SlotNo) (m : MSel) : OpField.Statement (.mtom rd ra m) :=
  opField_packWord _ _ _ _ _ _
theorem OpField.mfromm (rd ra : SlotNo) (m : MSel) : OpField.Statement (.mfromm rd ra m) :=
  opField_packWord _ _ _ _ _ _
theorem OpField.a2j (rd ra : SlotNo) : OpField.Statement (.a2j rd ra) :=
  opField_packWord _ _ _ _ _ _
theorem OpField.a2jz (rd ra rb : SlotNo) : OpField.Statement (.a2jz rd ra rb) :=
  opField_packWord _ _ _ _ _ _
theorem OpField.j2a (rd ra : SlotNo) : OpField.Statement (.j2a rd ra) :=
  opField_packWord _ _ _ _ _ _
theorem OpField.pdbl (rd ra : SlotNo) : OpField.Statement (.pdbl rd ra) :=
  opField_packWord _ _ _ _ _ _
theorem OpField.padd (rd ra rb : SlotNo) : OpField.Statement (.padd rd ra rb) :=
  opField_packWord _ _ _ _ _ _
theorem OpField.jadd (rd ra rb : SlotNo) : OpField.Statement (.jadd rd ra rb) :=
  opField_packWord _ _ _ _ _ _
theorem OpField.pneg (rd ra : SlotNo) : OpField.Statement (.pneg rd ra) :=
  opField_packWord _ _ _ _ _ _
theorem OpField.pchk (ra : SlotNo) : OpField.Statement (.pchk ra) :=
  opField_packWord _ _ _ _ _ _
theorem OpField.smul (rd ra rb : SlotNo) : OpField.Statement (.smul rd ra rb) :=
  opField_packWord _ _ _ _ _ _
theorem OpField.keygen (rd : SlotNo) : OpField.Statement (.keygen rd) :=
  opField_packWord _ _ _ _ _ _
theorem OpField.pubkey (rd ra : SlotNo) : OpField.Statement (.pubkey rd ra) :=
  opField_packWord _ _ _ _ _ _
theorem OpField.ecdh (rd ra rb : SlotNo) : OpField.Statement (.ecdh rd ra rb) :=
  opField_packWord _ _ _ _ _ _
theorem OpField.sign (rd ra : SlotNo) : OpField.Statement (.sign rd ra) :=
  opField_packWord _ _ _ _ _ _
theorem OpField.signk (rd ra rb : SlotNo) : OpField.Statement (.signk rd ra rb) :=
  opField_packWord _ _ _ _ _ _
theorem OpField.verify (ra rb : SlotNo) : OpField.Statement (.verify ra rb) :=
  opField_packWord _ _ _ _ _ _
theorem OpField.compress (rd ra : SlotNo) : OpField.Statement (.compress rd ra) :=
  opField_packWord _ _ _ _ _ _
theorem OpField.decompress (rd ra : SlotNo) : OpField.Statement (.decompress rd ra) :=
  opField_packWord _ _ _ _ _ _

end Sys2Proof.Laws
end

