-- ==== Sys2Proof/Laws/Scalar.lean ====
section
/-! SUPPORT. Scalar multiplication in the words of R700: `ScalarMul` is `ECMUL`, and it is not `INF` for a scalar in
`[1, n - 1]`. -/

namespace Sys2Proof

/-- `ScalarMul(k, P)` is `ECMUL(k, P)`, for every scalar of at most `nbits` bits (R700). -/
theorem scalarMul_eq_ecMul (c : Curve) {k x y : Nat} (hP : validPoint c x y = true) (hk : k < 2 ^ c.nbits) :
    scalarMul c k (.affine x y) = ecMul c k (.affine x y) := by
  have : Fact c.p.Prime := ⟨c.p_prime⟩
  obtain ⟨A, hA, -⟩ := exists_denotes c hP
  exact (scalarMul_denotes c hA hk).left_unique c (denotes_ecMul c hA k)

/-- A multiple of a valid point by `1 ≤ k ≤ n - 1` is a valid point (R142, R700). -/
theorem ecMul_valid (c : Curve) {k x y : Nat} (hP : validPoint c x y = true) (h1 : k ≠ 0) (hn : k < c.n) :
    ∃ x' y', ecMul c k (.affine x y) = .affine x' y' ∧ validPoint c x' y' = true := by
  have : Fact c.p.Prime := ⟨c.p_prime⟩
  obtain ⟨A, hA, hA0⟩ := exists_denotes c hP
  have h := denotes_ecMul c hA k
  cases he : ecMul c k (.affine x y) with
  | inf => exact absurd ((h.eq_inf_iff c).1 he) (nsmul_ne_zero c hA0 h1 hn)
  | affine x' y' => rw [he] at h; exact ⟨x', y', rfl, h.valid c⟩

theorem Curve.lt_two_pow_nbits (c : Curve) {k : Nat} (h : k < c.n) : k < 2 ^ c.nbits := h.trans c.n_lt_nbits

/-- `d·(k·P) = (d·k mod n)·P` (R142). -/
theorem ecMul_ecMul (c : Curve) {x y : Nat} (hP : validPoint c x y = true) (d k : Nat) :
    ecMul c d (ecMul c k (.affine x y)) = ecMul c (d * k % c.n) (.affine x y) := by
  have : Fact c.p.Prime := ⟨c.p_prime⟩
  obtain ⟨A, hA, -⟩ := exists_denotes c hP
  have h1 := denotes_ecMul c (denotes_ecMul c hA k) d
  have h2 := denotes_ecMul c hA (d * k % c.n)
  rw [nsmul_mod_n, mul_nsmul'] at h2
  exact h1.left_unique c h2

/-- `u·P + v·P = ((u + v) mod n)·P` (R142). -/
theorem ecAdd_ecMul (c : Curve) {x y : Nat} (hP : validPoint c x y = true) (u v : Nat) :
    ecAdd c (ecMul c u (.affine x y)) (ecMul c v (.affine x y)) = ecMul c ((u + v) % c.n) (.affine x y) := by
  have : Fact c.p.Prime := ⟨c.p_prime⟩
  obtain ⟨A, hA, -⟩ := exists_denotes c hP
  have h1 := denotes_ecAdd c (denotes_ecMul c hA u) (denotes_ecMul c hA v)
  have h2 := denotes_ecMul c hA ((u + v) % c.n)
  rw [nsmul_mod_n, add_nsmul] at h2
  exact h1.left_unique c h2

end Sys2Proof
end

