-- ==== Sys2Proof/Laws/Sqrt.lean ====
section
/-! SUPPORT. The principal square root of R516 is a square root: by the closed form where `p mod 4 = 3`, by Tonelli–Shanks on
secp224r1. -/

namespace Sys2Proof

/-- The test of R515 in the prime field. -/
theorem isQuadraticResidue_iff (c : Curve) (A : Nat) :
    isQuadraticResidue c.p A = true ↔ A = 0 ∨ (A : ZMod c.p) ^ ((c.p - 1) / 2) = 1 := by
  have h1 : ((1 : Nat) : ZMod c.p) = 1 := Nat.cast_one
  simp only [isQuadraticResidue, Bool.or_eq_true, decide_eq_true_eq]
  rw [← powMod_cast, ← h1, ZMod.natCast_eq_natCast_iff', Nat.mod_eq_of_lt (powMod_lt _ _ c.p_pos),
    Nat.mod_eq_of_lt c.one_lt_p]

theorem squareTimes_cast (p : Nat) : ∀ (k t : Nat), ((squareTimes p k t : Nat) : ZMod p) = (t : ZMod p) ^ 2 ^ k := by
  intro k
  induction k with
  | zero => intro t; simp [squareTimes]
  | succ k ih =>
    intro t
    rw [squareTimes, ih, ZMod.natCast_mod, Nat.cast_mul, ← pow_two, ← pow_mul, pow_succ, mul_comm (2 ^ k) 2]

theorem squareTimes_lt {p : Nat} (hp : 0 < p) : ∀ (k t : Nat), t < p → squareTimes p k t < p := by
  intro k
  induction k with
  | zero => intro t h; exact h
  | succ k ih => intro t _; exact ih _ (Nat.mod_lt _ hp)

/-- The loop of Tonelli–Shanks: `r² = A·t` and `t^(2^k) = 1` with `c^(2^k) = -1` lead to a root of `A`. -/
theorem tonelliLoop_spec (p : Nat) [Fact p.Prime] (hp : 2 < p) (A : ZMod p) : ∀ (k r t c : Nat), t < p →
    (r : ZMod p) ^ 2 = A * t → (t : ZMod p) ^ 2 ^ k = 1 → (c : ZMod p) ^ 2 ^ k = -1 →
    ((tonelliLoop p k r t c : Nat) : ZMod p) ^ 2 = A := by
  intro k
  induction k with
  | zero =>
    intro r t c _ hr ht _
    rw [pow_zero, pow_one] at ht
    rw [tonelliLoop, hr, ht, mul_one]
  | succ k ih =>
    intro r t c ht0 hr ht hc
    have hp0 : 0 < p := by omega
    have hc2 : ((c * c % p : Nat) : ZMod p) ^ 2 ^ k = -1 := by
      rw [ZMod.natCast_mod, Nat.cast_mul, ← pow_two, ← pow_mul, ← pow_succ']
      exact hc
    rw [tonelliLoop]
    have hiff : squareTimes p k t = 1 ↔ (t : ZMod p) ^ 2 ^ k = 1 := by
      rw [← squareTimes_cast, ← Nat.cast_one (R := ZMod p), ZMod.natCast_eq_natCast_iff',
        Nat.mod_eq_of_lt (squareTimes_lt hp0 k t ht0), Nat.mod_eq_of_lt (by omega : 1 < p)]
    by_cases h : squareTimes p k t = 1
    · rw [if_pos h]
      exact ih r t _ ht0 hr (hiff.1 h) hc2
    · rw [if_neg h]
      have hm : (t : ZMod p) ^ 2 ^ k = -1 := by
        have hsq : ((t : ZMod p) ^ 2 ^ k) ^ 2 = 1 := by rw [← pow_mul, ← pow_succ]; exact ht
        rcases mul_self_eq_one_iff.1 ((pow_two _).symm.trans hsq) with h1 | h1
        · exact absurd (hiff.2 h1) h
        · exact h1
      refine ih _ _ _ (Nat.mod_lt _ hp0) ?_ ?_ hc2
      · simp only [ZMod.natCast_mod, Nat.cast_mul]
        linear_combination (c : ZMod p) ^ 2 * hr
      · rw [ZMod.natCast_mod, Nat.cast_mul, mul_pow, hm, hc2]
        ring

/-- 11 is no square modulo the secp224r1 prime. -/
theorem eleven_nonresidue : powMod 11 ((Curve.secp224r1.p - 1) / 2) Curve.secp224r1.p = Curve.secp224r1.p - 1 := by
  decide +kernel

theorem powMod_zero (m : Nat) {e : Nat} (he : e ≠ 0) : powMod 0 e m = 0 := by
  rw [powMod_eq, zero_pow he, Nat.zero_mod]

theorem tonelliLoop_zero (p : Nat) : ∀ (k t c : Nat), tonelliLoop p k 0 t c = 0 := by
  intro k
  induction k with
  | zero => intro t c; rfl
  | succ k ih => intro t c; simp only [tonelliLoop, zero_mul, Nat.zero_mod, ih, ite_self]

/-- Tonelli–Shanks for `p - 1 = 2^96·q`. -/
theorem tonelliSqrt_spec (p q : Nat) [Fact p.Prime] (hp : 2 < p) (hq : q = 2 ^ 128 - 1) (hhalf : (p - 1) / 2 = q * 2 ^ 95)
    (hodd : (q + 1) / 2 * 2 = q + 1) (h11 : powMod 11 ((p - 1) / 2) p = p - 1) (A : Nat)
    (h : A = 0 ∨ (A : ZMod p) ^ ((p - 1) / 2) = 1) : ((tonelliSqrt p A : Nat) : ZMod p) ^ 2 = A := by
  unfold tonelliSqrt
  rw [← hq]
  have hc : ((powMod 11 q p : Nat) : ZMod p) ^ 2 ^ 95 = -1 := by
    rw [powMod_cast, ← pow_mul, ← hhalf, ← powMod_cast, h11, Nat.cast_sub (by omega), Nat.cast_one,
      CharP.cast_eq_zero, zero_sub]
  rcases h with h0 | h1
  · subst h0
    have hr : powMod 0 ((q + 1) / 2) p = 0 := powMod_zero _ (by omega)
    simp only [hr, tonelliLoop_zero]
    simp
  · refine tonelliLoop_spec p hp (A : ZMod p) 95 _ _ _ (powMod_lt _ _ (by omega)) ?_ ?_ hc
    · rw [powMod_cast, powMod_cast, ← pow_mul, hodd, pow_succ']
    · rw [powMod_cast, ← pow_mul, ← hhalf]
      exact h1

theorem tonelliSqrt_sq {A : Nat} (h : isQuadraticResidue Curve.secp224r1.p A = true) :
    ((tonelliSqrt Curve.secp224r1.p A : Nat) : ZMod Curve.secp224r1.p) ^ 2 = A := by
  have : Fact Curve.secp224r1.p.Prime := ⟨Curve.secp224r1.p_prime⟩
  exact tonelliSqrt_spec _ _ (by decide) rfl (by decide) (by decide) eleven_nonresidue A
    ((isQuadraticResidue_iff _ A).1 h)

theorem tonelliLoop_lt {p : Nat} (hp : 0 < p) : ∀ (k r t c : Nat), r < p → tonelliLoop p k r t c < p := by
  intro k
  induction k with
  | zero => intro r t c h; exact h
  | succ k ih =>
    intro r t c h
    rw [tonelliLoop]
    split
    · exact ih _ _ _ h
    · exact ih _ _ _ (Nat.mod_lt _ hp)

/-- `p mod 4 = 3` on every curve but secp224r1 (R142). -/
theorem Curve.p_mod_four (c : Curve) (h : c.p % 4 ≠ 3) : c = .secp224r1 := by
  cases c <;> first | rfl | exact absurd (by decide) h

/-- `SqrtP(A)` is below `p` and squares to `A`, and it is even where `p mod 4 = 1` (R516). -/
theorem sqrtP_spec (c : Curve) {A : Nat} (h : isQuadraticResidue c.p A = true) :
    sqrtP c.p A < c.p ∧ ((sqrtP c.p A : Nat) : ZMod c.p) ^ 2 = A ∧ (c.p % 4 ≠ 3 → sqrtP c.p A % 2 = 0) := by
  have : Fact c.p.Prime := ⟨c.p_prime⟩
  have hp := c.p_pos
  by_cases h3 : c.p % 4 = 3
  · rw [sqrtP, if_pos h3]
    refine ⟨powMod_lt _ _ hp, ?_, fun hn => absurd h3 hn⟩
    rw [powMod_cast, ← pow_mul]
    have he : (c.p + 1) / 4 * 2 = (c.p - 1) / 2 + 1 := by omega
    rw [he]
    rcases (isQuadraticResidue_iff c A).1 h with h0 | h1
    · subst h0; simp
    · rw [pow_succ, h1, one_mul]
  · have hc := c.p_mod_four h3
    subst hc
    have hsq := tonelliSqrt_sq h
    have hlt : tonelliSqrt Curve.secp224r1.p A < Curve.secp224r1.p :=
      tonelliLoop_lt hp _ _ _ _ (powMod_lt _ _ hp)
    rw [sqrtP, if_neg h3]
    by_cases he : tonelliSqrt Curve.secp224r1.p A % 2 = 0
    · simp only [if_pos he]
      exact ⟨hlt, hsq, fun _ => he⟩
    · simp only [if_neg he]
      refine ⟨by omega, ?_, fun _ => ?_⟩
      · rw [Nat.cast_sub hlt.le, CharP.cast_eq_zero, zero_sub, neg_sq]
        exact hsq
      · have : Curve.secp224r1.p % 2 = 1 := by decide
        omega

end Sys2Proof
end

