-- ==== Sys2Proof/Laws/Rules.lean ====
section
/-! SUPPORT. The model's functions in the words of Safety.lean: what a ready command completes with, and that `validPoint`,
`invMod`, `candidate`, `isQuadraticResidue` and `signWith` are the rules' own notions. -/

namespace Sys2Proof.Machine

/-! ## Completions -/

theorem operandError_of_ready {s : State} {l : Latch} {c : Curve} {spans : List (SlotNo × Nat)} {u : Bool}
    (h : s.Ready l c spans u) : operandError l spans u = false := by
  obtain ⟨-, hs, hd⟩ := h
  have h1 : (spans.all fun fk => spanFits fk.1 fk.2) = true := by
    rw [List.all_eq_true]
    intro fk hfk
    rw [spanFits_iff]
    have := hs fk hfk
    have := fk.1.isLt
    omega
  unfold operandError
  rw [h1]
  cases u with
  | false => rfl
  | true => simp [hd rfl]

/-- A ready command without draws does what its pseudocode gives. -/
theorem runCommand_ready {s : State} {l : Latch} {c : Curve} {spans : List (SlotNo × Nat)} {u : Bool}
    (h : s.Ready l c spans u) (body : Latch → Curve → CmdResult) :
    runCommand spans u body s = .next (s.finish (body l c)) :=
  runCommand_running h.1 (operandError_of_ready h) body

/-- A ready command whose pseudocode reaches `complete`. -/
theorem completesWith_of_body {i : Instr} {s : State} {l : Latch} {c : Curve} {spans : List (SlotNo × Nat)} {u : Bool}
    {body : Latch → Curve → CmdResult} {ws : List (Nat × Nat)} {f : Flags} (h : s.Ready l c spans u)
    (he : exec i s = runCommand spans u body s) (hb : body l c = .complete ws f) (hnd : (ws.map Prod.fst).Nodup)
    (hw : ∀ w ∈ ws, w.1 < 32 ∧ w.2 < 2 ^ 256) : CompletesWith i s ws f := by
  refine ⟨s.complete ws f 0, ?_, engineDone_complete .., sameSetup_complete .., rfl, rfl, rfl, rfl,
    slotsWritten_complete s ws f 0 hnd hw⟩
  rw [he, runCommand_ready h, hb]
  rfl

/-- A ready command whose pseudocode raises. -/
theorem failsWith_of_body {i : Instr} {s : State} {l : Latch} {c : Curve} {spans : List (SlotNo × Nat)} {u : Bool}
    {body : Latch → Curve → CmdResult} {e : ErrCode} (h : s.Ready l c spans u)
    (he : exec i s = runCommand spans u body s) (hb : body l c = .raise e) : FailsWith i s e := by
  refine ⟨s.fail e 0, ?_, engineDone_fail .., sameSetup_fail .., rfl, rfl, rfl, rfl, rfl⟩
  rw [he, runCommand_ready h, hb]
  rfl

theorem failsWith_fail {i : Instr} {s : State} {e : ErrCode} (he : exec i s = .next (s.fail e 0)) : FailsWith i s e :=
  ⟨_, he, engineDone_fail .., sameSetup_fail .., rfl, rfl, rfl, rfl, rfl⟩

/-- The common checks of a command with spans of at least one slot. -/
theorem operandError_of_bad {l : Latch} {spans : List (SlotNo × Nat)} {u : Bool}
    (h : (∃ fk ∈ spans, 31 < fk.1.toNat + fk.2 - 1) ∨ (u = true ∧ 32 < l.dlen.toNat)) : operandError l spans u = true := by
  unfold operandError
  rcases h with ⟨fk, hfk, hlt⟩ | ⟨rfl, hd⟩
  · have : (spans.all fun fk => spanFits fk.1 fk.2) = false := by
      rw [List.all_eq_false]
      refine ⟨fk, hfk, ?_⟩
      rw [spanFits_iff]
      omega
    rw [this]
    rfl
  · simp [hd]

theorem commonErrors_runCommand {i : Instr} {spans : List (SlotNo × Nat)} {u : Bool} {body : Latch → Curve → CmdResult}
    (he : ∀ s, exec i s = runCommand spans u body s) :
    (∀ s l, s.eng = .busy l → Curve.ofId l.curve = none → FailsWith i s .curve) ∧
    (∀ s l c, s.Running l c →
      ((∃ fk ∈ spans, 31 < fk.1.toNat + fk.2 - 1) ∨ (u = true ∧ 32 < l.dlen.toNat)) → FailsWith i s .operand) := by
  constructor
  · intro s l hb hc
    apply failsWith_fail
    rw [he, runCommand, State.latched_of_busy s l hb, commonChecks_curve _ _ _ hc]
  · intro s l c hr hbad
    apply failsWith_fail
    rw [he, runCommand, State.latched_of_busy s l hr.1, commonChecks_operand _ _ _ c hr.2 (operandError_of_bad hbad)]

/-! ## Points, inverses, residues -/

theorem valid_iff (c : Curve) (x y : Nat) : Valid c x y ↔ validPoint c x y = true := by
  rw [validPoint_iff, Valid, OnCurveEq, onCurve_iff]

theorem valid_G (c : Curve) : Valid c c.gx c.gy := (valid_iff c _ _).2 c.G_valid

theorem quadraticResidue_iff (c : Curve) (A : Nat) : QuadraticResidue c.p A ↔ isQuadraticResidue c.p A = true := by
  unfold QuadraticResidue isQuadraticResidue
  rw [Bool.or_eq_true, decide_eq_true_iff, decide_eq_true_iff, powMod_eq]

/-- Below a prime every nonzero residue has its inverse (R13). -/
theorem inverseOf_invMod {m a : Nat} (hm : m.Prime) (h0 : a ≠ 0) (hlt : a < m) : InverseOf m a (invMod a m) := by
  have hc : Nat.Coprime a m := (Nat.coprime_of_lt_prime h0 hlt hm).symm
  have h1 := mul_invMod_mod hm.one_lt hc
  refine ⟨?_, invMod_lt a hm.pos, h1⟩
  rcases Nat.eq_zero_or_pos (invMod a m) with h | h
  · rw [h, mul_zero, Nat.zero_mod] at h1
    exact absurd h1 (by norm_num)
  · exact h

/-- Inverses are unique. -/
theorem InverseOf.unique {m a b b' : Nat} (h : InverseOf m a b) (h' : InverseOf m a b') : b = b' := by
  obtain ⟨-, hb, e⟩ := h
  obtain ⟨-, hb', e'⟩ := h'
  have : b * (a * b') % m = b' * (a * b) % m := by ring_nf
  rw [Nat.mul_mod, e', mul_one, Nat.mod_mod, Nat.mod_eq_of_lt hb, Nat.mul_mod b', e, mul_one, Nat.mod_mod,
    Nat.mod_eq_of_lt hb'] at this
  exact this

/-! ## Draws (R801) -/

theorem candidate_eq (c : Curve) (w : Vector Word 8) : candidate c w = Candidate c w := by
  unfold candidate Candidate
  congr 1
  have gen : ∀ (L : Nat) (f : Nat → Nat), (List.range L).foldl (fun acc j => acc + f j) 0 = ∑ j ∈ Finset.range L, f j := by
    intro L f
    induction L with
    | zero => rfl
    | succ L ih => rw [List.range_succ, List.foldl_append, ih, Finset.sum_range_succ]; rfl
  exact gen c.wn fun j => (w[j]?.getD 0).toNat * 2 ^ (32 * j)

theorem accepted_iff (c : Curve) (w : Vector Word 8) : Accepted c w ↔ ¬(candidate c w = 0 ∨ candidate c w ≥ c.n) := by
  have := c.n_pos
  rw [candidate_eq, Accepted]
  omega

/-! ## Signatures (R840) -/

/-- The signature that a nonce in range gives, if it gives one. -/
theorem signWith_ok_iff (c : Curve) {d z k r sig : Nat} (h0 : k ≠ 0) (hn : k < c.n) :
    signWith c d z k = .ok (r, sig) ↔ SignatureOf c d z k r sig := by
  obtain ⟨x, y, he, -⟩ := ecMul_valid c c.G_valid h0 hn
  change ecMul c k c.G = _ at he
  have hs : scalarMul c k c.G = .affine x y := by
    rw [← he]; exact scalarMul_eq_ecMul c c.G_valid (c.lt_two_pow_nbits hn)
  have hi := inverseOf_invMod c.n_prime h0 hn
  unfold signWith SignatureOf
  simp only [hs, he]
  constructor
  · intro h
    split_ifs at h with h1 h2 h3
    simp only [Except.ok.injEq, Prod.mk.injEq] at h
    exact ⟨x, y, _, rfl, hi, h.1.symm, h.1 ▸ h1, by rw [← h.1, ← h.2], h.2 ▸ h2, by rw [← h.2]; omega⟩
  · rintro ⟨x', y', w, he', hw, rfl, hr, rfl, hs0, hlt⟩
    cases he'
    rw [hw.unique hi] at hs0 hlt ⊢
    rw [if_neg hr, if_neg hs0, if_neg (by omega)]

/-- A nonce in range gives no signature exactly when it is degenerate, and then the class is DEGEN. -/
theorem signWith_error_iff (c : Curve) {d z k : Nat} {e : ErrCode} (h0 : k ≠ 0) (hn : k < c.n) :
    signWith c d z k = .error e ↔ e = .degen ∧ DegenerateNonce c d z k := by
  obtain ⟨x, y, he, -⟩ := ecMul_valid c c.G_valid h0 hn
  change ecMul c k c.G = _ at he
  have hs : scalarMul c k c.G = .affine x y := by
    rw [← he]; exact scalarMul_eq_ecMul c c.G_valid (c.lt_two_pow_nbits hn)
  have hi := inverseOf_invMod c.n_prime h0 hn
  unfold signWith DegenerateNonce
  simp only [hs, he]
  constructor
  · intro h
    split_ifs at h with h1 h2 h3 <;> cases h
    · exact ⟨rfl, x, y, _, rfl, hi, .inl h1⟩
    · exact ⟨rfl, x, y, _, rfl, hi, .inr (.inl h2)⟩
    · exact ⟨rfl, x, y, _, rfl, hi, .inr (.inr h3)⟩
  · rintro ⟨rfl, x', y', w, he', hw, h⟩
    cases he'
    rw [hw.unique hi] at h
    split_ifs with h1 h2 h3
    · rfl
    · rfl
    · rfl
    · omega

/-- What `retryLoop` does with a try that fails (R800): one answer used, `last` set, the next try. -/
theorem retryLoop_next {α : Type} (c : Curve) (body : Nat → Except ErrCode α) (fuel t : Nat) (last : ErrCode)
    (a : EntropyAnswer) (es : List EntropyAnswer)
    (h : DrawRejected c a ∨ ∃ w e, a = .ok w ∧ Accepted c w ∧ body (Candidate c w) = .error e) :
    ∃ last', retryLoop c body (fuel + 1) t last (a :: es) = retryLoop c body fuel (t + 1) last' es := by
  rcases h with (rfl | ⟨w, rfl, hw⟩) | ⟨w, e, rfl, hw, hb⟩
  · exact ⟨.rng, rfl⟩
  · exact ⟨.rng, retryLoop_rejected c body fuel t last w es (not_not.1 (fun h => hw ((accepted_iff c w).2 h)))⟩
  · exact ⟨e, retryLoop_body_error c body fuel t last e w es ((accepted_iff c w).1 hw) (by rw [candidate_eq]; exact hb)⟩

/-- Tries that fail are passed over, one answer each (R800). -/
theorem retryLoop_skip {α : Type} (c : Curve) (body : Nat → Except ErrCode α) : ∀ (pre : List EntropyAnswer)
    (fuel t : Nat) (last : ErrCode) (es : List EntropyAnswer),
    (∀ a ∈ pre, DrawRejected c a ∨ ∃ w e, a = .ok w ∧ Accepted c w ∧ body (Candidate c w) = .error e) →
    ∃ last', retryLoop c body (fuel + pre.length) t last (pre ++ es) = retryLoop c body fuel (t + pre.length) last' es := by
  intro pre
  induction pre with
  | nil => intro fuel t last es _; exact ⟨last, rfl⟩
  | cons a pre ih =>
    intro fuel t last es h
    obtain ⟨l1, h1⟩ := retryLoop_next c body (fuel + pre.length) t last a (pre ++ es) (h a List.mem_cons_self)
    obtain ⟨l2, h2⟩ := ih fuel (t + 1) l1 es (fun b hb => h b (List.mem_cons_of_mem _ hb))
    refine ⟨l2, ?_⟩
    rw [List.cons_append, List.length_cons, ← Nat.add_assoc, h1, h2]
    congr 1
    omega

/-- What a successful loop has consumed: answers that make their try fail, then the answer of the try that succeeds. -/
theorem retryLoop_ok {α : Type} (c : Curve) (body : Nat → Except ErrCode α) : ∀ (fuel t : Nat) (last : ErrCode)
    (es : List EntropyAnswer) {v : α} {t' : Nat} {rest : List EntropyAnswer},
    retryLoop c body fuel t last es = .ok v t' rest →
    ∃ pre w, es = pre ++ .ok w :: rest ∧ t' = t + pre.length ∧ pre.length < fuel ∧
      (∀ a ∈ pre, DrawRejected c a ∨ ∃ w e, a = .ok w ∧ Accepted c w ∧ body (Candidate c w) = .error e) ∧
      Accepted c w ∧ body (Candidate c w) = .ok v := by
  intro fuel
  induction fuel with
  | zero => intro t last es v t' rest h; cases h
  | succ fuel ih =>
    intro t last es v t' rest h
    have next : ∀ (a : EntropyAnswer) (es' : List EntropyAnswer), es = a :: es' →
        (DrawRejected c a ∨ ∃ w e, a = .ok w ∧ Accepted c w ∧ body (Candidate c w) = .error e) →
        ∃ pre w, es = pre ++ .ok w :: rest ∧ t' = t + pre.length ∧ pre.length < fuel + 1 ∧
          (∀ a ∈ pre, DrawRejected c a ∨ ∃ w e, a = .ok w ∧ Accepted c w ∧ body (Candidate c w) = .error e) ∧
          Accepted c w ∧ body (Candidate c w) = .ok v := by
      rintro a es' rfl ha
      obtain ⟨last', hl⟩ := retryLoop_next c body fuel t last a es' ha
      obtain ⟨pre, w, rfl, ht, hf, hp, hw⟩ := ih (t + 1) last' es' (hl ▸ h)
      refine ⟨a :: pre, w, rfl, by simp; omega, by simp; omega, ?_, hw⟩
      rintro b (_ | ⟨_, hb⟩)
      exacts [ha, hp b hb]
    match es, h with
    | .fail :: es', h => exact next _ _ rfl (.inl (.inl rfl))
    | .ok w :: es', h =>
      by_cases hc : Accepted c w
      · cases hb : body (candidate c w) with
        | ok v' =>
          rw [retryLoop_body_ok c body fuel t last w es' v' ((accepted_iff c w).1 hc) hb] at h
          cases h
          exact ⟨[], w, rfl, rfl, by simp, by simp, hc, by rw [← candidate_eq]; exact hb⟩
        | error e => exact next _ _ rfl (.inr ⟨w, e, rfl, hc, by rw [← candidate_eq]; exact hb⟩)
      · exact next _ _ rfl (.inl (.inr ⟨w, rfl, hc⟩))

end Sys2Proof.Machine
end

