-- ==== Sys2Proof/Tests/Slice0.lean ====
section
/-! SUPPORT. The model's own tests: the checks of WellFormed, one word per command written bit by bit from R300 and R310, single
steps with the expected results of 95_test_vectors.md, the register window, and for every statement with hypotheses a concrete
state that meets them. -/

namespace Sys2Proof.Tests

open Sys2Proof.Machine

-- One theorem at a time: each kernel check in its own thread would need more stacks than the memory limit allows.
set_option Elab.async false

/-! ## Helpers -/

/-- The state after reset with these CTRL.CURVE, slots, DLEN and DIGEST. -/
def setup (c : BitVec 3) (xs : List (Nat × Nat)) (dl : BitVec 6) (dg : Digest) : State :=
  { State.reset with ctrlCurve := c, slots := State.reset.slots.putAll xs, dlen := dl, digest := dg }

/-- The same with the word `w` issued. -/
def blockWith (c : BitVec 3) (xs : List (Nat × Nat)) (dl : BitVec 6) (dg : Digest) (w : Word) : State :=
  (setup c xs dl dg).issue w

/-- The same with an empty digest. -/
def block (c : BitVec 3) (xs : List (Nat × Nat)) (w : Word) : State := blockWith c xs 0 (Vector.replicate 8 0) w

/-- One step of `s` ends its command: STATUS reads `st`, the slots `ws` hold their values, every other slot is as before. -/
def ends (s : State) (ws : List (Nat × Nat)) (st : Word) : Bool :=
  match step s with
  | .next t =>
    t.statusWord = st && ws.all (fun w => t.slots.get w.1 = w.2) &&
      (List.range 32).all fun k => ws.any (fun w => w.1 = k) || t.slots.get k = s.slots.get k
  | _ => false

/-! ## Well-formed commands (R303) -/

/-- The largest legal field values are 31 for span 1, 30 for span 2 and 29 for span 3. -/
theorem test_wf_accepts_last_slots :
    (Instr.vsel 31 31 31 31 .p).wf = true ∧ (Instr.vmul 30 31 31 .n).wf = true ∧ (Instr.mred 31 30 .p).wf = true ∧
    (Instr.jadd 29 29 29).wf = true ∧ (Instr.padd 29 29 30).wf = true ∧ (Instr.verify 30 30).wf = true ∧
    (Instr.keygen 29).wf = true ∧ Instr.nop.wf = true := by
  decide

theorem test_wf_refuses_rd_span_two :
    (Instr.vmul 31 0 0 .p).wf = false ∧ (Instr.vsqr 31 0 .p).wf = false ∧ (Instr.j2a 31 0).wf = false ∧
    (Instr.pneg 31 0).wf = false ∧ (Instr.smul 31 0 0).wf = false ∧ (Instr.pubkey 31 0).wf = false ∧
    (Instr.sign 31 0).wf = false ∧ (Instr.signk 31 0 0).wf = false ∧ (Instr.compress 31 0).wf = false ∧
    (Instr.decompress 31 0).wf = false := by
  decide

theorem test_wf_refuses_rd_span_three :
    (Instr.a2j 30 0).wf = false ∧ (Instr.a2jz 30 0 0).wf = false ∧ (Instr.pdbl 30 0).wf = false ∧
    (Instr.padd 30 0 0).wf = false ∧ (Instr.jadd 30 0 0).wf = false ∧ (Instr.keygen 30).wf = false := by
  decide

theorem test_wf_refuses_ra_span_two :
    (Instr.mred 0 31 .p).wf = false ∧ (Instr.a2j 0 31).wf = false ∧ (Instr.a2jz 0 31 0).wf = false ∧
    (Instr.pneg 0 31).wf = false ∧ (Instr.pchk 31).wf = false ∧ (Instr.smul 0 31 0).wf = false ∧
    (Instr.ecdh 0 31 0).wf = false ∧ (Instr.verify 31 0).wf = false ∧ (Instr.compress 0 31).wf = false ∧
    (Instr.decompress 0 31).wf = false := by
  decide

theorem test_wf_refuses_ra_span_three :
    (Instr.j2a 0 30).wf = false ∧ (Instr.pdbl 0 30).wf = false ∧ (Instr.padd 0 30 0).wf = false ∧
    (Instr.jadd 0 30 0).wf = false := by
  decide

theorem test_wf_refuses_rb_spans :
    (Instr.padd 0 0 31).wf = false ∧ (Instr.verify 0 31).wf = false ∧ (Instr.jadd 0 0 30).wf = false := by
  decide

/-! ## One word per command, its fields written out as `000 M RC RB RA RD OP` (R300, R310) -/

theorem test_decode_vli_words :
    decode 0b000_0_00000_00000_00000_00000_00000000#32 = .ok .nop ∧
    decode 0b000_1_00000_10011_01010_10101_00000001#32 = .ok (.vadd 21 10 19 .n) ∧
    decode 0b000_1_00000_10011_01010_10101_00000010#32 = .ok (.vsub 21 10 19 .n) ∧
    decode 0b000_1_00000_10011_01010_10101_00000011#32 = .ok (.vmul 21 10 19 .n) ∧
    decode 0b000_1_00000_00000_01010_10101_00000100#32 = .ok (.vsqr 21 10 .n) ∧
    decode 0b000_1_00000_00000_01010_10101_00000101#32 = .ok (.vshl1 21 10 .n) ∧
    decode 0b000_1_00000_00000_01010_10101_00000110#32 = .ok (.vshr1 21 10 .n) ∧
    decode 0b000_1_00000_10011_01010_00000_00000111#32 = .ok (.vcmp 10 19 .n) ∧
    decode 0b000_1_00000_00000_01010_10101_00001000#32 = .ok (.vbitlen 21 10 .n) ∧
    decode 0b000_1_00000_00000_01010_00000_00001001#32 = .ok (.vtst 10 .n) ∧
    decode 0b000_1_00110_10011_01010_10101_00001010#32 = .ok (.vsel 21 10 19 6 .n) ∧
    decode 0b000_0_00000_00000_01010_10101_00001011#32 = .ok (.vmov 21 10) := by
  decide

theorem test_decode_modular_words :
    decode 0b000_1_00000_10011_01010_10101_00010000#32 = .ok (.madd 21 10 19 .n) ∧
    decode 0b000_1_00000_10011_01010_10101_00010001#32 = .ok (.msub 21 10 19 .n) ∧
    decode 0b000_1_00000_10011_01010_10101_00010010#32 = .ok (.mmul 21 10 19 .n) ∧
    decode 0b000_1_00000_00000_01010_10101_00010011#32 = .ok (.msqr 21 10 .n) ∧
    decode 0b000_1_00000_00000_01010_10101_00010100#32 = .ok (.minv 21 10 .n) ∧
    decode 0b000_0_00000_00000_01010_10101_00010101#32 = .ok (.msqrt 21 10) ∧
    decode 0b000_1_00000_00000_01010_10101_00010110#32 = .ok (.mred 21 10 .n) ∧
    decode 0b000_1_00000_10011_01010_10101_00010111#32 = .ok (.mmont 21 10 19 .n) ∧
    decode 0b000_1_00000_00000_01010_10101_00011000#32 = .ok (.mtom 21 10 .n) ∧
    decode 0b000_1_00000_00000_01010_10101_00011001#32 = .ok (.mfromm 21 10 .n) := by
  decide

theorem test_decode_point_words :
    decode 0b000_0_00000_00000_01010_10101_00100000#32 = .ok (.a2j 21 10) ∧
    decode 0b000_0_00000_10011_01010_10101_00100001#32 = .ok (.a2jz 21 10 19) ∧
    decode 0b000_0_00000_00000_01010_10101_00100010#32 = .ok (.j2a 21 10) ∧
    decode 0b000_0_00000_00000_01010_10101_00100011#32 = .ok (.pdbl 21 10) ∧
    decode 0b000_0_00000_10011_01010_10101_00100100#32 = .ok (.padd 21 10 19) ∧
    decode 0b000_0_00000_10011_01010_10101_00100101#32 = .ok (.jadd 21 10 19) ∧
    decode 0b000_0_00000_00000_01010_10101_00100110#32 = .ok (.pneg 21 10) ∧
    decode 0b000_0_00000_00000_01010_00000_00100111#32 = .ok (.pchk 10) ∧
    decode 0b000_0_00000_10011_01010_10101_00101000#32 = .ok (.smul 21 10 19) := by
  decide

theorem test_decode_protocol_words :
    decode 0b000_0_00000_00000_00000_10101_00110000#32 = .ok (.keygen 21) ∧
    decode 0b000_0_00000_00000_01010_10101_00110001#32 = .ok (.pubkey 21 10) ∧
    decode 0b000_0_00000_10011_01010_10101_00110010#32 = .ok (.ecdh 21 10 19) ∧
    decode 0b000_0_00000_00000_01010_10101_00110011#32 = .ok (.sign 21 10) ∧
    decode 0b000_0_00000_10011_01010_10101_00110100#32 = .ok (.signk 21 10 19) ∧
    decode 0b000_0_00000_10011_01010_00000_00110101#32 = .ok (.verify 10 19) ∧
    decode 0b000_0_00000_00000_01010_10101_00110110#32 = .ok (.compress 21 10) ∧
    decode 0b000_0_00000_00000_01010_10101_00110111#32 = .ok (.decompress 21 10) := by
  decide

/-- M = 0 selects `p` (R305). -/
theorem test_decode_m_zero :
    decode 0b000_0_00000_00010_00001_00011_00010010#32 = .ok (.mmul 3 1 2 .p) := by
  decide

/-- The encodings of R320 and their text. -/
theorem test_asm_text :
    (Instr.mmul 2 0 1 .n).asm = "MMUL.n s2, s0, s1" ∧ (Instr.vsel 3 0 1 2 .p).asm = "VSEL.p s3, s0, s1, s2" ∧
    (Instr.vcmp 4 5 .p).asm = "VCMP.p s4, s5" ∧ (Instr.padd 6 0 3).asm = "PADD s6, s0, s3" ∧ Instr.nop.asm = "NOP" := by
  decide +kernel

theorem test_encode_examples :
    encode (.mmul 2 0 1 .n) = 0x10040212#32 ∧ encode (.vsel 3 0 1 2 .p) = 0x0104030A#32 ∧
    encode (.vcmp 4 5 .p) = 0x00148007#32 ∧ encode (.padd 6 0 3) = 0x000C0624#32 := by
  decide

theorem test_decode_rejects :
    decode 0x0000000C#32 = .error .illegal ∧ decode 0x10000115#32 = .error .mustBeZero ∧
    decode 0x80040210#32 = .error .mustBeZero ∧ decode 0x00000100#32 = .error .mustBeZero := by
  decide

/-- The host's question about a row: a word of 32 bits, and one that is no command. -/
theorem test_table_word :
    decodeTableWord 32 0x10040212 = some (.mmul 2 0 1 .n) ∧ decodeTableWord 32 0x0000000C = none := by
  decide

/-! ## Curves (R10, R140, R141) -/

/-- Wp, Wn, NBp, NBn and nbits of each curve (R10). -/
theorem test_curve_widths :
    (Curve.secp160r1.wp, Curve.secp160r1.wn, Curve.secp160r1.nbp, Curve.secp160r1.nbn, Curve.secp160r1.nbits) =
      (5, 6, 20, 21, 161) ∧
    (Curve.secp192r1.wp, Curve.secp192r1.wn, Curve.secp192r1.nbp, Curve.secp192r1.nbn, Curve.secp192r1.nbits) =
      (6, 6, 24, 24, 192) ∧
    (Curve.secp224r1.wp, Curve.secp224r1.wn, Curve.secp224r1.nbp, Curve.secp224r1.nbn, Curve.secp224r1.nbits) =
      (7, 7, 28, 28, 224) ∧
    (Curve.secp256r1.wp, Curve.secp256r1.wn, Curve.secp256r1.nbp, Curve.secp256r1.nbn, Curve.secp256r1.nbits) =
      (8, 8, 32, 32, 256) ∧
    (Curve.secp256k1.wp, Curve.secp256k1.wn, Curve.secp256k1.nbp, Curve.secp256k1.nbn, Curve.secp256k1.nbits) =
      (8, 8, 32, 32, 256) := by
  decide +kernel

theorem test_curve_ids :
    (List.range 8).map (fun k => Curve.ofId (BitVec.ofNat 3 k)) =
      [none, some .secp160r1, some .secp192r1, some .secp224r1, some .secp256r1, some .secp256k1, none, none] := by
  decide

/-- 2G and 3G on secp256r1 (95_test_vectors.md section 5), by the group law of R14. -/
theorem test_group_law :
    ecMul .secp256r1 2 (Curve.G .secp256r1) =
      .affine 0x7CF27B188D034F7E8A52380304B51AC3C08969E277F21B35A60B48FC47669978
        0x07775510DB8ED040293D9AC69F7430DBBA7DADE63CE982299E04B79D227873D1 ∧
    ecMul .secp256r1 3 (Curve.G .secp256r1) =
      .affine 0x5ECBE4D1A6330A44C8F7EF951D4BF165E6C6B721EFADA985FB41661BC6E7FD6C
        0x8734640C4998FF7E374B06CE1A64A2ECD82AB036384FB83D9A79B127A27D5032 := by
  decide +kernel

/-- `ScalarMulRef` of R707 on a scalar whose regularised form has the extra bit, and on one whose form has not. -/
theorem test_scalarMulRef :
    scalarMulRef .secp160r1 2 (Curve.params .secp160r1).gx (Curve.params .secp160r1).gy =
      ecMul .secp160r1 2 (Curve.G .secp160r1) := by
  decide +kernel

/-! ## The digest scalar (R802) -/

/-- Leftmost bits, with a digest longer than `nbits` and one that leaves a value above `n`. -/
theorem test_bits2int :
    bits2int .secp160r1 (blockWith 1 [] 32 #v[0x01020304, 0x05060708, 0x090A0B0C, 0x0D0E0F10, 0x11121314, 0x15161718,
      0x191A1B1C, 0x1D1E1F20] 0).latched = 0x020406080A0C0E10121416181A1C1E2022242628 ∧
    bits2int .secp160r1 (blockWith 1 [] 21 (Vector.replicate 8 0xFFFFFFFF) 0).latched =
      0xFFFFFFFFFFFFFFFFFFFE0B3706D8512C358ADDA8 ∧
    bits2int .secp192r1 (blockWith 2 [] 32 (Vector.replicate 8 0xFFFFFFFF) 0).latched = 0x662107C9EB94364E4B2DD7CE ∧
    bits2int .secp256r1 (blockWith 4 [] 1 #v[0x80000000, 0, 0, 0, 0, 0, 0, 0] 0).latched = 0x80 ∧
    bits2int .secp256r1 (blockWith 4 [] 0 (Vector.replicate 8 0xFFFFFFFF) 0).latched = 0 := by
  decide +kernel

/-! ## External layouts (R230, R231) -/

/-- Big-endian, fixed width, left-padded; a value too large for the field has none. -/
theorem test_layouts :
    Layout.fieldBytes 4 0x010203 = some [0, 1, 2, 3] ∧ Layout.fieldBytes 2 0x10000 = none ∧
    (Layout.privateKey .secp160r1 1).map List.length = some 21 ∧
    (Layout.signature .secp160r1 1 2).map List.length = some 40 ∧
    (Layout.compressedKey .secp160r1 5 7).map (fun b => (b.length, b.head?)) = some (21, some 3) ∧
    (Layout.compressedKey .secp160r1 5 8).map (fun b => (b.length, b.head?)) = some (21, some 2) ∧
    (Layout.publicKey .secp256r1 1 2).map List.length = some 64 ∧
    (Layout.sharedSecret .secp224r1 9).map List.length = some 28 := by
  decide +kernel

/-! ## Single steps of the commands, with the words, inputs and results of 95_test_vectors.md -/

/-- V27 of 95_test_vectors.md: NOP, reserved curve. -/
theorem test_nop_V27 :
    ends (block 0 [] 0x00000000#32)
      [] 0x00000002#32 = true := by
  decide +kernel

/-- V4 of 95_test_vectors.md: VADD width Wn=6. -/
theorem test_vadd_V4 :
    ends (block 1 [(0, 0xFFFFFFFFFFFFFFFFFFFFFFFFFFFFFFFFFFFFFFFF), (1, 1)] 0x10040201#32)
      [(2, 0x10000000000000000000000000000000000000000)] 0x00000002#32 = true := by
  decide +kernel

/-- V5 of 95_test_vectors.md: VADD upper words ignored. -/
theorem test_vadd_V5 :
    ends (block 1 [(0, 0x100000000000000000000000000000000000000000000000003), (1, 4)] 0x00040201#32)
      [(2, 7)] 0x00000002#32 = true := by
  decide +kernel

/-- V6 of 95_test_vectors.md: VSUB borrow. -/
theorem test_vsub_V6 :
    ends (block 4 [(0, 0), (1, 1)] 0x00040202#32)
      [(2, 0xFFFFFFFFFFFFFFFFFFFFFFFFFFFFFFFFFFFFFFFFFFFFFFFFFFFFFFFFFFFFFFFF)] 0x0000000A#32 = true := by
  decide +kernel

/-- V7 of 95_test_vectors.md: VSUB equal (VCLR). -/
theorem test_vsub_V7 :
    ends (block 4 [(3, 0x3039)] 0x000C6302#32)
      [(3, 0)] 0x00000006#32 = true := by
  decide +kernel

/-- V8 of 95_test_vectors.md: VMUL max. -/
theorem test_vmul_V8 :
    ends (block 4 [(0, 0xFFFFFFFFFFFFFFFFFFFFFFFFFFFFFFFFFFFFFFFFFFFFFFFFFFFFFFFFFFFFFFFF),
      (1, 0xFFFFFFFFFFFFFFFFFFFFFFFFFFFFFFFFFFFFFFFFFFFFFFFFFFFFFFFFFFFFFFFF)] 0x00040203#32)
      [(2, 1), (3, 0xFFFFFFFFFFFFFFFFFFFFFFFFFFFFFFFFFFFFFFFFFFFFFFFFFFFFFFFFFFFFFFFE)] 0x00000002#32 = true := by
  decide +kernel

/-- V9 of 95_test_vectors.md: VMUL zero. -/
theorem test_vmul_V9 :
    ends (block 4 [(0, 0), (1, 0xFFFFFFFFFFFFFFFFFFFFFFFFFFFFFFFFFFFFFFFFFFFFFFFFFFFFFFFFFFFFFFFF)] 0x00040203#32)
      [(2, 0), (3, 0)] 0x00000006#32 = true := by
  decide +kernel

/-- V10 of 95_test_vectors.md: VSQR 2^128. -/
theorem test_vsqr_V10 :
    ends (block 4 [(0, 0x100000000000000000000000000000000)] 0x00000204#32)
      [(2, 0), (3, 1)] 0x00000002#32 = true := by
  decide +kernel

/-- V11 of 95_test_vectors.md: VSQR in place. -/
theorem test_vsqr_V11 :
    ends (block 4 [(0, 3)] 0x00000004#32)
      [(0, 9), (1, 0)] 0x00000002#32 = true := by
  decide +kernel

/-- V12 of 95_test_vectors.md: VSHL1 top bit. -/
theorem test_vshl1_V12 :
    ends (block 4 [(0, 0x8000000000000000000000000000000000000000000000000000000000000001)] 0x00000105#32)
      [(1, 2)] 0x0000000A#32 = true := by
  decide +kernel

/-- V13 of 95_test_vectors.md: VSHL1 width Wp=5. -/
theorem test_vshl1_V13 :
    ends (block 1 [(0, 0x8000000000000000000000000000000000000000)] 0x00000105#32)
      [(1, 0)] 0x0000000E#32 = true := by
  decide +kernel

/-- V14 of 95_test_vectors.md: VSHR1 one. -/
theorem test_vshr1_V14 :
    ends (block 4 [(0, 1)] 0x00000106#32)
      [(1, 0)] 0x0000000E#32 = true := by
  decide +kernel

/-- V16 of 95_test_vectors.md: VCMP less. -/
theorem test_vcmp_V16 :
    ends (block 4 [(0, 8), (1, 9)] 0x00040007#32)
      [] 0x0000000A#32 = true := by
  decide +kernel

/-- V18 of 95_test_vectors.md: VCMP width truncation. -/
theorem test_vcmp_V18 :
    ends (block 1 [(0, 0x1000000000000000000000000000000000000000000000), (1, 0)] 0x00040007#32)
      [] 0x00000006#32 = true := by
  decide +kernel

/-- V19 of 95_test_vectors.md: VBITLEN zero. -/
theorem test_vbitlen_V19 :
    ends (block 4 [(0, 0), (1, 0x4D)] 0x00000108#32)
      [(1, 0)] 0x00000006#32 = true := by
  decide +kernel

/-- V20 of 95_test_vectors.md: VBITLEN top. -/
theorem test_vbitlen_V20 :
    ends (block 4 [(0, 0x8000000000000000000000000000000000000000000000000000000000000000)] 0x00000108#32)
      [(1, 0x100)] 0x00000002#32 = true := by
  decide +kernel

/-- V21 of 95_test_vectors.md: VTST odd. -/
theorem test_vtst_V21 :
    ends (block 4 [(0, 0xFF)] 0x00000009#32)
      [] 0x0000000A#32 = true := by
  decide +kernel

/-- V22 of 95_test_vectors.md: VTST zero. -/
theorem test_vtst_V22 :
    ends (block 4 [(0, 0)] 0x00000009#32)
      [] 0x00000006#32 = true := by
  decide +kernel

/-- V23 of 95_test_vectors.md: VSEL cond true. -/
theorem test_vsel_V23 :
    ends (block 4 [(0, 0xAA), (1, 0xBB), (2, 1)] 0x0104030A#32)
      [(3, 0xAA)] 0x00000002#32 = true := by
  decide +kernel

/-- V25 of 95_test_vectors.md: VSEL cond above width. -/
theorem test_vsel_V25 :
    ends (block 1 [(0, 0xAA), (1, 0xBB), (2, 0x100000000000000000000000000000000000000000000000000)] 0x0104030A#32)
      [(3, 0xBB)] 0x00000002#32 = true := by
  decide +kernel

/-- V26 of 95_test_vectors.md: VMOV full width. -/
theorem test_vmov_V26 :
    ends (block 1 [(0, 0x8000000000000000000000000000000000000000000000000000000000000005)] 0x0000010B#32)
      [(1, 0x8000000000000000000000000000000000000000000000000000000000000005)] 0x00000002#32 = true := by
  decide +kernel

/-- M1 of 95_test_vectors.md: MADD to zero. -/
theorem test_madd_M1 :
    ends (block 4 [(0, 0xFFFFFFFF00000001000000000000000000000000FFFFFFFFFFFFFFFFFFFFFFFE), (1, 1)] 0x00040210#32)
      [(2, 0)] 0x00000006#32 = true := by
  decide +kernel

/-- M2 of 95_test_vectors.md: MADD range. -/
theorem test_madd_M2 :
    ends (block 4 [(0, 0xFFFFFFFF00000001000000000000000000000000FFFFFFFFFFFFFFFFFFFFFFFF), (1, 1)] 0x00040210#32)
      [] 0x00000402#32 = true := by
  decide +kernel

/-- M3 of 95_test_vectors.md: MSUB.n 0-1. -/
theorem test_msub_M3 :
    ends (block 4 [(0, 0), (1, 1)] 0x10040211#32)
      [(2, 0xFFFFFFFF00000000FFFFFFFFFFFFFFFFBCE6FAADA7179E84F3B9CAC2FC632550)] 0x00000002#32 = true := by
  decide +kernel

/-- M4 of 95_test_vectors.md: MMUL (p-1)^2. -/
theorem test_mmul_M4 :
    ends (block 2 [(0, 0xFFFFFFFFFFFFFFFFFFFFFFFFFFFFFFFEFFFFFFFFFFFFFFFE),
      (1, 0xFFFFFFFFFFFFFFFFFFFFFFFFFFFFFFFEFFFFFFFFFFFFFFFE)] 0x00040212#32)
      [(2, 1)] 0x00000002#32 = true := by
  decide +kernel

/-- M5 of 95_test_vectors.md: MMUL.n range (n ≤ A < p). -/
theorem test_mmul_M5 :
    ends (block 4 [(0, 0xFFFFFFFF00000000FFFFFFFFFFFFFFFFBCE6FAADA7179E84F3B9CAC2FC632551), (1, 1)] 0x10040212#32)
      [] 0x00000402#32 = true := by
  decide +kernel

/-- M6 of 95_test_vectors.md: MSQR 3. -/
theorem test_msqr_M6 :
    ends (block 5 [(0, 3)] 0x00000113#32)
      [(1, 9)] 0x00000002#32 = true := by
  decide +kernel

/-- M7 of 95_test_vectors.md: MINV 2 (k1). -/
theorem test_minv_M7 :
    ends (block 5 [(0, 2)] 0x00000114#32)
      [(1, 0x7FFFFFFFFFFFFFFFFFFFFFFFFFFFFFFFFFFFFFFFFFFFFFFFFFFFFFFF7FFFFE18)] 0x00000002#32 = true := by
  decide +kernel

/-- M8 of 95_test_vectors.md: MINV 0. -/
theorem test_minv_M8 :
    ends (block 4 [(0, 0)] 0x00000114#32)
      [] 0x00000502#32 = true := by
  decide +kernel

/-- M13 of 95_test_vectors.md: MSQRT p-1 non-residue. -/
theorem test_msqrt_M13 :
    ends (block 4 [(0, 0xFFFFFFFF00000001000000000000000000000000FFFFFFFFFFFFFFFFFFFFFFFE)] 0x00000115#32)
      [] 0x00000602#32 = true := by
  decide +kernel

/-- M18 of 95_test_vectors.md: MSQRT secp224r1 5. -/
theorem test_msqrt_M18 :
    ends (block 3 [(0, 5)] 0x00000115#32)
      [(1, 0x99E536A73F014438E7330C6310394992BDCE04465890CADD75C40A3E)] 0x00000002#32 = true := by
  decide +kernel

/-- M23 of 95_test_vectors.md: MRED.p 2^512-1. -/
theorem test_mred_M23 :
    ends (block 4 [(0, 0xFFFFFFFFFFFFFFFFFFFFFFFFFFFFFFFFFFFFFFFFFFFFFFFFFFFFFFFFFFFFFFFF),
      (1, 0xFFFFFFFFFFFFFFFFFFFFFFFFFFFFFFFFFFFFFFFFFFFFFFFFFFFFFFFFFFFFFFFF)] 0x00000216#32)
      [(2, 0x4FFFFFFFDFFFFFFFFFFFFFFFEFFFFFFFBFFFFFFFF0000000000000002)] 0x00000002#32 = true := by
  decide +kernel

/-- M25 of 95_test_vectors.md: MRED.p secp160r1 2^256. -/
theorem test_mred_M25 :
    ends (block 1 [(0, 0), (1, 1)] 0x00000216#32)
      [(2, 0x80000001000000000000000000000000)] 0x00000002#32 = true := by
  decide +kernel

/-- M26 of 95_test_vectors.md: MMONT(R mod p,1). -/
theorem test_mmont_M26 :
    ends (block 4 [(0, 0xFFFFFFFEFFFFFFFFFFFFFFFFFFFFFFFF000000000000000000000001), (1, 1)] 0x00040217#32)
      [(2, 1)] 0x00000002#32 = true := by
  decide +kernel

/-- M29 of 95_test_vectors.md: MTOM secp160r1 R=2^160. -/
theorem test_mtom_M29 :
    ends (block 1 [(0, 5)] 0x00000118#32)
      [(1, 0x280000005)] 0x00000002#32 = true := by
  decide +kernel

/-- M30 of 95_test_vectors.md: MTOM.n secp160r1 R=2^192. -/
theorem test_mtom_M30 :
    ends (block 1 [(0, 1)] 0x10000118#32)
      [(1, 0xFFFFFFFFFFFE0B3706DA45F52EB28C7CCA752257)] 0x00000002#32 = true := by
  decide +kernel

/-- M28 of 95_test_vectors.md: MFROMM. -/
theorem test_mfromm_M28 :
    ends (block 4 [(0, 0x4FFFFFFFAFFFFFFFFFFFFFFFFFFFFFFFB000000000000000000000005)] 0x00000119#32)
      [(1, 5)] 0x00000002#32 = true := by
  decide +kernel

/-- P1 of 95_test_vectors.md: A2J G. -/
theorem test_a2j_P1 :
    ends (block 4 [(0, 0x6B17D1F2E12C4247F8BCE6E563A440F277037D812DEB33A0F4A13945D898C296),
      (1, 0x4FE342E2FE1A7F9B8EE7EB4A7C0F9E162BCE33576B315ECECBB6406837BF51F5)] 0x00000220#32)
      [(2, 0x6B17D1F2E12C4247F8BCE6E563A440F277037D812DEB33A0F4A13945D898C296),
      (3, 0x4FE342E2FE1A7F9B8EE7EB4A7C0F9E162BCE33576B315ECECBB6406837BF51F5), (4, 1)] 0x00000002#32 = true := by
  decide +kernel

/-- P2 of 95_test_vectors.md: A2J (0,0). -/
theorem test_a2j_P2 :
    ends (block 4 [] 0x00000220#32)
      [(2, 1), (3, 1), (4, 0)] 0x00000006#32 = true := by
  decide +kernel

/-- P4 of 95_test_vectors.md: A2JZ z=2. -/
theorem test_a2jz_P4 :
    ends (block 4 [(0, 0x6B17D1F2E12C4247F8BCE6E563A440F277037D812DEB33A0F4A13945D898C296),
      (1, 0x4FE342E2FE1A7F9B8EE7EB4A7C0F9E162BCE33576B315ECECBB6406837BF51F5), (2, 2)] 0x00080321#32)
      [(3, 0xAC5F47CC84B1091EE2F39B958E9103C9DC0DF603B7ACCE83D284E51762630A59),
      (4, 0x7F1A1719F0D3FCDA773F5A53E07CF0B15E719AB9598AF6765DB20341BDFA8FAA), (5, 2)] 0x00000002#32 = true := by
  decide +kernel

/-- P5 of 95_test_vectors.md: A2JZ z=0. -/
theorem test_a2jz_P5 :
    ends (block 4 [(0, 0x6B17D1F2E12C4247F8BCE6E563A440F277037D812DEB33A0F4A13945D898C296),
      (1, 0x4FE342E2FE1A7F9B8EE7EB4A7C0F9E162BCE33576B315ECECBB6406837BF51F5), (2, 0)] 0x00080321#32)
      [] 0x00000402#32 = true := by
  decide +kernel

/-- P6 of 95_test_vectors.md: J2A of A2JZ. -/
theorem test_j2a_P6 :
    ends (block 4 [(0, 0xAC5F47CC84B1091EE2F39B958E9103C9DC0DF603B7ACCE83D284E51762630A59),
      (1, 0x7F1A1719F0D3FCDA773F5A53E07CF0B15E719AB9598AF6765DB20341BDFA8FAA), (2, 2)] 0x00000322#32)
      [(3, 0x6B17D1F2E12C4247F8BCE6E563A440F277037D812DEB33A0F4A13945D898C296),
      (4, 0x4FE342E2FE1A7F9B8EE7EB4A7C0F9E162BCE33576B315ECECBB6406837BF51F5)] 0x00000002#32 = true := by
  decide +kernel

/-- P7 of 95_test_vectors.md: J2A Z=0. -/
theorem test_j2a_P7 :
    ends (block 4 [(0, 5), (1, 6), (2, 0)] 0x00000322#32)
      [(3, 0), (4, 0)] 0x00000006#32 = true := by
  decide +kernel

/-- P8 of 95_test_vectors.md: PDBL G. -/
theorem test_pdbl_P8 :
    ends (block 4 [(0, 0x6B17D1F2E12C4247F8BCE6E563A440F277037D812DEB33A0F4A13945D898C296),
      (1, 0x4FE342E2FE1A7F9B8EE7EB4A7C0F9E162BCE33576B315ECECBB6406837BF51F5), (2, 1)] 0x00000323#32)
      [(3, 0x9A978F59ACD1B5AD570E7D52DCFCDE43804B42274F61DDCF1E7D848391D6C70F),
      (4, 0x4126885E7F786AF905338238E5346D5FE77FC46388668BD0FD59BE3190D2F5D1),
      (5, 0x9FC685C5FC34FF371DCFD694F81F3C2C579C66AED662BD9D976C80D06F7EA3EA)] 0x00000002#32 = true := by
  decide +kernel

/-- P9 of 95_test_vectors.md: PDBL INF. -/
theorem test_pdbl_P9 :
    ends (block 4 [(0, 7), (1, 8), (2, 0)] 0x00000323#32)
      [(3, 1), (4, 1), (5, 0)] 0x00000006#32 = true := by
  decide +kernel

/-- P11 of 95_test_vectors.md: PADD G+G (unified). -/
theorem test_padd_P11 :
    ends (block 4 [(0, 0x6B17D1F2E12C4247F8BCE6E563A440F277037D812DEB33A0F4A13945D898C296),
      (1, 0x4FE342E2FE1A7F9B8EE7EB4A7C0F9E162BCE33576B315ECECBB6406837BF51F5), (2, 1),
      (3, 0x6B17D1F2E12C4247F8BCE6E563A440F277037D812DEB33A0F4A13945D898C296),
      (4, 0x4FE342E2FE1A7F9B8EE7EB4A7C0F9E162BCE33576B315ECECBB6406837BF51F5)] 0x000C0524#32)
      [(5, 0x9A978F59ACD1B5AD570E7D52DCFCDE43804B42274F61DDCF1E7D848391D6C70F),
      (6, 0x4126885E7F786AF905338238E5346D5FE77FC46388668BD0FD59BE3190D2F5D1),
      (7, 0x9FC685C5FC34FF371DCFD694F81F3C2C579C66AED662BD9D976C80D06F7EA3EA)] 0x00000002#32 = true := by
  decide +kernel

/-- P12 of 95_test_vectors.md: PADD G+(-G). -/
theorem test_padd_P12 :
    ends (block 4 [(0, 0x6B17D1F2E12C4247F8BCE6E563A440F277037D812DEB33A0F4A13945D898C296),
      (1, 0x4FE342E2FE1A7F9B8EE7EB4A7C0F9E162BCE33576B315ECECBB6406837BF51F5), (2, 1),
      (3, 0x6B17D1F2E12C4247F8BCE6E563A440F277037D812DEB33A0F4A13945D898C296),
      (4, 0xB01CBD1C01E58065711814B583F061E9D431CCA994CEA1313449BF97C840AE0A)] 0x000C0524#32)
      [(5, 1), (6, 1), (7, 0)] 0x00000006#32 = true := by
  decide +kernel

/-- P16 of 95_test_vectors.md: JADD (Z=2 G)+(2G). -/
theorem test_jadd_P16 :
    ends (block 4 [(0, 0xAC5F47CC84B1091EE2F39B958E9103C9DC0DF603B7ACCE83D284E51762630A59),
      (1, 0x7F1A1719F0D3FCDA773F5A53E07CF0B15E719AB9598AF6765DB20341BDFA8FAA), (2, 2),
      (3, 0x9A978F59ACD1B5AD570E7D52DCFCDE43804B42274F61DDCF1E7D848391D6C70F),
      (4, 0x4126885E7F786AF905338238E5346D5FE77FC46388668BD0FD59BE3190D2F5D1),
      (5, 0x9FC685C5FC34FF371DCFD694F81F3C2C579C66AED662BD9D976C80D06F7EA3EA)] 0x000C0625#32)
      [(6, 0xB22110352C02A792CAFC6F3ADF431641AF59663FA6DC2044C2F5CB8B04DB2803),
      (7, 0x87103C16C2ECDF7E0E2E26610C7810168845C98F213773CCC857B9FB2B3E527E),
      (8, 0x16C1A563E7170496DF2998777E10FD22FAD0914CA46395700E63410F8E01E7C9)] 0x00000002#32 = true := by
  decide +kernel

/-- P17 of 95_test_vectors.md: JADD equal points, different Z. -/
theorem test_jadd_P17 :
    ends (block 4 [(0, 0xAC5F47CC84B1091EE2F39B958E9103C9DC0DF603B7ACCE83D284E51762630A59),
      (1, 0x7F1A1719F0D3FCDA773F5A53E07CF0B15E719AB9598AF6765DB20341BDFA8FAA), (2, 2),
      (3, 0x6B17D1F2E12C4247F8BCE6E563A440F277037D812DEB33A0F4A13945D898C296),
      (4, 0x4FE342E2FE1A7F9B8EE7EB4A7C0F9E162BCE33576B315ECECBB6406837BF51F5), (5, 1)] 0x000C0625#32)
      [(6, 0x978F5A46D1B5ACBD0E7D52DCFCDE43804B4226B561DDCF1E7D848391D6C70F9A),
      (7, 0x6885EC0986AF8C4138238E5346D5FE77FC46347468BD0FD59BE3190D2F5D1412),
      (8, 0xFC685C68C34FF368DCFD694F81F3C2C579C66AE4662BD9D976C80D06F7EA3EA9)] 0x00000002#32 = true := by
  decide +kernel

/-- P19 of 95_test_vectors.md: PNEG G. -/
theorem test_pneg_P19 :
    ends (block 4 [(0, 0x6B17D1F2E12C4247F8BCE6E563A440F277037D812DEB33A0F4A13945D898C296),
      (1, 0x4FE342E2FE1A7F9B8EE7EB4A7C0F9E162BCE33576B315ECECBB6406837BF51F5)] 0x00000226#32)
      [(2, 0x6B17D1F2E12C4247F8BCE6E563A440F277037D812DEB33A0F4A13945D898C296),
      (3, 0xB01CBD1C01E58065711814B583F061E9D431CCA994CEA1313449BF97C840AE0A)] 0x00000002#32 = true := by
  decide +kernel

/-- P20 of 95_test_vectors.md: PNEG (0,0). -/
theorem test_pneg_P20 :
    ends (block 4 [(2, 9)] 0x00000226#32)
      [(2, 0), (3, 0)] 0x00000006#32 = true := by
  decide +kernel

/-- P21 of 95_test_vectors.md: PCHK G. -/
theorem test_pchk_P21 :
    ends (block 4 [(0, 0x6B17D1F2E12C4247F8BCE6E563A440F277037D812DEB33A0F4A13945D898C296),
      (1, 0x4FE342E2FE1A7F9B8EE7EB4A7C0F9E162BCE33576B315ECECBB6406837BF51F5)] 0x00000027#32)
      [] 0x00000012#32 = true := by
  decide +kernel

/-- P24 of 95_test_vectors.md: PCHK x+p. -/
theorem test_pchk_P24 :
    ends (block 4 [(0, 0x16B17D1F1E12C4248F8BCE6E563A440F277037D822DEB33A0F4A13945D898C295),
      (1, 0x4FE342E2FE1A7F9B8EE7EB4A7C0F9E162BCE33576B315ECECBB6406837BF51F5)] 0x00000027#32)
      [] 0x00000002#32 = true := by
  decide +kernel

/-- S9 of 95_test_vectors.md: SMUL secp160r1 k=n-1. -/
theorem test_smul_S9 :
    ends (block 1 [(0, 0x4A96B5688EF573284664698968C38BB913CBFC82),
      (1, 0x23A628553168947D59DCC912042351377AC5FB32), (2, 0x100000000000000000001F4C8F927AED3CA752256)] 0x00080328#32)
      [(3, 0x4A96B5688EF573284664698968C38BB913CBFC82), (4,
      0xDC59D7AACE976B82A62336EDFBDCAEC8053A04CD)] 0x00000002#32 = true := by
  decide +kernel

/-- S6 of 95_test_vectors.md: SMUL P off-curve (k=0 too). -/
theorem test_smul_S6 :
    ends (block 4 [(0, 0x6B17D1F2E12C4247F8BCE6E563A440F277037D812DEB33A0F4A13945D898C296), (1, 5),
      (2, 0)] 0x00080328#32)
      [] 0x00000802#32 = true := by
  decide +kernel

/-- K3 of 95_test_vectors.md: KEYGEN secp160r1 masking. -/
theorem test_keygen_K3 :
    ends ({ block 1 [] 0x00000330#32 with entropy := [.ok #v[0xFFFFFFFF, 0xFFFFFFFF, 0xFFFFFFFF, 0xFFFFFFFF,
      0xFFFFFFFF, 0xFFFFFFFF, 0, 0], .ok #v[5, 0, 0, 0, 0, 0xFFFFFFFE, 0, 0]] })
      [(3, 5), (4, 0xE705B180E41192ED772D1E2D424C171303AD6C4E),
      (5, 0x933FBE35078C8C01465DBF40A12B583364B2A59C)] 0x00020002#32 = true := by
  decide +kernel

/-- K2 of 95_test_vectors.md: KEYGEN all Fail. -/
theorem test_keygen_K2 :
    ends ({ block 4 [] 0x00000030#32 with entropy := List.replicate 64 .fail })
      [] 0x00400902#32 = true := by
  decide +kernel

/-- U4 of 95_test_vectors.md: PUBKEY d=n-1. -/
theorem test_pubkey_U4 :
    ends (block 4 [(0, 0xFFFFFFFF00000000FFFFFFFFFFFFFFFFBCE6FAADA7179E84F3B9CAC2FC632550)] 0x00000131#32)
      [(1, 0x6B17D1F2E12C4247F8BCE6E563A440F277037D812DEB33A0F4A13945D898C296),
      (2, 0xB01CBD1C01E58065711814B583F061E9D431CCA994CEA1313449BF97C840AE0A)] 0x00000002#32 = true := by
  decide +kernel

/-- U2 of 95_test_vectors.md: PUBKEY d=0 (MECC §8). -/
theorem test_pubkey_U2 :
    ends (block 4 [(0, 0)] 0x00000131#32)
      [] 0x00000702#32 = true := by
  decide +kernel

/-- E2 of 95_test_vectors.md: ECDH 2G,d=3. -/
theorem test_ecdh_E2 :
    ends (block 4 [(0, 0x7CF27B188D034F7E8A52380304B51AC3C08969E277F21B35A60B48FC47669978),
      (1, 0x7775510DB8ED040293D9AC69F7430DBBA7DADE63CE982299E04B79D227873D1), (2, 3)] 0x00080332#32)
      [(3, 0xB01A172A76A4602C92D3242CB897DDE3024C740DEBB215B4C6B0AAE93C2291A9)] 0x00000002#32 = true := by
  decide +kernel

/-- E4 of 95_test_vectors.md: ECDH invalid Q, d=0. -/
theorem test_ecdh_E4 :
    ends (block 4 [(0, 1), (1, 1), (2, 0)] 0x00080332#32)
      [] 0x00000802#32 = true := by
  decide +kernel

/-- G11 of 95_test_vectors.md: SIGN secp160r1 retry after oversize s. -/
theorem test_sign_G11 :
    ends ({ blockWith 1 [(0, 7)] 21 #v[0x263A258, 0x125269F2, 0x4D66A4F3, 0x872FAB09, 0x98533F0E, 0, 0,
      0] 0x00000233#32 with entropy := [.ok #v[0xB, 0, 0, 0, 0, 0, 0, 0], .ok #v[0xD, 0, 0, 0, 0, 0, 0, 0]] })
      [(2, 0x205B91A206F4AC25AEF9708E89F5AEA0EAEB1EFC), (3,
      0x4CDE2C511A41A8122F0CB5DBAC4603268992BFD9)] 0x00020002#32 = true := by
  decide +kernel

/-- G14 of 95_test_vectors.md: SIGN d=0 (no draw). -/
theorem test_sign_G14 :
    ends (block 4 [(0, 0)] 0x00000233#32)
      [] 0x00000702#32 = true := by
  decide +kernel

/-- G10 of 95_test_vectors.md: SIGNK secp160r1 same, k=13. -/
theorem test_signk_G10 :
    ends (blockWith 1 [(0, 7), (1, 0xD)] 21 #v[0x263A258, 0x125269F2, 0x4D66A4F3, 0x872FAB09, 0x98533F0E, 0, 0,
      0] 0x00040234#32)
      [(2, 0x205B91A206F4AC25AEF9708E89F5AEA0EAEB1EFC), (3,
      0x4CDE2C511A41A8122F0CB5DBAC4603268992BFD9)] 0x00000002#32 = true := by
  decide +kernel

/-- G9 of 95_test_vectors.md: SIGNK secp160r1 oversize s. -/
theorem test_signk_G9 :
    ends (blockWith 1 [(0, 7), (1, 0xB)] 21 #v[0x263A258, 0x125269F2, 0x4D66A4F3, 0x872FAB09, 0x98533F0E, 0, 0,
      0] 0x00040234#32)
      [] 0x00000A02#32 = true := by
  decide +kernel

/-- Y1 of 95_test_vectors.md: VERIFY secp160r1. -/
theorem test_verify_Y1 :
    ends (blockWith 1 [(0, 0x7DB0B657433D500326D73BDF6A14197EBF7EBCE9),
      (1, 0x8E3FF0B020580724C5E2F4B7EEF26BF7E592142F), (2, 0x7EA7C0F5375321C54B8D4D0DC98B43A5F717FB2A),
      (3, 0x8E476189B0AC97D03A41955D860C481ABD53DABC)] 32 #v[0x1020304, 0x5060708, 0x90A0B0C, 0xD0E0F10, 0x11121314,
      0x15161718, 0x191A1B1C, 0x1D1E1F20] 0x00080035#32)
      [] 0x00000012#32 = true := by
  decide +kernel

/-- T1 of 95_test_vectors.md: VERIFY s+1 secp160r1. -/
theorem test_verify_T1 :
    ends (blockWith 1 [(0, 0x7DB0B657433D500326D73BDF6A14197EBF7EBCE9),
      (1, 0x8E3FF0B020580724C5E2F4B7EEF26BF7E592142F), (2, 0x7EA7C0F5375321C54B8D4D0DC98B43A5F717FB2A),
      (3, 0x8E476189B0AC97D03A41955D860C481ABD53DABD)] 32 #v[0x1020304, 0x5060708, 0x90A0B0C, 0xD0E0F10, 0x11121314,
      0x15161718, 0x191A1B1C, 0x1D1E1F20] 0x00080035#32)
      [] 0x00000002#32 = true := by
  decide +kernel

/-- C2 of 95_test_vectors.md: COMPRESS G secp192r1. -/
theorem test_compress_C2 :
    ends (block 2 [(0, 0x188DA80EB03090F67CBF20EB43A18800F4FF0AFD82FF1012),
      (1, 0x7192B95FFC8DA78631011ED6B24CDD573F977A11E794811)] 0x00000236#32)
      [(2, 3), (3, 0x188DA80EB03090F67CBF20EB43A18800F4FF0AFD82FF1012)] 0x0000000A#32 = true := by
  decide +kernel

/-- C6 of 95_test_vectors.md: COMPRESS (0,0). -/
theorem test_compress_C6 :
    ends (block 4 [] 0x00000236#32)
      [] 0x00000802#32 = true := by
  decide +kernel

/-- D10 of 95_test_vectors.md: DECOMPRESS secp224r1 2G. -/
theorem test_decompress_D10 :
    ends (block 3 [(0, 3), (1, 0x706A46DC76DCB76798E60E6D89474788D16DC18032D268FD1A704FA6)] 0x00000237#32)
      [(2, 0x706A46DC76DCB76798E60E6D89474788D16DC18032D268FD1A704FA6),
      (3, 0x1C2B76A7BC25E7702A704FA986892849FCA629487ACF3709D2E4E8BB)] 0x0000000A#32 = true := by
  decide +kernel

/-- D8 of 95_test_vectors.md: DECOMPRESS x with no point. -/
theorem test_decompress_D8 :
    ends (block 4 [(0, 2), (1, 1)] 0x00000237#32)
      [] 0x00000802#32 = true := by
  decide +kernel

/-! ## Words that end with an error before their own checks (95_test_vectors.md section 8) -/

/-- X1 of 95_test_vectors.md: illegal 0x0C. -/
theorem test_reject_X1 :
    ends (block 4 [] 0x0000000C#32)
      [] 0x00000102#32 = true := by
  decide +kernel

/-- X3 of 95_test_vectors.md: illegal beats curve. -/
theorem test_reject_X3 :
    ends (block 0 [] 0x0000003F#32)
      [] 0x00000102#32 = true := by
  decide +kernel

/-- X4 of 95_test_vectors.md: curve 6. -/
theorem test_reject_X4 :
    ends (block 6 [(0, 1), (1, 2)] 0x00040210#32)
      [] 0x00000302#32 = true := by
  decide +kernel

/-- X5 of 95_test_vectors.md: curve beats operand. -/
theorem test_reject_X5 :
    ends (block 0 [] 0x20040210#32)
      [] 0x00000302#32 = true := by
  decide +kernel

/-- X7 of 95_test_vectors.md: unused RC nonzero. -/
theorem test_reject_X7 :
    ends (block 4 [] 0x02840210#32)
      [] 0x00000202#32 = true := by
  decide +kernel

/-- X8 of 95_test_vectors.md: M=1 on VMOV. -/
theorem test_reject_X8 :
    ends (block 4 [] 0x1000010B#32)
      [] 0x00000202#32 = true := by
  decide +kernel

/-- X9 of 95_test_vectors.md: NOP with field. -/
theorem test_reject_X9 :
    ends (block 0 [] 0x00000100#32)
      [] 0x00000202#32 = true := by
  decide +kernel

/-- X11 of 95_test_vectors.md: SIGN DLEN=40. -/
theorem test_reject_X11 :
    ends (blockWith 4 [(0, 1)] 40 #v[0, 0, 0, 0, 0, 0, 0, 0] 0x00000233#32)
      [] 0x00000202#32 = true := by
  decide +kernel

/-- X12 of 95_test_vectors.md: operand beats range. -/
theorem test_reject_X12 :
    ends (block 4 [(0, 0xFFFFFFFF00000001000000000000000000000000FFFFFFFFFFFFFFFFFFFFFFFF)] 0x000C0114#32)
      [] 0x00000202#32 = true := by
  decide +kernel

/-- M24 of 95_test_vectors.md: MRED RA=31 span. -/
theorem test_reject_M24 :
    ends (block 4 [] 0x0003E216#32)
      [] 0x00000202#32 = true := by
  decide +kernel
/-! ## The register window and the inputs (20_memory.md, 70_reset_and_hazards.md) -/

/-- The state after one step, if the step answers a next state. -/
def after (s : State) : State :=
  match step s with
  | .next t => t
  | _ => s

/-- The state with these inputs next. -/
def offered (s : State) (is : List Input) : State := { s with inputs := is }

/-- Word 7 of slot 31 is at 0x7FC and holds the most significant bits (R211). -/
theorem test_slot_write :
    (after (offered State.reset [memWrite 0x7FC 0x80000001#32])).slots.get 31 = 0x80000001 * 2 ^ 224 := by
  decide +kernel

theorem test_slot_read :
    (after (offered (setup 4 [(1, 0x1111111122222222)] 0 (Vector.replicate 8 0)) [memRead 0x424])).resp =
      some (.readData 0x11111111#32 false) := by
  decide +kernel

/-- A write to CTRL keeps CURVE and IE and drops the reserved bits (R121). -/
theorem test_ctrl_write :
    (after (offered State.reset [memWrite 0x004 0xFFFFFFFC#32])).ctrlWord = 0x0000000C#32 := by
  decide +kernel

/-- Digest byte 1 is bits 23 to 16 of DIGEST[0] (R126). -/
theorem test_digest_byte_order :
    (after (offered State.reset [memWrite 0x040 0x01020304#32])).digest.byte 1 = 0x02#8 := by
  decide +kernel

/-- A CMD write while idle sets BUSY and clears the rest of STATUS but ACCERR (R905). -/
theorem test_issue_status :
    (after (offered { State.reset with done := true, accerr := true, err := .range } [memWrite 0x008 0#32])).statusWord =
      0x00000021#32 := by
  decide +kernel

/-- A slot write while busy sets ACCERR and changes nothing else (R1020). -/
theorem test_busy_write :
    (after (offered (block 4 [(0, 7)] 0#32) [memWrite 0x400 9#32])).slots.get 0 = 7 ∧
    (after (offered (block 4 [(0, 7)] 0#32) [memWrite 0x400 9#32])).accerr = true := by
  decide +kernel

/-- A slot reads 0 while busy (R1021). -/
theorem test_busy_read :
    (after (offered (block 4 [(0, 7)] 0#32) [memRead 0x400])).resp = some (.readData 0#32 false) := by
  decide +kernel

/-- A byte write has no effect (R214). -/
theorem test_byte_write :
    (after (offered State.reset [.bus ⟨0x400, .byte, 0x1, .write 9#32⟩])).slots = State.reset.slots := by
  decide +kernel

/-- Bit 1 of a STATUS write clears DONE and the interrupt, bit 5 clears ACCERR (R123, R131). -/
theorem test_status_w1c :
    (after (offered { State.reset with done := true, accerr := true, ctrlIe := true } [memWrite 0x00C 0x22#32])).statusWord = 0 ∧
    State.irq { State.reset with done := true, ctrlIe := true } = true ∧
    (after (offered { State.reset with done := true, ctrlIe := true } [memWrite 0x00C 0x02#32])).irq = false := by
  decide +kernel

/-- A draw without an answer leaves KEYGEN busy with its draw outstanding (R931). -/
theorem test_keygen_waits :
    (after (block 4 [] 0x00000030#32)).statusWord = 0x00000001#32 ∧ (after (block 4 [] 0x00000030#32)).entPending = true := by
  decide +kernel

/-- Reset of a running command leaves every slot 0 and STATUS 0 (R1001). -/
theorem test_reset_abandons :
    (after (offered (block 4 [(0, 7)] 0x00000030#32) [.reset])).statusWord = 0 ∧
    (after (offered (block 4 [(0, 7)] 0x00000030#32) [.reset])).slots.get 0 = 0 := by
  decide +kernel

/-- A reset drops the answer at hand to the draw it abandons, and no other answer (R1001, log 21). -/
theorem test_reset_drops_answer :
    (after (offered { block 4 [] 0x00000030#32 with entPending := true, tryCounter := 1, entropy := [.ok (Vector.replicate 8 5)] }
      [.reset])).entropy = [] ∧
    (after (offered { block 4 [] 0x00000030#32 with entropy := [.fail] } [.reset])).entropy = [.fail] := by
  decide +kernel

/-- J2A of the off-curve triple (0, 0, 5) writes (0, 0) with Z = 0, since its Zc is not 0 (R620, log 25). -/
theorem test_j2a_zero_pair :
    ends (block 4 [(2, 5), (3, 9), (4, 9)] 0x00000322#32) [(3, 0), (4, 0)] 0x00000002#32 = true := by
  decide +kernel

/-- An answer to a draw that a reset abandoned is ignored (R1001). -/
theorem test_late_answer :
    (after (offered State.reset [.lateEntropy .fail])) = State.reset := by
  decide +kernel

/-! ## Witnesses: states that meet the hypotheses of the statements -/

/-- Every state of these helpers is ready, on its curve, for any fields whose spans fit. -/
theorem ready_blockWith {id : BitVec 3} {c : Curve} {xs : List (Nat × Nat)} {dl : BitVec 6} {dg : Digest} {w : Word}
    {spans : List (SlotNo × Nat)} {u : Bool} (hc : Curve.ofId id = some c)
    (hs : ∀ fk ∈ spans, fk.1.toNat + fk.2 - 1 ≤ 31) (hd : u = true → dl.toNat ≤ 32) :
    (blockWith id xs dl dg w).Ready (blockWith id xs dl dg w).latched c spans u := ⟨⟨rfl, hc⟩, hs, hd⟩

/-- The states of `CommonRule`, in every statement that has it: a reserved curve, a span that passes slot 31, a DLEN of 33. -/
theorem witness_CommonRule (w : Word) :
    ((block 0 [] w).eng = .busy (block 0 [] w).latched ∧ Curve.ofId (block 0 [] w).latched.curve = none) ∧
    ((block 7 [] w).eng = .busy (block 7 [] w).latched ∧ Curve.ofId (block 7 [] w).latched.curve = none) ∧
    (block 5 [] w).Running (block 5 [] w).latched .secp256k1 ∧
    (∃ fk ∈ [((30 : SlotNo), 3)], 31 < fk.1.toNat + fk.2 - 1) ∧ (∃ fk ∈ [((31 : SlotNo), 2)], 31 < fk.1.toNat + fk.2 - 1) ∧
    (blockWith 1 [] 33 (Vector.replicate 8 0) w).Running (blockWith 1 [] 33 (Vector.replicate 8 0) w).latched .secp160r1 ∧
    32 < (blockWith 1 [] 33 (Vector.replicate 8 0) w).latched.dlen.toNat :=
  ⟨⟨rfl, rfl⟩, ⟨rfl, rfl⟩, ⟨rfl, rfl⟩, by decide, by decide, ⟨rfl, rfl⟩, by
    change 32 < (33 : BitVec 6).toNat
    decide⟩

theorem witness_EncodeOfDecodeIsTheWord : decode 0x1FFFFF0A#32 = .ok (.vsel 31 31 31 31 .n) := by decide

/-- Clause 3, each branch: VMOV with M = 1 on a curve, NOP with a field under a reserved curve, and VMOV there. -/
theorem witness_MustBeZeroBitsDecideTheCommand :
    (State.EngineTurn (block 4 [] 0x1000010B#32) ∧ decode 0x1000010B#32 = .error .mustBeZero ∧
      Curve.ofId 4#3 = some .secp256r1) ∧
    (State.EngineTurn (block 0 [] 0x00000100#32) ∧ decode 0x00000100#32 = .error .mustBeZero ∧
      opField 0x00000100#32 = 0x00#8 ∧ Curve.ofId 0#3 = none) ∧
    (State.EngineTurn (block 0 [] 0x1000010B#32) ∧ opField 0x1000010B#32 ≠ 0x00#8) :=
  ⟨⟨.inl rfl, by decide, rfl⟩, ⟨.inl rfl, by decide, by decide, rfl⟩, .inl rfl, by decide⟩

/-- The ends of every illegal range, and their legal neighbours. -/
theorem witness_IllegalOpcodesEndWithErrIllegal :
    decode 0x0C#32 = .error .illegal ∧ decode 0x0F#32 = .error .illegal ∧
    decode 0x1A#32 = .error .illegal ∧ decode 0x1F#32 = .error .illegal ∧
    decode 0x29#32 = .error .illegal ∧ decode 0x2F#32 = .error .illegal ∧
    decode 0x38#32 = .error .illegal ∧ decode 0xFF#32 = .error .illegal ∧
    decode 0x0B#32 ≠ .error .illegal ∧ decode 0x10#32 ≠ .error .illegal ∧
    decode 0x19#32 ≠ .error .illegal ∧ decode 0x20#32 ≠ .error .illegal ∧
    decode 0x28#32 ≠ .error .illegal ∧ decode 0x30#32 ≠ .error .illegal ∧
    decode 0x37#32 ≠ .error .illegal ∧
    State.EngineTurn (block 0 [] 0x0000000C#32) :=
  ⟨by decide, by decide, by decide, by decide, by decide, by decide, by decide, by decide, by decide, by decide,
    by decide, by decide, by decide, by decide, by decide, .inl rfl⟩

theorem witness_StepRunsTheDecodedCommand :
    ((block 4 [] 0x10040212#32).eng = .busy (block 4 [] 0x10040212#32).latched ∧
      State.EngineTurn (offered (block 4 [] 0x10040212#32) [.engine, .reset]) ∧
      decode (block 4 [] 0x10040212#32).latched.word = .ok (.mmul 2 0 1 .n)) ∧
    decode (BitVec.ofNat 32 (0x10040212 % 2 ^ 32)) = .ok (.mmul 2 0 1 .n) :=
  ⟨⟨rfl, .inr ⟨_, rfl⟩, by decide⟩, by decide⟩

theorem witness_CmdWriteIssuesTheCommand (w : Word) :
    ((offered State.reset [hostWrite 0x008 w]).inputs = hostWrite 0x008 w :: [] ∧ State.reset.eng = .idle) ∧
    (offered (block 4 [] 0) [hostWrite 0x008 w]).eng = .busy (block 4 [] 0).latched :=
  ⟨⟨rfl, rfl⟩, rfl⟩

/-- An idle state, a running one, and a KEYGEN waiting for its last draw. -/
theorem witness_EveryStepKeepsTheInvariant :
    State.Inv (setup 4 [(0, 5)] 7 (Vector.replicate 8 1)) ∧ State.Inv (block 4 [] 0x00000114#32) ∧
    State.Inv { block 4 [] 0x00000030#32 with entPending := true, tryCounter := 64 } := by
  refine ⟨⟨rfl, rfl, by decide, fun h => absurd rfl h, fun h => absurd rfl h⟩,
    ⟨rfl, rfl, rfl, rfl, rfl, fun _ => rfl, fun h => absurd h (by decide)⟩,
    ⟨rfl, rfl, rfl, rfl, rfl, fun h => absurd h (by decide), fun _ => ⟨by decide, by decide, .inl (by decide)⟩⟩⟩

/-- A running KEYGEN before its first draw, and one whose draw is outstanding with its answer and a further one at hand. -/
theorem witness_ResetClearsEverything :
    ((offered (block 4 [(3, 9)] 0x00000030#32) [.reset, .lateEntropy .fail]).inputs = .reset :: [.lateEntropy .fail] ∧
      (block 4 [(3, 9)] 0x00000030#32).entPending = false) ∧
    State.inputs (offered { block 4 [] 0x00000030#32 with entPending := true, tryCounter := 1, entropy := [.fail, .fail] }
      [.reset]) = .reset :: [] := ⟨⟨rfl, rfl⟩, rfl⟩

/-- The ends of every range of the map. -/
theorem witness_IdleReadsFollowTheRegisterMap :
    State.reset.eng = .idle ∧
    (∀ off ∈ [0x000, 0x004, 0x008, 0x00C, 0x010, 0x014, 0x03C, 0x040, 0x05C, 0x060, 0x3FC, 0x400, 0x7FC],
      off < 2048 ∧ off % 4 = 0 ∧ (offered State.reset [hostRead off]).inputs = hostRead off :: []) ∧
    0x05C = 0x040 + 4 * (7 : Fin 8).val ∧ 0x7FC = 0x400 + 32 * 31 + 4 * 7 := by
  refine ⟨rfl, fun off h => ⟨?_, ?_, rfl⟩, rfl, rfl⟩ <;> (revert off; decide)

theorem witness_SlotWindowReadsAndWritesWords (v : Word) :
    (31 < 32 ∧ 7 < 8 ∧ State.reset.eng = .idle ∧
      (offered State.reset [hostWrite (0x400 + 32 * 31 + 4 * 7) v]).inputs = hostWrite (0x400 + 32 * 31 + 4 * 7) v :: []) ∧
    (offered State.reset [hostRead (0x400 + 32 * 31 + 4 * 7)]).inputs = hostRead (0x400 + 32 * 31 + 4 * 7) :: [] ∧
    (offered (block 4 [] 0) [hostRead 0x400]).busy = true :=
  ⟨⟨by decide, by decide, rfl, rfl⟩, rfl, rfl⟩

theorem witness_ConfigurationWritesStoreTheirFields (v : Word) :
    State.reset.eng = .idle ∧ (offered State.reset [hostWrite 0x004 v]).inputs = hostWrite 0x004 v :: [] ∧
    (offered State.reset [hostWrite 0x010 v]).inputs = hostWrite 0x010 v :: [] ∧
    (offered State.reset [hostWrite (0x040 + 4 * (7 : Fin 8).val) v]).inputs = hostWrite (0x040 + 4 * (7 : Fin 8).val) v :: [] ∧
    (offered State.reset [hostWrite 0x000 v]).inputs = hostWrite 0x000 v :: [] :=
  ⟨rfl, rfl, rfl, rfl, rfl⟩

theorem witness_StatusShowsAndClearsItsBits (v : Word) :
    (offered (block 4 [] 0) [hostWrite 0x00C v]).inputs = hostWrite 0x00C v :: [] := rfl

/-- A byte access, a half-word access, a word access with a byte disabled, a misaligned one; a read and a write of reserved
offsets at the ends of their ranges. -/
theorem witness_UnsupportedAndReservedAccessesDoNothing :
    (∀ a ∈ [Access.mk 0x400 .byte 0x1 .read, Access.mk 0x400 .half 0xF (.write 1), Access.mk 0x400 .word 0x7 .read,
        Access.mk 0x402 .word 0xF (.write 1)],
      (offered State.reset [.bus a]).inputs = .bus a :: [] ∧ ¬(a.size = .word ∧ a.enables = 0xF ∧ a.addr % 4 = 0)) ∧
    (∀ n ∈ [0x014, 0x03C, 0x060, 0x3FC, 2048 + 0x060],
      n % 4 = 0 ∧ ((0x014 ≤ n % 2048 ∧ n % 2048 ≤ 0x03F) ∨ (0x060 ≤ n % 2048 ∧ n % 2048 ≤ 0x3FF))) := by
  refine ⟨fun a h => ⟨rfl, ?_⟩, ?_⟩
  · revert a
    decide
  · decide

/-- Every clause at the ends of its offsets; and ACCERR cleared by a STATUS write with bit 5. -/
theorem witness_BusyWritesAreRefusedAndSetAccerr (v : Word) :
    (∀ off ∈ [0x000, 0x004, 0x008, 0x00C, 0x010, 0x014, 0x03C, 0x040, 0x05C, 0x060, 0x3FC, 0x400, 0x7FC],
      off < 2048 ∧ off % 4 = 0 ∧
      (offered (block 4 [] 0) [hostWrite off v]).inputs = hostWrite off v :: [] ∧
      (offered (block 4 [] 0) [hostWrite off v]).eng = .busy (block 4 [] 0).latched) ∧
    (State.accerr { State.reset with accerr := true, inputs := [memWrite 0x00C 0x20#32] } = true ∧
      (after { State.reset with accerr := true, inputs := [memWrite 0x00C 0x20#32] }).accerr = false) := by
  refine ⟨fun off h => ⟨?_, ?_, rfl, rfl⟩, by decide +kernel⟩ <;> (revert off; decide)

theorem witness_BusyReadsHideSlotsAndDigest :
    (∀ off ∈ [0x000, 0x004, 0x008, 0x00C, 0x010, 0x040, 0x05C, 0x400, 0x7FC],
      off < 2048 ∧ off % 4 = 0 ∧
      (offered (block 4 [] 0) [hostRead off]).inputs = hostRead off :: [] ∧
      (offered (block 4 [] 0) [hostRead off]).eng = .busy (block 4 [] 0).latched) ∧
    State.Inv (offered (block 4 [] 0x00000114#32) [hostRead 0x008]) := by
  refine ⟨fun off h => ⟨?_, ?_, rfl, rfl⟩, ⟨rfl, rfl, rfl, rfl, rfl, fun _ => rfl, fun h => absurd h (by decide)⟩⟩ <;>
    (revert off; decide)

/-- A completion raises IRQ, and so does setting IE while DONE; each of the stated events lowers it. -/
theorem witness_IrqRisesAndFallsOnlyAsStated :
    (State.irq { block 4 [] 0 with ctrlIe := true } = false ∧ (after { block 4 [] 0 with ctrlIe := true }).irq = true) ∧
    (State.irq { State.reset with done := true } = false ∧
      (after { State.reset with done := true, inputs := [memWrite 0x004 0x8#32] }).irq = true) ∧
    (∀ i ∈ [Input.reset, memWrite 0x00C 0x2#32, memWrite 0x004 0x4#32, memWrite 0x008 0#32],
      State.irq { State.reset with done := true, ctrlIe := true, inputs := [i] } = true ∧
      (after { State.reset with done := true, ctrlIe := true, inputs := [i] }).irq = false) := by
  decide +kernel

/-- A command that ends with an error, one that writes, and a KEYGEN that waits. -/
theorem witness_CommandsChangeOnlyTheirDestination (w : Word) :
    (block 4 [(0, 2)] w).eng = .busy (block 4 [(0, 2)] w).latched := rfl

theorem witness_NoStatusFieldIsAnInput :
    ∃ t, exec (.minv 1 0 .p) (block 4 [(0, 2)] 0x00000114#32) = .next t ∧ t.eng = .idle := ⟨_, rfl, by decide +kernel⟩

/-- Two SIGNK runs that agree on the key, the nonce and the one digest byte that DLEN selects, and differ in another slot and in
the rest of the digest. -/
theorem witness_OtherSlotsDoNotLeakIntoResults :
    let l1 := (blockWith 4 [(0, 5), (1, 6), (9, 1)] 1 (Vector.replicate 8 0x80000000) 0x00040234).latched
    let l2 := (blockWith 4 [(0, 5), (1, 6), (9, 2)] 1 #v[0x80FFFFFF, 1, 2, 3, 4, 5, 6, 7] 0x00040234).latched
    l1.curve = l2.curve ∧ (∀ k ∈ sourceSlots (.signk 2 0 1), l1.slots.get k = l2.slots.get k) ∧ l1.dlen = l2.dlen ∧
    (∀ b, b < l1.dlen.toNat → l1.digest.byte b = l2.digest.byte b) ∧ l1.slots.get 9 ≠ l2.slots.get 9 := by
  refine ⟨rfl, by decide +kernel, rfl, ?_, by decide +kernel⟩
  intro b hb
  have h1 : (blockWith 4 [(0, 5), (1, 6), (9, 1)] 1 (Vector.replicate 8 0x80000000) 0x00040234).latched.dlen.toNat = 1 := by
    decide +kernel
  have : b = 0 := by omega
  subst this
  decide +kernel

theorem witness_BusAccessesDoNotDisturbARunningCommand :
    ∃ t t', exec (.minv 1 0 .p) (block 4 [(0, 2)] 0x00000114#32) = .next t ∧
      exec (.minv 1 0 .p) ((block 4 [(0, 2)] 0x00000114#32).busAccess ⟨0x400, .word, 0xF, .write 9#32⟩) = .next t' :=
  ⟨_, _, rfl, rfl⟩

/-- A KEYGEN that waits after one failed draw. -/
theorem witness_AnswersMayArriveInParts :
    ∃ t, exec (.keygen 0) { block 4 [] 0x00000030#32 with entropy := [.fail] } = .next t ∧ t.eng ≠ .idle :=
  ⟨_, rfl, by decide +kernel⟩

theorem witness_EveryCommandCompletes :
    (State.Inv (block 4 [] 0x00000114#32) ∧ State.EngineTurn (block 4 [] 0x00000114#32) ∧
      opField 0x00000114#32 ≠ 0x30#8 ∧ opField 0x00000114#32 ≠ 0x33#8) ∧
    (State.Inv { block 4 [] 0x00000030#32 with entropy := List.replicate 64 .fail } ∧
      64 ≤ (List.replicate 64 EntropyAnswer.fail).length) :=
  ⟨⟨⟨rfl, rfl, rfl, rfl, rfl, fun _ => rfl, fun h => absurd h (by decide)⟩, .inl rfl, by decide, by decide⟩,
    ⟨rfl, rfl, rfl, rfl, rfl, fun _ => rfl, fun h => absurd h (by decide)⟩, by decide⟩

/-- Copies upward, downward and in place, at the ends of their ranges; a negation of `m - 1`. -/
theorem witness_PseudoInstructionsDoWhatTheySay :
    ((setup 4 [(0, 5)] 0 (Vector.replicate 8 0)).eng = .idle ∧
      Curve.ofId (setup 4 [(0, 5)] 0 (Vector.replicate 8 0)).ctrlCurve = some .secp256r1) ∧
    (∀ da ∈ [((30 : SlotNo), (28 : SlotNo)), (0, 30), (30, 30), (4, 5)], pcopyAllowed da.1 da.2 = true) ∧
    (∀ da ∈ [((29 : SlotNo), (26 : SlotNo)), (0, 29), (29, 29), (4, 5)], jcopyAllowed da.1 da.2 = true) ∧
    ((setup 4 [(1, Curve.n .secp256r1 - 1)] 0 (Vector.replicate 8 0)).slots.get 2 = 0 ∧
      (setup 4 [(1, Curve.n .secp256r1 - 1)] 0 (Vector.replicate 8 0)).slots.get 1 < modulus .secp256r1 .n) :=
  ⟨⟨rfl, rfl⟩, by decide +kernel, by decide +kernel, by decide +kernel⟩

theorem witness_NopCompletesUnderAnyCurve :
    (block 0 [] 0).eng = .busy (block 0 [] 0).latched ∧ State.EngineTurn (block 0 [] 0x00000100#32) ∧
    opField 0x00000100#32 = 0x00#8 ∧ (0x00000100#32 : Word) ≠ 0 :=
  ⟨rfl, .inl rfl, by decide, by decide⟩

/-- The spans of R303 at their ends: every single-slot operand in slot 31. Operands at 0 and at the top of the width are in the
state. -/
theorem witness_VaddAndVsubWrapWithCarryAndBorrow :
    (block 4 [(31, 2 ^ 256 - 1)] 0x007FFF01#32).Ready (block 4 [(31, 2 ^ 256 - 1)] 0x007FFF01#32).latched .secp256r1
      [(31, 1), (31, 1), (31, 1)] false := ready_blockWith rfl (by decide) (by decide)

theorem witness_VmulAndVsqrGiveTheExactProduct :
    (block 4 [(31, 2 ^ 256 - 1)] 0x007FFE03#32).Ready (block 4 [(31, 2 ^ 256 - 1)] 0x007FFE03#32).latched .secp256r1
      [(30, 2), (31, 1), (31, 1)] false ∧
    (block 4 [(31, 2 ^ 256 - 1)] 0x0003FE04#32).Ready (block 4 [(31, 2 ^ 256 - 1)] 0x0003FE04#32).latched .secp256r1
      [(30, 2), (31, 1)] false :=
  ⟨ready_blockWith rfl (by decide) (by decide), ready_blockWith rfl (by decide) (by decide)⟩

theorem witness_VshlAndVshrShiftByOneBit :
    (block 1 [(31, 2 ^ 160 - 1)] 0x0003FF05#32).Ready (block 1 [(31, 2 ^ 160 - 1)] 0x0003FF05#32).latched .secp160r1
      [(31, 1), (31, 1)] false := ready_blockWith rfl (by decide) (by decide)

theorem witness_VcmpAndVtstSetFlagsOnly :
    (block 3 [(31, 1)] 0x007C0007#32).Ready (block 3 [(31, 1)] 0x007C0007#32).latched .secp224r1 [(0, 1), (31, 1)] false ∧
    (block 3 [(31, 1)] 0x0003E009#32).Ready (block 3 [(31, 1)] 0x0003E009#32).latched .secp224r1 [(31, 1)] false :=
  ⟨ready_blockWith rfl (by decide) (by decide), ready_blockWith rfl (by decide) (by decide)⟩

/-- VSEL with a nonzero condition, and with one that is nonzero only above the width. -/
theorem witness_VbitlenVselAndVmovWriteTheirSlot :
    (block 5 [(31, 1)] 0x0003E008#32).Ready (block 5 [(31, 1)] 0x0003E008#32).latched .secp256k1 [(0, 1), (31, 1)] false ∧
    ((block 1 [(2, 1)] 0x0104030A#32).Ready (block 1 [(2, 1)] 0x0104030A#32).latched .secp160r1
        [(3, 1), (0, 1), (1, 1), (2, 1)] false ∧
      (block 1 [(2, 1)] 0x0104030A#32).latched.slots.get 2 % 2 ^ (32 * width .secp160r1 .p) ≠ 0) ∧
    (block 1 [(2, 2 ^ 160)] 0x0104030A#32).latched.slots.get 2 % 2 ^ (32 * width .secp160r1 .p) = 0 :=
  ⟨ready_blockWith rfl (by decide) (by decide), ⟨ready_blockWith rfl (by decide) (by decide), by decide +kernel⟩,
    by decide +kernel⟩

/-- Both operands `m - 1`; one operand `m`. -/
theorem witness_MaddMsubAndMmulGiveTheResidue :
    let s := block 4 [(0, Curve.n .secp256r1 - 1), (1, Curve.n .secp256r1 - 1), (2, Curve.n .secp256r1)] 0x10040210#32
    s.Ready s.latched .secp256r1 [(2, 1), (0, 1), (1, 1)] false ∧
    s.latched.slots.get 0 < modulus .secp256r1 .n ∧ s.latched.slots.get 1 < modulus .secp256r1 .n ∧
    modulus .secp256r1 .n ≤ s.latched.slots.get 2 :=
  ⟨ready_blockWith rfl (by decide) (by decide), by decide +kernel⟩

theorem witness_MsqrAndMredReduceExactly :
    let s := block 4 [(30, Curve.p .secp256r1 - 1), (31, Curve.p .secp256r1)] 0x0003C113#32
    s.Ready s.latched .secp256r1 [(1, 1), (30, 1)] false ∧ s.Ready s.latched .secp256r1 [(1, 1), (30, 2)] false ∧
    s.latched.slots.get 30 < modulus .secp256r1 .p ∧ modulus .secp256r1 .p ≤ s.latched.slots.get 31 :=
  ⟨ready_blockWith rfl (by decide) (by decide), ready_blockWith rfl (by decide) (by decide), by decide +kernel⟩

/-- The operands `m - 1`, `m` and 0. -/
theorem witness_MinvInvertsOrFails :
    let s := block 1 [(0, Curve.n .secp160r1 - 1), (1, Curve.n .secp160r1)] 0x10000314#32
    s.Ready s.latched .secp160r1 [(3, 1), (0, 1)] false ∧
    (s.latched.slots.get 0 ≠ 0 ∧ s.latched.slots.get 0 < modulus .secp160r1 .n) ∧
    modulus .secp160r1 .n ≤ s.latched.slots.get 1 ∧ s.latched.slots.get 2 = 0 :=
  ⟨ready_blockWith rfl (by decide) (by decide), by decide +kernel⟩

/-- On secp224r1, `p - 1` is a residue; on secp256r1 it is none; `p` is out of range; and `p mod 4` is 1 and 3. -/
theorem witness_MsqrtGivesThePrincipalRootOrFails :
    let s := block 3 [(0, Curve.p .secp224r1 - 1), (1, Curve.p .secp224r1)] 0x00000315#32
    let s' := block 4 [(0, Curve.p .secp256r1 - 1)] 0x00000315#32
    (s.Ready s.latched .secp224r1 [(3, 1), (0, 1)] false ∧ s'.Ready s'.latched .secp256r1 [(3, 1), (0, 1)] false) ∧
    (s.latched.slots.get 0 < Curve.p .secp224r1 ∧ Curve.p .secp224r1 % 4 = 1 ∧ Curve.p .secp256r1 % 4 = 3 ∧
      Curve.p .secp224r1 ≤ s.latched.slots.get 1 ∧ s'.latched.slots.get 0 < Curve.p .secp256r1) ∧
    QuadraticResidue (Curve.p .secp224r1) (s.latched.slots.get 0) ∧
    ¬ QuadraticResidue (Curve.p .secp256r1) (s'.latched.slots.get 0) := by
  refine ⟨⟨ready_blockWith rfl (by decide) (by decide), ready_blockWith rfl (by decide) (by decide)⟩, by decide +kernel, ?_, ?_⟩
  · exact (quadraticResidue_iff .secp224r1 _).2 (by decide +kernel)
  · exact fun h => absurd ((quadraticResidue_iff .secp256r1 _).1 h) (by decide +kernel)

theorem witness_MontgomeryCommandsUseTheRadix :
    let s := block 1 [(0, Curve.n .secp160r1 - 1), (1, Curve.n .secp160r1 - 1), (2, Curve.n .secp160r1)] 0x10040317#32
    s.Ready s.latched .secp160r1 [(3, 1), (0, 1), (1, 1)] false ∧ s.Ready s.latched .secp160r1 [(3, 1), (0, 1)] false ∧
    s.latched.slots.get 0 < modulus .secp160r1 .n ∧ s.latched.slots.get 1 < modulus .secp160r1 .n ∧
    modulus .secp160r1 .n ≤ s.latched.slots.get 2 ∧
    (let r := block 1 [(0, 5 * 2 ^ 192 % Curve.n .secp160r1)] 0x10000119#32
     5 < modulus .secp160r1 .n ∧ r.latched.slots.get 0 = 5 * 2 ^ (32 * width .secp160r1 .n) % modulus .secp160r1 .n) :=
  ⟨ready_blockWith rfl (by decide) (by decide), ready_blockWith rfl (by decide) (by decide), by decide +kernel⟩

/-- A point with coordinates `p - 1`, the pair `(0, 0)`, a coordinate `p`; `z` of `p - 1`, 0 and `p`. -/
theorem witness_AffineToJacobianWithAndWithoutZ :
    let s := block 4 [(0, Curve.p .secp256r1 - 1), (1, Curve.p .secp256r1 - 1), (2, Curve.p .secp256r1)] 0x00000620#32
    s.Ready s.latched .secp256r1 [(29, 3), (0, 2)] false ∧ s.Ready s.latched .secp256r1 [(29, 3), (0, 2), (0, 1)] false ∧
    (s.latched.slots.get 0 < Curve.p .secp256r1 ∧ s.latched.slots.get 1 < Curve.p .secp256r1 ∧
      ¬(s.latched.slots.get 0 = 0 ∧ s.latched.slots.get 1 = 0) ∧ s.latched.slots.get 0 ≠ 0) ∧
    (s.latched.slots.get 30 = 0 ∧ s.latched.slots.get 31 = 0) ∧ Curve.p .secp256r1 ≤ s.latched.slots.get 2 :=
  ⟨ready_blockWith rfl (by decide) (by decide), ready_blockWith rfl (by decide) (by decide), by decide +kernel⟩

theorem witness_JacobianToAffineDividesByZ :
    let s := block 4 [(0, Curve.p .secp256r1 - 1), (1, 0), (2, Curve.p .secp256r1 - 1), (3, 0), (4, Curve.p .secp256r1)]
      0x00000522#32
    s.Ready s.latched .secp256r1 [(30, 2), (0, 3)] false ∧
    (s.latched.slots.get 0 < Curve.p .secp256r1 ∧ s.latched.slots.get 1 < Curve.p .secp256r1 ∧
      s.latched.slots.get 2 < Curve.p .secp256r1 ∧ s.latched.slots.get 2 ≠ 0) ∧
    s.latched.slots.get 3 = 0 ∧ Curve.p .secp256r1 ≤ s.latched.slots.get 4 :=
  ⟨ready_blockWith rfl (by decide) (by decide), by decide +kernel⟩

/-- Triples of every kind in the slots: `(1, 0, 1)` with `Y = 0`, three times `p - 1`, `(1, 1, p)` which is not reduced, the
generator with `Z = 1`, and `INF` as `(0, 0, 0)`. -/
def triples : State :=
  block 4 [(0, 1), (1, 0), (2, 1), (3, Curve.p .secp256r1 - 1), (4, Curve.p .secp256r1 - 1), (5, Curve.p .secp256r1 - 1),
    (6, 1), (7, 1), (8, Curve.p .secp256r1), (9, Curve.gx .secp256r1), (10, Curve.gy .secp256r1), (11, 1)] 0x00000023#32

/-- The triple of `triples` at slot `k`. -/
def tripleAt (k : Nat) : Jac :=
  ⟨triples.latched.slots.get k, triples.latched.slots.get (k + 1), triples.latched.slots.get (k + 2)⟩

theorem reduced_triples :
    JacReduced .secp256r1 (tripleAt 0) ∧ JacReduced .secp256r1 (tripleAt 3) ∧ JacReduced .secp256r1 (tripleAt 9) ∧
    JacReduced .secp256r1 (tripleAt 12) ∧ ¬ JacReduced .secp256r1 (tripleAt 6) ∧ (tripleAt 0).y = 0 ∧ (tripleAt 0).z ≠ 0 ∧
    (tripleAt 3).y ≠ 0 ∧ (tripleAt 12).z = 0 := by
  unfold JacReduced
  decide +kernel

theorem triples_ready (spans : List (SlotNo × Nat)) (hs : ∀ fk ∈ spans, fk.1.toNat + fk.2 - 1 ≤ 31) :
    triples.Ready triples.latched .secp256r1 spans false := ⟨⟨rfl, rfl⟩, hs, by decide⟩

theorem witness_PdblWritesTheExactTriple :
    (triples.Ready triples.latched .secp256r1 [(29, 3), (0, 3)] false ∧ JacReduced .secp256r1 (tripleAt 0)) ∧
    (triples.Ready triples.latched .secp256r1 [(29, 3), (12, 3)] false ∧ JacReduced .secp256r1 (tripleAt 12)) ∧
    (triples.Ready triples.latched .secp256r1 [(29, 3), (3, 3)] false ∧ JacReduced .secp256r1 (tripleAt 3)) ∧
    (triples.Ready triples.latched .secp256r1 [(29, 3), (6, 3)] false ∧ ¬ JacReduced .secp256r1 (tripleAt 6)) :=
  have h := reduced_triples
  ⟨⟨triples_ready _ (by decide), h.1⟩, ⟨triples_ready _ (by decide), h.2.2.2.1⟩, ⟨triples_ready _ (by decide), h.2.1⟩,
    ⟨triples_ready _ (by decide), h.2.2.2.2.1⟩⟩

theorem witness_JaddWritesTheExactTriple :
    (triples.Ready triples.latched .secp256r1 [(29, 3), (3, 3), (12, 3)] false ∧ JacReduced .secp256r1 (tripleAt 3) ∧
      JacReduced .secp256r1 (tripleAt 12)) ∧
    (triples.Ready triples.latched .secp256r1 [(29, 3), (3, 3), (6, 3)] false ∧
      ¬(JacReduced .secp256r1 (tripleAt 3) ∧ JacReduced .secp256r1 (tripleAt 6))) :=
  have h := reduced_triples
  ⟨⟨triples_ready _ (by decide), h.2.1, h.2.2.2.1⟩, triples_ready _ (by decide), fun k => h.2.2.2.2.1 k.2⟩

/-- The affine operand at slot 3 is `(p - 1, p - 1)`, at slot 12 `(0, 0)`, at slot 8 one whose `x` is `p`. -/
theorem witness_PaddIsTheUnifiedMixedAddition :
    (triples.Ready triples.latched .secp256r1 [(29, 3), (12, 3), (3, 2)] false ∧ JacReduced .secp256r1 (tripleAt 12) ∧
      triples.latched.slots.get 3 < Curve.p .secp256r1 ∧ triples.latched.slots.get 4 < Curve.p .secp256r1) ∧
    (triples.Ready triples.latched .secp256r1 [(29, 3), (3, 3), (12, 2)] false ∧ triples.latched.slots.get 12 = 0 ∧
      triples.latched.slots.get 13 = 0) ∧
    (triples.Ready triples.latched .secp256r1 [(29, 3), (3, 3), (8, 2)] false ∧
      ¬(JacReduced .secp256r1 (tripleAt 3) ∧ triples.latched.slots.get 8 < Curve.p .secp256r1 ∧
        triples.latched.slots.get 9 < Curve.p .secp256r1)) :=
  have h : triples.latched.slots.get 3 < Curve.p .secp256r1 ∧ triples.latched.slots.get 4 < Curve.p .secp256r1 ∧
      triples.latched.slots.get 12 = 0 ∧ triples.latched.slots.get 13 = 0 ∧
      ¬ triples.latched.slots.get 8 < Curve.p .secp256r1 := by decide +kernel
  ⟨⟨triples_ready _ (by decide), reduced_triples.2.2.2.1, h.1, h.2.1⟩, ⟨triples_ready _ (by decide), h.2.2.1, h.2.2.2.1⟩,
    triples_ready _ (by decide), fun k => h.2.2.2.2 k.2.1⟩

theorem witness_PnegNegatesAndPchkValidates :
    let s := block 4 [(30, Curve.p .secp256r1 - 1), (31, 0), (0, Curve.p .secp256r1)] 0x0003C026#32
    s.Ready s.latched .secp256r1 [(30, 2), (30, 2)] false ∧ s.Ready s.latched .secp256r1 [(30, 2)] false ∧
    (s.latched.slots.get 30 < Curve.p .secp256r1 ∧ s.latched.slots.get 31 < Curve.p .secp256r1) ∧
    Curve.p .secp256r1 ≤ s.latched.slots.get 0 :=
  ⟨ready_blockWith rfl (by decide) (by decide), ready_blockWith rfl (by decide) (by decide), by decide +kernel⟩

/-- Equal points, `INF` and a point, and a point and the affine `(0, 0)` or the generator. -/
theorem witness_PointCommandsFollowTheGroupLaw :
    triples.Ready triples.latched .secp256r1 [(29, 3), (9, 3)] false ∧
    triples.Ready triples.latched .secp256r1 [(29, 3), (9, 3), (12, 3)] false ∧
    triples.Ready triples.latched .secp256r1 [(29, 3), (9, 3), (9, 2)] false ∧
    JacOnCurve .secp256r1 (tripleAt 9) ∧ JacOnCurve .secp256r1 (tripleAt 12) ∧
    Valid .secp256r1 (triples.latched.slots.get 9) (triples.latched.slots.get 10) ∧
    (triples.latched.slots.get 12 = 0 ∧ triples.latched.slots.get 13 = 0) := by
  have h : jacToAffine .secp256r1 (tripleAt 9) = .affine (Curve.gx .secp256r1) (Curve.gy .secp256r1) ∧ (tripleAt 12).z = 0 ∧
      triples.latched.slots.get 9 = Curve.gx .secp256r1 ∧ triples.latched.slots.get 10 = Curve.gy .secp256r1 ∧
      triples.latched.slots.get 12 = 0 ∧ triples.latched.slots.get 13 = 0 := by decide +kernel
  refine ⟨triples_ready _ (by decide), triples_ready _ (by decide), triples_ready _ (by decide),
    ⟨reduced_triples.2.2.1, .inr ⟨_, _, h.1, valid_G _⟩⟩, ⟨reduced_triples.2.2.2.1, .inl h.2.1⟩, ?_, h.2.2.2.2⟩
  rw [h.2.2.1, h.2.2.2.1]
  exact valid_G _

theorem witness_EveryValidPointHasOrderN :
    Valid .secp256k1 (Curve.gx .secp256k1) (Curve.gy .secp256k1) ∧ 1 ≤ Curve.n .secp256k1 - 1 := ⟨valid_G _, by decide⟩

/-- A valid point and the scalars 1, `n - 1`, 0 and `n`; a point that is not valid. -/
theorem witness_SmulComputesTheMultiple :
    let s := block 4 [(0, Curve.gx .secp256r1), (1, Curve.gy .secp256r1), (2, Curve.n .secp256r1 - 1), (3, Curve.n .secp256r1)]
      0x00080528#32
    s.Ready s.latched .secp256r1 [(5, 2), (0, 2), (2, 1)] false ∧
    Valid .secp256r1 (s.latched.slots.get 0) (s.latched.slots.get 1) ∧
    ¬ Valid .secp256r1 (s.latched.slots.get 6) (s.latched.slots.get 7) ∧
    (s.latched.slots.get 2 ≠ 0 ∧ s.latched.slots.get 2 < Curve.n .secp256r1) ∧ s.latched.slots.get 4 = 0 ∧
    Curve.n .secp256r1 ≤ s.latched.slots.get 3 := by
  refine ⟨ready_blockWith rfl (by decide) (by decide), (valid_iff _ _ _).2 (by decide +kernel), ?_, by decide +kernel⟩
  exact fun h => absurd ((valid_iff _ _ _).1 h) (by decide +kernel)

theorem witness_DigestScalarKeepsTheLeftmostBits :
    (blockWith 1 [] 32 (Vector.replicate 8 0xFFFFFFFF) 0).latched.dlen.toNat ≤ 32 := by decide +kernel

/-- The answer of `n - 1` is accepted, those of 0 and of `n` are rejected, as is a failed draw. -/
theorem witness_KeygenTakesTheFirstAcceptedCandidate :
    (block 5 [] 0x00001D30#32).Ready (block 5 [] 0x00001D30#32).latched .secp256k1 [(29, 3)] false ∧
    Accepted .secp160r1 #v[0xCA752256, 0xF927AED3, 0x0001F4C8, 0, 0, 1, 0, 0] ∧
    DrawRejected .secp160r1 (.ok #v[0xCA752257, 0xF927AED3, 0x0001F4C8, 0, 0, 1, 0, 0]) ∧
    DrawRejected .secp160r1 (.ok #v[0, 0, 0, 0, 0, 0xFFFFFFFE, 0, 0]) ∧ DrawRejected .secp160r1 .fail ∧
    State.currentTry { block 1 [] 0x00001D30#32 with entPending := true, tryCounter := 64 } + ([] : List EntropyAnswer).length
      = 64 ∧
    State.currentTry (block 1 [] 0x00001D30#32) = 1 := by
  refine ⟨ready_blockWith rfl (by decide) (by decide), ?_, .inr ⟨_, rfl, ?_⟩, .inr ⟨_, rfl, ?_⟩, .inl rfl, rfl, rfl⟩
  · rw [accepted_iff]; decide +kernel
  · rw [accepted_iff]; decide +kernel
  · rw [accepted_iff]; decide +kernel

theorem witness_PubkeyComputesTheKey :
    let s := block 4 [(0, Curve.n .secp256r1 - 1), (1, Curve.n .secp256r1)] 0x00001E31#32
    s.Ready s.latched .secp256r1 [(30, 2), (0, 1)] false ∧
    (s.latched.slots.get 0 ≠ 0 ∧ s.latched.slots.get 0 < Curve.n .secp256r1) ∧ s.latched.slots.get 2 = 0 ∧
    Curve.n .secp256r1 ≤ s.latched.slots.get 1 :=
  ⟨ready_blockWith rfl (by decide) (by decide), by decide +kernel⟩

theorem witness_EcdhGivesTheSharedX :
    let s := block 4 [(0, Curve.gx .secp256r1), (1, Curve.gy .secp256r1), (2, Curve.n .secp256r1 - 1), (3, Curve.n .secp256r1)]
      0x00080532#32
    s.Ready s.latched .secp256r1 [(5, 1), (0, 2), (2, 1)] false ∧
    Valid .secp256r1 (s.latched.slots.get 0) (s.latched.slots.get 1) ∧
    ¬ Valid .secp256r1 (s.latched.slots.get 6) (s.latched.slots.get 7) ∧
    (s.latched.slots.get 2 ≠ 0 ∧ s.latched.slots.get 2 < Curve.n .secp256r1) ∧ s.latched.slots.get 4 = 0 ∧
    Curve.n .secp256r1 ≤ s.latched.slots.get 3 := by
  refine ⟨ready_blockWith rfl (by decide) (by decide), (valid_iff _ _ _).2 (by decide +kernel), ?_, by decide +kernel⟩
  exact fun h => absurd ((valid_iff _ _ _).1 h) (by decide +kernel)

/-- Both keys, `d_A = 1` with the point `G` and `d_B = n - 1` with `-G`, and the two ECDH states that use them. -/
theorem witness_EcdhIsSymmetric :
    let c := Curve.secp160r1
    let sA := block 1 [(0, 1)] 0x00000131#32
    let sB := block 1 [(0, c.n - 1)] 0x00000131#32
    let s1 := block 1 [(0, c.gx), (1, c.p - c.gy), (2, 1)] 0x00080332#32
    let s2 := block 1 [(0, c.gx), (1, c.gy), (2, c.n - 1)] 0x00080332#32
    sA.Ready sA.latched c [(1, 2), (0, 1)] false ∧ sB.Ready sB.latched c [(1, 2), (0, 1)] false ∧
    CompletesWith (.pubkey 1 0) sA [(1, c.gx), (2, c.gy)] ⟨false, false, false⟩ ∧
    CompletesWith (.pubkey 1 0) sB [(1, c.gx), (2, c.p - c.gy)] ⟨false, false, false⟩ ∧
    s1.Ready s1.latched c [(3, 1), (0, 2), (2, 1)] false ∧ s2.Ready s2.latched c [(3, 1), (0, 2), (2, 1)] false ∧
    (s1.latched.slots.get 0 = c.gx ∧ s1.latched.slots.get 1 = c.p - c.gy ∧ s1.latched.slots.get 2 = 1) ∧
    s2.latched.slots.get 0 = c.gx ∧ s2.latched.slots.get 1 = c.gy ∧ s2.latched.slots.get 2 = c.n - 1 := by
  have rA := ready_blockWith (xs := [(0, 1)]) (dl := 0) (dg := Vector.replicate 8 0) (w := 0x00000131#32)
    (spans := [(1, 2), (0, 1)]) (u := false) (show Curve.ofId 1#3 = some .secp160r1 from rfl) (by decide) (by decide)
  have rB := ready_blockWith (xs := [(0, Curve.n .secp160r1 - 1)]) (dl := 0) (dg := Vector.replicate 8 0) (w := 0x00000131#32)
    (spans := [(1, 2), (0, 1)]) (u := false) (show Curve.ofId 1#3 = some .secp160r1 from rfl) (by decide) (by decide)
  refine ⟨rA, rB, ?_, ?_, ready_blockWith rfl (by decide) (by decide), ready_blockWith rfl (by decide) (by decide),
    by decide +kernel, by decide +kernel⟩
  · exact completesWith_of_body rA rfl (by decide +kernel) (by decide) (by decide)
  · exact completesWith_of_body rB rfl (by decide +kernel) (by decide) (by decide)

/-! The signature witnesses use G9, G10 and G11 of 95_test_vectors.md: secp160r1, `d = 7`, a digest scalar for which the nonce 11
gives an oversize `s` and the nonce 13 a signature. -/

/-- The digest of G9 to G13. -/
def digestG : Digest := #v[0x0263A258, 0x125269F2, 0x4D66A4F3, 0x872FAB09, 0x98533F0E, 0, 0, 0]

/-- Its digest scalar (95_test_vectors.md). -/
def zG : Nat := 0x4C744B024A4D3E49ACD49E70E5F561330A67E1C

/-- The signature of G10. -/
def rG : Nat := 0x205B91A206F4AC25AEF9708E89F5AEA0EAEB1EFC
def sigG : Nat := 0x4CDE2C511A41A8122F0CB5DBAC4603268992BFD9

theorem accepted_13 : Accepted .secp160r1 #v[13, 0, 0, 0, 0, 0, 0, 0] := by rw [accepted_iff]; decide +kernel

theorem accepted_11 : Accepted .secp160r1 #v[11, 0, 0, 0, 0, 0, 0, 0] := by rw [accepted_iff]; decide +kernel

theorem signature_13 : SignatureOf .secp160r1 7 zG 13 rG sigG :=
  (signWith_ok_iff .secp160r1 (by decide) (by decide)).1 (by decide +kernel)

theorem degenerate_11 : DegenerateNonce .secp160r1 7 zG 11 :=
  ((signWith_error_iff .secp160r1 (by decide) (by decide)).1
    (by decide +kernel : signWith .secp160r1 7 zG 11 = .error .degen)).2

/-- SIGN as in G11, both answers at hand. -/
def signG (es : List EntropyAnswer) : State := { blockWith 1 [(0, 7)] 21 digestG 0x00000233 with entropy := es }

theorem signG_ready (es : List EntropyAnswer) : (signG es).Ready (signG es).latched .secp160r1 [(2, 2), (0, 1)] true :=
  ⟨⟨rfl, rfl⟩, by decide, fun _ => by change (21 : BitVec 6).toNat ≤ 32; decide⟩

theorem witness_SignTakesTheFirstGoodNonce :
    let s := signG [.ok #v[11, 0, 0, 0, 0, 0, 0, 0], .ok #v[13, 0, 0, 0, 0, 0, 0, 0]]
    s.Ready s.latched .secp160r1 [(2, 2), (0, 1)] true ∧
    (s.latched.slots.get 0 ≠ 0 ∧ s.latched.slots.get 0 < Curve.n .secp160r1) ∧
    s.entropy = [.ok #v[11, 0, 0, 0, 0, 0, 0, 0]] ++ .ok #v[13, 0, 0, 0, 0, 0, 0, 0] :: [] ∧
    SignTryFails .secp160r1 7 zG (.ok #v[11, 0, 0, 0, 0, 0, 0, 0]) ∧ Accepted .secp160r1 #v[13, 0, 0, 0, 0, 0, 0, 0] ∧
    bits2int .secp160r1 s.latched = zG ∧ Candidate .secp160r1 #v[13, 0, 0, 0, 0, 0, 0, 0] = 13 ∧
    SignatureOf .secp160r1 7 zG 13 rG sigG ∧ s.currentTry + 1 ≤ 64 ∧ s.latched.slots.get 1 = 0 := by
  refine ⟨signG_ready _, by decide +kernel, rfl, .inr ⟨_, rfl, accepted_11, ?_⟩, accepted_13, by decide +kernel, ?_,
    signature_13, by decide, by decide +kernel⟩
  · rw [← candidate_eq, (by decide +kernel : candidate .secp160r1 #v[11, 0, 0, 0, 0, 0, 0, 0] = 11)]
    exact degenerate_11
  · rw [← candidate_eq]
    decide +kernel

/-- The draw of try 64 outstanding: its answer may be a failure or a degenerate nonce. -/
theorem witness_SignExhaustionKeepsTheLastClass :
    let s := { signG [.ok #v[11, 0, 0, 0, 0, 0, 0, 0]] with entPending := true, tryCounter := 64 }
    s.Ready s.latched .secp160r1 [(2, 2), (0, 1)] true ∧
    (s.latched.slots.get 0 ≠ 0 ∧ s.latched.slots.get 0 < Curve.n .secp160r1) ∧
    s.entropy = [] ++ .ok #v[11, 0, 0, 0, 0, 0, 0, 0] :: [] ∧ s.currentTry + ([] : List EntropyAnswer).length = 64 ∧
    Accepted .secp160r1 #v[11, 0, 0, 0, 0, 0, 0, 0] ∧ DegenerateNonce .secp160r1 7 zG 11 ∧ DrawRejected .secp160r1 .fail ∧
    (signG []).currentTry + (signG []).entropy.length ≤ 64 :=
  ⟨⟨⟨rfl, rfl⟩, by decide, fun _ => by change (21 : BitVec 6).toNat ≤ 32; decide⟩, by decide +kernel, rfl, rfl, accepted_11,
    degenerate_11, .inl rfl, by decide⟩

/-- SIGNK of G10 and G9, and the scalars 0 and `n`. -/
theorem witness_SignkSignsWithTheGivenNonce :
    let s := blockWith 1 [(0, 7), (1, 13), (4, Curve.n .secp160r1 - 1), (5, Curve.n .secp160r1)] 21 digestG 0x00040234
    s.Ready s.latched .secp160r1 [(2, 2), (0, 1), (1, 1)] true ∧
    (s.latched.slots.get 0 = 7 ∧ s.latched.slots.get 1 = 13 ∧ bits2int .secp160r1 s.latched = zG ∧
      s.latched.slots.get 4 ≠ 0 ∧ s.latched.slots.get 4 < Curve.n .secp160r1 ∧ s.latched.slots.get 6 = 0 ∧
      Curve.n .secp160r1 ≤ s.latched.slots.get 5) ∧
    SignatureOf .secp160r1 7 zG 13 rG sigG ∧ DegenerateNonce .secp160r1 7 zG 11 :=
  ⟨⟨⟨rfl, rfl⟩, by decide, fun _ => by change (21 : BitVec 6).toNat ≤ 32; decide⟩, by decide +kernel, signature_13,
    degenerate_11⟩

theorem completesAfterTries_of_complete {i : Instr} {s : State} {n : Nat} {rest : List EntropyAnswer} {ws : List (Nat × Nat)}
    (h : exec i s = .next ({ s with entropy := rest }.complete ws Flags.clear n)) (hnd : (ws.map Prod.fst).Nodup)
    (hw : ∀ w ∈ ws, w.1 < 32 ∧ w.2 < 2 ^ 256) : CompletesAfterTries i s n rest ws :=
  ⟨_, h, engineDone_complete .., sameSetup_complete .., rfl, rfl, rfl, rfl,
    slotsWritten_complete { s with entropy := rest } ws Flags.clear n hnd hw⟩

/-- SIGN with one answer, whose nonce gives a signature. -/
theorem sign_completes {s : State} {l : Latch} {c : Curve} {rd ra : SlotNo} {w : Vector Word 8} {r sig : Nat}
    (hr : s.Ready l c [(rd, 2), (ra, 1)] true) (hd : ¬(l.slot ra = 0 ∨ l.slot ra ≥ c.n)) (hw : Accepted c w)
    (hs : SignatureOf c (l.slot ra) (bits2int c l) (Candidate c w) r sig) (he : s.entropy = [.ok w]) (ht : s.currentTry = 1)
    (hnd : rd.toNat + 1 < 32) (hfit : r < 2 ^ 256 ∧ sig < 2 ^ 256) :
    CompletesAfterTries (.sign rd ra) s 1 [] [(rd.toNat, r), (rd.toNat + 1, sig)] := by
  have ha := (accepted_iff c w).1 hw
  have hk : signWith c (l.slot ra) (bits2int c l) (candidate c w) = .ok (r, sig) := by
    rw [signWith_ok_iff c (by omega) (by omega), candidate_eq]
    exact hs
  have hl := retryLoop_body_ok c (signWith c (l.slot ra) (bits2int c l)) 63 1 .rng w [] (r, sig) ha hk
  refine completesAfterTries_of_complete ?_ (by simp) (by simp; omega)
  simp only [exec, execSign, commonChecks_ok _ _ _ _ hr.1.2 (operandError_of_ready hr), State.latched_of_busy s _ hr.1.1,
    if_neg hd, State.runLoop, he, ht]
  rw [show Config.maxTries + 1 - 1 = 63 + 1 from rfl, hl]
  rfl

theorem signG_completes :
    CompletesAfterTries (.sign 2 0) (signG [.ok #v[13, 0, 0, 0, 0, 0, 0, 0]]) 1 [] [(2, rG), (3, sigG)] := by
  have hd : (signG [.ok #v[13, 0, 0, 0, 0, 0, 0, 0]]).latched.slot 0 = 7 := by decide +kernel
  have hz : bits2int .secp160r1 (signG [.ok #v[13, 0, 0, 0, 0, 0, 0, 0]]).latched = zG := by decide +kernel
  have hk : Candidate .secp160r1 #v[13, 0, 0, 0, 0, 0, 0, 0] = 13 := by rw [← candidate_eq]; decide +kernel
  exact sign_completes (rd := 2) (signG_ready _) (by rw [hd]; decide) accepted_13 (by rw [hd, hz, hk]; exact signature_13) rfl rfl
    (by decide) (by decide)

/-- SIGNK of G10. -/
def signkG : State := blockWith 1 [(0, 7), (1, 13)] 21 digestG 0x00040234

theorem signkG_ready : signkG.Ready signkG.latched .secp160r1 [(2, 2), (0, 1), (1, 1)] true :=
  ⟨⟨rfl, rfl⟩, by decide, fun _ => by change (21 : BitVec 6).toNat ≤ 32; decide⟩

theorem witness_SignAgreesWithSignk :
    (signG [.ok #v[13, 0, 0, 0, 0, 0, 0, 0]]).Ready (signG [.ok #v[13, 0, 0, 0, 0, 0, 0, 0]]).latched .secp160r1
      [(2, 2), (0, 1)] true ∧
    1 ≤ 64 ∧ CompletesAfterTries (.sign 2 0) (signG [.ok #v[13, 0, 0, 0, 0, 0, 0, 0]]) 1 [] [(2, rG), (3, sigG)] ∧
    (signG [.ok #v[13, 0, 0, 0, 0, 0, 0, 0]]).entropy = [] ++ .ok #v[13, 0, 0, 0, 0, 0, 0, 0] :: [] ∧
    signkG.Ready signkG.latched .secp160r1 [(2, 2), (0, 1), (1, 1)] true ∧
    signkG.latched.dlen = (signG []).latched.dlen ∧ signkG.latched.digest = (signG []).latched.digest ∧
    signkG.latched.slots.get 0 = (signG []).latched.slots.get 0 ∧
    signkG.latched.slots.get 1 = Candidate .secp160r1 #v[13, 0, 0, 0, 0, 0, 0, 0] := by
  refine ⟨signG_ready _, by decide, signG_completes, rfl, signkG_ready, rfl, rfl, by decide +kernel, ?_⟩
  rw [← candidate_eq]
  decide +kernel

/-- VERIFY of the signature of G10 under `7·G`; slots 4 to 9 hold a pair out of range and a pair that is no point. -/
def verifyG : State :=
  blockWith 1 [(0, 0x7A7F99D56472F619577C4E8C9B3A35E961472188), (1, 0x8955C17A4AA7B3CA673C6D55EE00FAE62552E356), (2, rG),
    (3, sigG), (4, Curve.n .secp160r1), (5, 1), (6, 1), (7, 1)] 21 digestG 0x00080035

theorem verifyG_ready : verifyG.Ready verifyG.latched .secp160r1 [(0, 2), (2, 2)] true :=
  ⟨⟨rfl, rfl⟩, by decide, fun _ => by change (21 : BitVec 6).toNat ≤ 32; decide⟩

theorem witness_VerifyChecksTheSignature :
    verifyG.Ready verifyG.latched .secp160r1 [(0, 2), (2, 2)] true ∧
    Valid .secp160r1 (verifyG.latched.slots.get 0) (verifyG.latched.slots.get 1) ∧
    ¬ Valid .secp160r1 (verifyG.latched.slots.get 6) (verifyG.latched.slots.get 7) ∧
    (1 ≤ verifyG.latched.slots.get 2 ∧ verifyG.latched.slots.get 2 ≤ Curve.n .secp160r1 - 1 ∧
      1 ≤ verifyG.latched.slots.get 3 ∧ verifyG.latched.slots.get 3 ≤ Curve.n .secp160r1 - 1) ∧
    ¬ verifyG.latched.slots.get 4 ≤ Curve.n .secp160r1 - 1 ∧ ¬ 1 ≤ verifyG.latched.slots.get 8 := by
  refine ⟨verifyG_ready, (valid_iff _ _ _).2 (by decide +kernel), ?_, by decide +kernel⟩
  exact fun h => absurd ((valid_iff _ _ _).1 h) (by decide +kernel)

/-- A signature from SIGNK and one from SIGN. -/
theorem witness_SignaturesVerify :
    (signkG.Ready signkG.latched .secp160r1 [(2, 2), (0, 1), (1, 1)] true ∧
      CompletesWith (.signk 2 0 1) signkG [(2, rG), (3, sigG)] ⟨false, false, false⟩) ∧
    ((signG [.ok #v[13, 0, 0, 0, 0, 0, 0, 0]]).Ready (signG [.ok #v[13, 0, 0, 0, 0, 0, 0, 0]]).latched .secp160r1
        [(2, 2), (0, 1)] true ∧
      CompletesAfterTries (.sign 2 0) (signG [.ok #v[13, 0, 0, 0, 0, 0, 0, 0]]) 1 [] [(2, rG), (3, sigG)]) ∧
    ecMul .secp160r1 (signkG.latched.slots.get 0) (Curve.G .secp160r1) =
      .affine (verifyG.latched.slots.get 0) (verifyG.latched.slots.get 1) ∧
    signkG.latched.slots.get 0 = (signG []).latched.slots.get 0 ∧
    verifyG.Ready verifyG.latched .secp160r1 [(0, 2), (2, 2)] true ∧ verifyG.latched.dlen = signkG.latched.dlen ∧
    verifyG.latched.digest = signkG.latched.digest ∧ verifyG.latched.slots.get 2 = rG ∧ verifyG.latched.slots.get 3 = sigG :=
  ⟨⟨signkG_ready, completesWith_of_body signkG_ready rfl (by decide +kernel) (by decide) (by decide)⟩,
    ⟨signG_ready _, signG_completes⟩, by decide +kernel, by decide +kernel, verifyG_ready, rfl, rfl, by decide +kernel,
    by decide +kernel⟩

/-- The generator of secp192r1, whose `y` is odd, in slots 0 and 1; its compressed form in slots 2 and 3. -/
def pointG : State :=
  block 2 [(0, Curve.gx .secp192r1), (1, Curve.gy .secp192r1), (2, 3), (3, Curve.gx .secp192r1), (4, Curve.p .secp192r1)]
    0x00000536#32

theorem pointG_ready (ra : SlotNo) (h : ra.toNat ≤ 30) : pointG.Ready pointG.latched .secp192r1 [(5, 2), (ra, 2)] false :=
  ⟨⟨rfl, rfl⟩, by
    intro fk hfk
    simp only [List.mem_cons, List.not_mem_nil, or_false] at hfk
    rcases hfk with rfl | rfl
    · decide
    · show ra.toNat + 2 - 1 ≤ 31
      omega, by decide⟩

theorem witness_CompressKeepsXAndParity :
    pointG.Ready pointG.latched .secp192r1 [(5, 2), (0, 2)] false ∧
    Valid .secp192r1 (pointG.latched.slots.get 0) (pointG.latched.slots.get 1) ∧
    ¬ Valid .secp192r1 (pointG.latched.slots.get 8) (pointG.latched.slots.get 9) := by
  refine ⟨pointG_ready 0 (by decide), (valid_iff _ _ _).2 (by decide +kernel), ?_⟩
  exact fun h => absurd ((valid_iff _ _ _).1 h) (by decide +kernel)

/-- An `x` with a point, one without (D8 of 95_test_vectors.md), and `p`. -/
theorem witness_DecompressRecoversThePoint :
    pointG.Ready pointG.latched .secp192r1 [(5, 2), (2, 2)] false ∧
    (pointG.latched.slots.get 3 < Curve.p .secp192r1 ∧ QuadraticResidue (Curve.p .secp192r1)
      ((pointG.latched.slots.get 3 ^ 3 + Curve.a .secp192r1 * pointG.latched.slots.get 3 + Curve.b .secp192r1) %
        Curve.p .secp192r1)) ∧
    (1 < Curve.p .secp256r1 ∧ ¬ QuadraticResidue (Curve.p .secp256r1)
      ((1 ^ 3 + Curve.a .secp256r1 * 1 + Curve.b .secp256r1) % Curve.p .secp256r1)) ∧
    Curve.p .secp192r1 ≤ pointG.latched.slots.get 4 := by
  refine ⟨pointG_ready 2 (by decide), ⟨by decide +kernel, (quadraticResidue_iff .secp192r1 _).2 (by decide +kernel)⟩,
    ⟨by decide, fun h => absurd ((quadraticResidue_iff .secp256r1 _).1 h) (by decide +kernel)⟩, by decide +kernel⟩

theorem witness_DecompressUndoesCompress :
    Valid .secp192r1 (Curve.gx .secp192r1) (Curve.gy .secp192r1) ∧
    pointG.Ready pointG.latched .secp192r1 [(5, 2), (0, 2)] false ∧ pointG.Ready pointG.latched .secp192r1 [(5, 2), (2, 2)] false ∧
    (pointG.latched.slots.get 0 = Curve.gx .secp192r1 ∧ pointG.latched.slots.get 1 = Curve.gy .secp192r1) ∧
    CompletesWith (.compress 5 0) pointG [(5, 3), (6, Curve.gx .secp192r1)] ⟨false, Curve.gy .secp192r1 % 2 = 1, false⟩ ∧
    pointG.latched.slots.get 2 = 3 ∧ pointG.latched.slots.get 3 = Curve.gx .secp192r1 :=
  ⟨valid_G _, pointG_ready 0 (by decide), pointG_ready 2 (by decide), by decide +kernel,
    completesWith_of_body (pointG_ready 0 (by decide)) rfl (by decide +kernel) (by decide) (by decide), by decide +kernel⟩

end Sys2Proof.Tests
end

/-! SUPPORT. What a command does, said once for all 39: its ending is a function of the latched values, the try it is at and the
provider's answers, and the state changes by that ending alone. The statements about all commands are read off it. -/

namespace Sys2Proof.Machine

/-! ## How a command's turn ends -/

/-- The end of a command's turn: it completes with a result, after some tries and with these answers left, or it waits for the
answer to the draw of a try (R906, R931). -/
inductive Ending where
  | done (r : CmdResult) (tries : Nat) (rest : List EntropyAnswer)
  | waits (t : Nat)

/-- What an ending does to the state. -/
def State.endWith (s : State) : Ending → State
  | .done (.complete ws f) n rest => { s with entropy := rest }.complete ws f n
  | .done (.raise e) n rest => { s with entropy := rest }.fail e n
  | .waits t => s.waitForDraw t

/-- The ending of a loop of KEYGEN or SIGN from try `t` on (R800, R803). -/
def loopEnding {α : Type} (c : Curve) (body : Nat → Except ErrCode α) (onOk : α → List (Nat × Nat))
    (onFail : ErrCode → ErrCode) (t : Nat) (es : List EntropyAnswer) : Ending :=
  match retryLoop c body (Config.maxTries + 1 - t) t .rng es with
  | .ok v n rest => .done (.complete (onOk v) Flags.clear) n rest
  | .fail last rest => .done (.raise (onFail last)) Config.maxTries rest
  | .waiting n => .waits n

/-- The ending of a command that has passed the common checks on the curve `c`. -/
def bodyEnding (l : Latch) (c : Curve) (t : Nat) (es : List EntropyAnswer) : Instr → Ending
  | .nop => .done (.complete [] Flags.clear) 0 es
  | .vadd rd ra rb m => .done (vaddBody rd ra rb m l c) 0 es
  | .vsub rd ra rb m => .done (vsubBody rd ra rb m l c) 0 es
  | .vmul rd ra rb m => .done (vmulBody rd ra rb m l c) 0 es
  | .vsqr rd ra m => .done (vsqrBody rd ra m l c) 0 es
  | .vshl1 rd ra m => .done (vshl1Body rd ra m l c) 0 es
  | .vshr1 rd ra m => .done (vshr1Body rd ra m l c) 0 es
  | .vcmp ra rb m => .done (vcmpBody ra rb m l c) 0 es
  | .vbitlen rd ra m => .done (vbitlenBody rd ra m l c) 0 es
  | .vtst ra m => .done (vtstBody ra m l c) 0 es
  | .vsel rd ra rb rc m => .done (vselBody rd ra rb rc m l c) 0 es
  | .vmov rd ra => .done (vmovBody rd ra l c) 0 es
  | .madd rd ra rb m => .done (maddBody rd ra rb m l c) 0 es
  | .msub rd ra rb m => .done (msubBody rd ra rb m l c) 0 es
  | .mmul rd ra rb m => .done (mmulBody rd ra rb m l c) 0 es
  | .msqr rd ra m => .done (msqrBody rd ra m l c) 0 es
  | .minv rd ra m => .done (minvBody rd ra m l c) 0 es
  | .msqrt rd ra => .done (msqrtBody rd ra l c) 0 es
  | .mred rd ra m => .done (mredBody rd ra m l c) 0 es
  | .mmont rd ra rb m => .done (mmontBody rd ra rb m l c) 0 es
  | .mtom rd ra m => .done (mtomBody rd ra m l c) 0 es
  | .mfromm rd ra m => .done (mfrommBody rd ra m l c) 0 es
  | .a2j rd ra => .done (a2jBody rd ra l c) 0 es
  | .a2jz rd ra rb => .done (a2jzBody rd ra rb l c) 0 es
  | .j2a rd ra => .done (j2aBody rd ra l c) 0 es
  | .pdbl rd ra => .done (pdblBody rd ra l c) 0 es
  | .padd rd ra rb => .done (paddBody rd ra rb l c) 0 es
  | .jadd rd ra rb => .done (jaddBody rd ra rb l c) 0 es
  | .pneg rd ra => .done (pnegBody rd ra l c) 0 es
  | .pchk ra => .done (pchkBody ra l c) 0 es
  | .smul rd ra rb => .done (smulBody rd ra rb l c) 0 es
  | .keygen rd =>
    loopEnding c (fun k => .ok (k, scalarMul c k c.G)) (fun dQ => writeTriple rd dQ.1 dQ.2.coords.1 dQ.2.coords.2)
      (fun _ => .rng) t es
  | .pubkey rd ra => .done (pubkeyBody rd ra l c) 0 es
  | .ecdh rd ra rb => .done (ecdhBody rd ra rb l c) 0 es
  | .sign rd ra =>
    if l.slot ra = 0 ∨ l.slot ra ≥ c.n then .done (.raise .scalar) 0 es
    else loopEnding c (signWith c (l.slot ra) (bits2int c l)) (fun rs => writePair rd rs.1 rs.2) id t es
  | .signk rd ra rb => .done (signkBody rd ra rb l c) 0 es
  | .verify ra rb => .done (verifyBody ra rb l c) 0 es
  | .compress rd ra => .done (compressBody rd ra l c) 0 es
  | .decompress rd ra => .done (decompressBody rd ra l c) 0 es

/-- The ending of a command: the common checks first, for all but NOP (R910). -/
def commandEnding (i : Instr) (l : Latch) (t : Nat) (es : List EntropyAnswer) : Ending :=
  if i = .nop then .done (.complete [] Flags.clear) 0 es
  else
    match commonChecks l i.spans (readsDigest i) with
    | .error e => .done (.raise e) 0 es
    | .ok c => bodyEnding l c t es i

/-- A command without draws that runs its pseudocode `body` ends by it, after no tries. -/
theorem runCommand_eq_endWith (spans : List (SlotNo × Nat)) (u : Bool) (body : Latch → Curve → CmdResult) (s : State) :
    runCommand spans u body s = .next (s.endWith
      (match commonChecks s.latched spans u with
        | .error e => .done (.raise e) 0 s.entropy
        | .ok c => .done (body s.latched c) 0 s.entropy)) := by
  unfold runCommand
  cases commonChecks s.latched spans u with
  | error e => rfl
  | ok c => cases hb : body s.latched c <;> simp only [hb] <;> rfl

theorem runLoop_eq_endWith {α : Type} (c : Curve) (body : Nat → Except ErrCode α) (onOk : α → List (Nat × Nat))
    (onFail : ErrCode → ErrCode) (s : State) :
    s.runLoop c body onOk onFail = s.endWith (loopEnding c body onOk onFail s.currentTry s.entropy) := by
  unfold State.runLoop loopEnding
  cases retryLoop c body (Config.maxTries + 1 - s.currentTry) s.currentTry .rng s.entropy <;> rfl

theorem execKeygen_eq_endWith (rd : SlotNo) (s : State) :
    execKeygen rd s = .next (s.endWith (commandEnding (.keygen rd) s.latched s.currentTry s.entropy)) := by
  unfold execKeygen commandEnding
  rw [if_neg nofun]
  simp only [Instr.spans, readsDigest]
  cases commonChecks s.latched [(rd, 3)] false with
  | error e => rfl
  | ok c => exact congrArg _ (runLoop_eq_endWith ..)

theorem execSign_eq_endWith (rd ra : SlotNo) (s : State) :
    execSign rd ra s = .next (s.endWith (commandEnding (.sign rd ra) s.latched s.currentTry s.entropy)) := by
  unfold execSign commandEnding
  rw [if_neg nofun]
  simp only [Instr.spans, readsDigest]
  cases commonChecks s.latched [(rd, 2), (ra, 1)] true with
  | error e => rfl
  | ok c =>
    simp only [bodyEnding]
    split_ifs
    · rfl
    · exact congrArg _ (runLoop_eq_endWith ..)

/-- Every command does to the state what its ending says. -/
theorem exec_eq_endWith (i : Instr) (s : State) :
    exec i s = .next (s.endWith (commandEnding i s.latched s.currentTry s.entropy)) := by
  cases i with
  | nop => rfl
  | keygen rd => exact execKeygen_eq_endWith rd s
  | sign rd ra => exact execSign_eq_endWith rd ra s
  | _ => exact runCommand_eq_endWith ..

/-! ## The endings of the loop -/

/-- The class of an exhausted loop is RNG or one that the loop's body gives (R800). -/
theorem retryLoop_fail_class {α : Type} (c : Curve) (body : Nat → Except ErrCode α) (P : ErrCode → Prop) (hrng : P .rng)
    (hbody : ∀ k e, body k = .error e → P e) : ∀ (fuel t : Nat) (last : ErrCode) (es : List EntropyAnswer)
    {e : ErrCode} {rest : List EntropyAnswer}, P last → retryLoop c body fuel t last es = .fail e rest → P e := by
  intro fuel
  induction fuel with
  | zero => intro t last es e rest hl h; cases h; exact hl
  | succ fuel ih =>
    intro t last es e rest hl h
    match es, h with
    | .fail :: es', h => exact ih _ _ es' hrng h
    | .ok w :: es', h =>
      by_cases hc : candidate c w = 0 ∨ candidate c w ≥ c.n
      · rw [retryLoop_rejected c body fuel t last w es' hc] at h
        exact ih _ _ es' hrng h
      · cases hb : body (candidate c w) with
        | ok v => rw [retryLoop_body_ok c body fuel t last w es' v hc hb] at h; cases h
        | error e' =>
          rw [retryLoop_body_error c body fuel t last e' w es' hc hb] at h
          exact ih _ _ es' (hbody _ _ hb) h

theorem signWith_error (c : Curve) {d z k : Nat} {e : ErrCode} (h : signWith c d z k = .error e) : e = .degen := by
  unfold signWith at h
  cases hs : scalarMul c k c.G with
  | inf => simp only [hs] at h; cases h; rfl
  | affine x y =>
    simp only [hs] at h
    split_ifs at h <;> cases h <;> rfl

/-- The ending is one that only the loop of KEYGEN and SIGN has, started at the try `t`: it waits at a later try or at `t` itself,
or it has some number of tries, clear flags, and no error but RNG and DEGEN (R800, R803). -/
def Ending.OfDraws (t : Nat) : Ending → Prop
  | .waits n => t ≤ n ∧ n ≤ Config.maxTries
  | .done (.complete _ f) n _ => f = Flags.clear ∧ n ≤ Config.maxTries
  | .done (.raise e) n _ => (e = .rng ∨ e = .degen) ∧ n ≤ Config.maxTries

theorem loopEnding_ofDraws {α : Type} (c : Curve) (body : Nat → Except ErrCode α) (onOk : α → List (Nat × Nat))
    (onFail : ErrCode → ErrCode) (t : Nat) (es : List EntropyAnswer)
    (hf : ∀ e, e = .rng ∨ (∃ k, body k = .error e) → onFail e = .rng ∨ onFail e = .degen) :
    (loopEnding c body onOk onFail t es).OfDraws t := by
  unfold loopEnding
  rcases retryLoop_cases c body (Config.maxTries + 1 - t) t .rng es with
    ⟨v, n, rest, h, htn, hn⟩ | ⟨e, rest, h, -⟩ | ⟨n, h, htn, hn, -⟩
  · rw [h]
    exact ⟨rfl, by omega⟩
  · rw [h]
    exact ⟨hf e (retryLoop_fail_class c body (fun e => e = .rng ∨ ∃ k, body k = .error e) (.inl rfl)
      (fun k _ hk => .inr ⟨k, hk⟩) _ _ _ _ (.inl rfl) h), le_rfl⟩
  · rw [h]
    exact ⟨htn, by omega⟩

/-- KEYGEN and SIGN, the commands that draw (R930). -/
def Draws (i : Instr) : Prop := ∃ rd ra, i = .keygen rd ∨ i = .sign rd ra

theorem keygenLoop_ofDraws (c : Curve) (onOk : Nat × Point → List (Nat × Nat)) (t : Nat) (es : List EntropyAnswer) :
    (loopEnding c (fun k => .ok (k, scalarMul c k c.G)) onOk (fun _ => .rng) t es).OfDraws t :=
  loopEnding_ofDraws _ _ _ _ _ _ fun _ _ => .inl rfl

theorem signLoop_ofDraws (c : Curve) (d z : Nat) (onOk : Nat × Nat → List (Nat × Nat)) (t : Nat) (es : List EntropyAnswer) :
    (loopEnding c (signWith c d z) onOk id t es).OfDraws t :=
  loopEnding_ofDraws _ _ _ _ _ _ fun
    | _, .inl h => .inl h
    | _, .inr ⟨_, hk⟩ => .inr (signWith_error c hk)

theorem bodyEnding_cases (l : Latch) (c : Curve) (t : Nat) (es : List EntropyAnswer) (i : Instr) :
    (∃ r, bodyEnding l c t es i = .done r 0 es) ∨ (Draws i ∧ (bodyEnding l c t es i).OfDraws t) := by
  cases i with
  | keygen rd => exact .inr ⟨⟨rd, 0, .inl rfl⟩, keygenLoop_ofDraws ..⟩
  | sign rd ra =>
    simp only [bodyEnding]
    split_ifs
    · exact .inl ⟨_, rfl⟩
    · exact .inr ⟨⟨rd, ra, .inr rfl⟩, signLoop_ofDraws ..⟩
  | _ => exact .inl ⟨_, rfl⟩

/-- Everything a command can end with: a result without tries and without an answer consumed, or, for KEYGEN and SIGN, an ending
of their loop. -/
theorem commandEnding_cases (i : Instr) (l : Latch) (t : Nat) (es : List EntropyAnswer) :
    (∃ r, commandEnding i l t es = .done r 0 es) ∨ (Draws i ∧ (commandEnding i l t es).OfDraws t) := by
  unfold commandEnding
  split_ifs
  · exact .inl ⟨_, rfl⟩
  · split
    · exact .inl ⟨_, rfl⟩
    · exact bodyEnding_cases ..

/-! ## Where a command writes -/

/-- The result is an error, a code other than that of success, or its slot writes are to the slots `ks` in that order. -/
def CmdResult.WritesAt (ks : List Nat) : CmdResult → Prop
  | .complete ws _ => ws.map Prod.fst = ks
  | .raise e => e ≠ .ok

/-- A completion is an error, or its slot writes are to the slots `ks` in that order. -/
def Ending.WritesAt (ks : List Nat) : Ending → Prop
  | .done r _ _ => r.WritesAt ks
  | .waits _ => True

@[simp] theorem writesAt_complete (ks : List Nat) (ws : List (Nat × Nat)) (f : Flags) :
    (CmdResult.complete ws f).WritesAt ks ↔ ws.map Prod.fst = ks := Iff.rfl

@[simp] theorem writesAt_raise (ks : List Nat) (e : ErrCode) : (CmdResult.raise e).WritesAt ks ↔ e ≠ .ok := Iff.rfl

@[simp] theorem writesAt_done (ks : List Nat) (r : CmdResult) (n : Nat) (rest : List EntropyAnswer) :
    (Ending.done r n rest).WritesAt ks ↔ r.WritesAt ks := Iff.rfl

@[simp] theorem writesAt_waits (ks : List Nat) (n : Nat) : (Ending.waits n).WritesAt ks := trivial

@[simp] theorem spanSlots_one (f : SlotNo) : spanSlots f 1 = [f.toNat] := rfl
@[simp] theorem spanSlots_two (f : SlotNo) : spanSlots f 2 = [f.toNat, f.toNat + 1] := rfl
@[simp] theorem spanSlots_three (f : SlotNo) : spanSlots f 3 = [f.toNat, f.toNat + 1, f.toNat + 2] := rfl

@[simp] theorem writeSlot_fst (f : SlotNo) (v : Nat) : (writeSlot f v).map Prod.fst = [f.toNat] := rfl
@[simp] theorem writePair_fst (f : SlotNo) (v0 v1 : Nat) : (writePair f v0 v1).map Prod.fst = [f.toNat, f.toNat + 1] := rfl
@[simp] theorem writeDouble_fst (f : SlotNo) (v : Nat) : (writeDouble f v).map Prod.fst = [f.toNat, f.toNat + 1] := rfl
@[simp] theorem writeTriple_fst (f : SlotNo) (v0 v1 v2 : Nat) :
    (writeTriple f v0 v1 v2).map Prod.fst = [f.toNat, f.toNat + 1, f.toNat + 2] := rfl
@[simp] theorem modResult_writesAt (f : SlotNo) (v : Nat) : (modResult f v).WritesAt [f.toNat] := rfl
@[simp] theorem affineResult_writesAt (f : SlotNo) (P : Point) : (affineResult f P).WritesAt [f.toNat, f.toNat + 1] := rfl
@[simp] theorem jacResult_writesAt (f : SlotNo) (J : Jac) :
    (jacResult f J).WritesAt [f.toNat, f.toNat + 1, f.toNat + 2] := rfl

theorem loopEnding_writesAt {α : Type} (c : Curve) (body : Nat → Except ErrCode α) (onOk : α → List (Nat × Nat))
    (onFail : ErrCode → ErrCode) (t : Nat) (es : List EntropyAnswer) {ks : List Nat}
    (hok : ∀ v, (onOk v).map Prod.fst = ks) (hd : (loopEnding c body onOk onFail t es).OfDraws t) :
    (loopEnding c body onOk onFail t es).WritesAt ks := by
  unfold loopEnding at hd ⊢
  split at hd
  · exact hok _
  · rcases hd with ⟨h | h, -⟩ <;> simp [h]
  · trivial

/-- A command that has passed its checks writes its RD span (R310). -/
theorem bodyEnding_writesAt (l : Latch) (c : Curve) (t : Nat) (es : List EntropyAnswer) (i : Instr) :
    (bodyEnding l c t es i).WritesAt (destSlots i) := by
  cases i with
  | keygen rd => exact loopEnding_writesAt _ _ _ _ _ _ (fun _ => rfl) (keygenLoop_ofDraws ..)
  | sign rd ra =>
    simp only [bodyEnding]
    split_ifs
    · simp
    · exact loopEnding_writesAt _ _ _ _ _ _ (fun _ => rfl) (signLoop_ofDraws ..)
  | nop | vadd | vsub | vmul | vsqr | vshl1 | vshr1 | vcmp | vbitlen | vtst | vsel | vmov | mred | pchk => rfl
  | madd | msub | mmul | msqr | minv | msqrt | mmont | mtom | mfromm =>
    simp only [bodyEnding, maddBody, msubBody, mmulBody, msqrBody, minvBody, msqrtBody, mmontBody, mtomBody, mfrommBody,
      destSlots, writesAt_done]
    split_ifs <;> simp
  | a2j | a2jz | j2a | pdbl | padd | jadd | pneg | smul | compress | verify | decompress =>
    simp only [bodyEnding, a2jBody, a2jzBody, j2aBody, pdblBody, paddBody, jaddBody, pnegBody, smulBody, compressBody,
      verifyBody, decompressBody, destSlots, writesAt_done]
    split_ifs <;> simp
  | pubkey rd ra =>
    simp only [bodyEnding, pubkeyBody, destSlots, writesAt_done]
    split_ifs
    · simp
    · cases scalarMul c (l.slot ra) c.G <;> simp
  | ecdh rd ra rb =>
    simp only [bodyEnding, ecdhBody, destSlots, writesAt_done]
    split_ifs
    · simp
    · simp
    · cases scalarMul c (l.slot rb) (.affine (l.pair ra).1 (l.pair ra).2) <;> simp
  | signk rd ra rb =>
    simp only [bodyEnding, signkBody, destSlots, writesAt_done]
    split_ifs
    · simp
    · simp
    · cases hsig : signWith c (l.slot ra) (bits2int c l) (l.slot rb) with
      | ok rs => simp
      | error e => simp [signWith_error c hsig]

theorem commonChecks_error {l : Latch} {spans : List (SlotNo × Nat)} {u : Bool} {e : ErrCode}
    (h : commonChecks l spans u = .error e) : e = .curve ∨ e = .operand := by
  unfold commonChecks at h
  split at h
  · cases h; exact .inl rfl
  · split_ifs at h
    cases h; exact .inr rfl

theorem commandEnding_writesAt (i : Instr) (l : Latch) (t : Nat) (es : List EntropyAnswer) :
    (commandEnding i l t es).WritesAt (destSlots i) := by
  unfold commandEnding
  split_ifs with h
  · subst h; rfl
  · cases hc : commonChecks l i.spans (readsDigest i) with
    | error e => rcases commonChecks_error hc with rfl | rfl <;> simp
    | ok c => exact bodyEnding_writesAt ..

/-! ## What a command reads -/

/-- Two sets of latched values agree on the slots `ks`. -/
def Latch.AgreeOn (l1 l2 : Latch) (ks : List Nat) : Prop := ∀ k ∈ ks, l1.slots.get k = l2.slots.get k

section
variable {l1 l2 : Latch}

theorem agreeOn_append (ks1 ks2 : List Nat) :
    l1.AgreeOn l2 (ks1 ++ ks2) ↔ l1.AgreeOn l2 ks1 ∧ l1.AgreeOn l2 ks2 := List.forall_mem_append

theorem agreeOn_span_one (f : SlotNo) : l1.AgreeOn l2 (spanSlots f 1) ↔ l1.slot f = l2.slot f := by
  simp [Latch.AgreeOn, Latch.slot]

theorem agreeOn_span_two (f : SlotNo) : l1.AgreeOn l2 (spanSlots f 2) ↔ l1.pair f = l2.pair f := by
  simp [Latch.AgreeOn, Latch.pair]

theorem agreeOn_span_three (f : SlotNo) : l1.AgreeOn l2 (spanSlots f 3) ↔ l1.jac f = l2.jac f := by
  simp [Latch.AgreeOn, Latch.jac]

theorem double_eq_pair (l : Latch) (f : SlotNo) : l.double f = (l.pair f).1 + 2 ^ 256 * (l.pair f).2 := rfl

theorem bits2int_congr (c : Curve) (hd : l1.dlen = l2.dlen)
    (hb : ∀ b, b < l1.dlen.toNat → Digest.byte l1.digest b = Digest.byte l2.digest b) : bits2int c l1 = bits2int c l2 := by
  have hbytes : l1.digest.bytes l1.dlen.toNat = l2.digest.bytes l1.dlen.toNat :=
    List.map_congr_left fun b hmem => hb b (List.mem_range.1 hmem)
  simp only [bits2int, hbytes, ← hd]

/-- A command that has passed its checks depends on its RA, RB and RC spans, and on the digest scalar where it reads the digest. -/
theorem bodyEnding_congr (c : Curve) (t : Nat) (es : List EntropyAnswer) (i : Instr) (h : l1.AgreeOn l2 (sourceSlots i))
    (hz : readsDigest i = true → bits2int c l1 = bits2int c l2) : bodyEnding l1 c t es i = bodyEnding l2 c t es i := by
  cases i with
  | nop | keygen => rfl
  | vadd | vmul | vsqr | vshl1 | vshr1 | vcmp | vbitlen | vtst | vmov =>
    simp only [sourceSlots, agreeOn_append, agreeOn_span_one] at h
    simp only [bodyEnding, vaddBody, vmulBody, vsqrBody, vshl1Body, vshr1Body, vcmpBody, vbitlenBody, vtstBody, vmovBody,
      Latch.vli, h]
  | vsub | vsel =>
    simp only [sourceSlots, agreeOn_append, agreeOn_span_one] at h
    simp only [bodyEnding, vsubBody, vselBody, Latch.vli, h]
    rfl -- the two sides differ in how `<` and `≠` are decided
  | madd | msub | mmul | msqr | minv | msqrt | mmont | mtom | mfromm | mred =>
    simp only [sourceSlots, agreeOn_append, agreeOn_span_one, agreeOn_span_two] at h
    simp only [bodyEnding, maddBody, msubBody, mmulBody, msqrBody, minvBody, msqrtBody, mredBody, mmontBody, mtomBody,
      mfrommBody, double_eq_pair, h]
  | a2j | a2jz | j2a | pdbl | padd | jadd | pneg | pchk | smul =>
    simp only [sourceSlots, agreeOn_append, agreeOn_span_one, agreeOn_span_two, agreeOn_span_three] at h
    simp only [bodyEnding, a2jBody, a2jzBody, j2aBody, pdblBody, paddBody, jaddBody, pnegBody, pchkBody, smulBody, h]
  | pubkey | ecdh | compress | decompress =>
    simp only [sourceSlots, agreeOn_append, agreeOn_span_one, agreeOn_span_two] at h
    simp only [bodyEnding, pubkeyBody, ecdhBody, compressBody, decompressBody, h]
  | sign | signk | verify =>
    simp only [sourceSlots, agreeOn_append, agreeOn_span_one, agreeOn_span_two] at h
    simp only [bodyEnding, signkBody, verifyBody, h, hz rfl]

theorem commonChecks_congr (spans : List (SlotNo × Nat)) {u : Bool} (hc : l1.curve = l2.curve)
    (hd : u = true → l1.dlen = l2.dlen) : commonChecks l1 spans u = commonChecks l2 spans u := by
  unfold commonChecks operandError
  rw [hc]
  cases u with
  | false => rfl
  | true => rw [hd rfl]

/-- Runs that agree on the curve, on the RA, RB and RC spans, and on the digest's first DLEN bytes where the digest is read, end
alike (R306). -/
theorem commandEnding_congr (i : Instr) (t : Nat) (es : List EntropyAnswer) (hc : l1.curve = l2.curve)
    (h : l1.AgreeOn l2 (sourceSlots i))
    (hd : readsDigest i = true → l1.dlen = l2.dlen ∧
      ∀ b, b < l1.dlen.toNat → Digest.byte l1.digest b = Digest.byte l2.digest b) :
    commandEnding i l1 t es = commandEnding i l2 t es := by
  have hbody : ∀ c, bodyEnding l1 c t es i = bodyEnding l2 c t es i := fun c =>
    bodyEnding_congr c t es i h fun hr => bits2int_congr c (hd hr).1 (hd hr).2
  simp only [commandEnding, commonChecks_congr i.spans hc fun hr => (hd hr).1, hbody]

end

/-! ## What an ending leaves -/

/-- A command that completes has an ending with a result; it then leaves the engine idle. -/
theorem endWith_idle {s : State} {en : Ending} (h : (s.endWith en).eng = .idle) : ∃ r n rest, en = .done r n rest := by
  cases en with
  | done r n rest => exact ⟨r, n, rest, rfl⟩
  | waits n => cases h

theorem endWith_done_eng (s : State) (r : CmdResult) (n : Nat) (rest : List EntropyAnswer) :
    (s.endWith (.done r n rest)).eng = .idle := by
  cases r <;> rfl

theorem currentTry_congr {s1 s2 : State} (hp : s1.entPending = s2.entPending) (ht : s1.tryCounter = s2.tryCounter) :
    s1.currentTry = s2.currentTry := by
  simp only [State.currentTry, hp, ht]

/-- The slots a list of writes touches end alike, whatever they held. -/
theorem Slots.get_putAll_congr (ws : List (Nat × Nat)) : ∀ (x y : Slots) (k : Nat),
    x.get k = y.get k ∨ k ∈ ws.map Prod.fst → (x.putAll ws).get k = (y.putAll ws).get k := by
  induction ws with
  | nil =>
    rintro x y k (h | h)
    exacts [h, absurd h List.not_mem_nil]
  | cons w ws ih =>
    intro x y k h
    refine ih _ _ k ?_
    by_cases hw : k = w.1
    · left
      subst hw
      simp [Slots.get, Slots.put, Vector.getElem?_setIfInBounds]
    · rw [Slots.get_put_other _ _ _ _ hw, Slots.get_put_other _ _ _ _ hw]
      simpa [hw] using h

end Sys2Proof.Machine

/-! SUPPORT. What one step can be: the engine's turn, a bus access, an answer, reset; and what each does to the registers. -/

namespace Sys2Proof.Machine

/-! ## The opcode of a decoded word -/

/-- A row of the opcode table makes commands of its own OP (R310). -/
theorem opcode_make : ∀ r ∈ opTable, ∀ w : Word, (r.make w).opcode = r.op := by
  simp only [opTable, vliRows, modularRows, pointRows, protocolRows, List.cons_append, List.nil_append, List.forall_mem_cons,
    List.not_mem_nil, IsEmpty.forall_iff, implies_true, and_true]
  and_intros
  all_goals exact fun _ => rfl

theorem rowOf_some {op : BitVec 8} {r : OpRow} (h : rowOf op = some r) : r ∈ opTable ∧ r.op = op := by
  unfold rowOf at h
  exact ⟨List.mem_of_find?_eq_some h, by simpa using List.find?_some h⟩

/-- A word that decodes carries the opcode of its command. -/
theorem opField_of_decode {w : Word} {i : Instr} (h : decode w = .ok i) : opField w = i.opcode := by
  obtain ⟨-, he⟩ | ⟨r, hr, ⟨-, hok⟩ | ⟨-, he⟩⟩ := decode_cases w
  · rw [he] at h; cases h
  · rw [hok] at h
    cases h
    obtain ⟨hmem, hop⟩ := rowOf_some hr
    rw [opcode_make r hmem, hop]
  · rw [he] at h; cases h

/-! ## One step -/

/-- The engine's turn of a running word ends as its command does, or with the error of a word that is no command, which consumes
no answer. -/
theorem runEngine_busy {s : State} {l : Latch} (hb : s.eng = .busy l) :
    (∃ i, decode l.word = .ok i ∧ s.runEngine = .next (s.endWith (commandEnding i l s.currentTry s.entropy))) ∨
    ∃ e, s.runEngine = .next (s.endWith (.done (.raise e) 0 s.entropy)) := by
  unfold State.runEngine
  rw [hb]
  cases hd : decode l.word with
  | ok i => exact .inl ⟨i, rfl, by simp only [hd, exec_eq_endWith, State.latched_of_busy _ _ hb]⟩
  | error e => exact .inr ⟨rejectError s.latched e, by simp only [hd]; rfl⟩

/-- Everything a step can be (log 2). -/
theorem step_cases (s : State) :
    (s.EngineTurn ∧ step s = s.advance.runEngine) ∨
    (∃ a rest, s.inputs = .bus a :: rest ∧ step s = .next (s.advance.busAccess a)) ∨
    (∃ es, step s = .next { s.advance with entropy := es }) ∨
    (∃ rest, s.inputs = .reset :: rest ∧ step s = .next s.advance.resetInput) := by
  match hi : s.inputs with
  | [] => exact .inl ⟨.inl hi, step_engineTurn (.inl hi)⟩
  | .engine :: rest => exact .inl ⟨.inr ⟨rest, hi⟩, step_engineTurn (.inr ⟨rest, hi⟩)⟩
  | .bus a :: rest => exact .inr (.inl ⟨a, rest, rfl, step_bus hi⟩)
  | .entropy a :: rest => exact .inr (.inr (.inl ⟨s.entropy ++ [a], by simp only [step, hi]⟩))
  | .lateEntropy a :: rest => exact .inr (.inr (.inl ⟨s.entropy, by simp only [step, hi]; rfl⟩))
  | .reset :: rest => exact .inr (.inr (.inr ⟨rest, rfl, by simp only [step, hi]⟩))

/-- Everything a bus access can be: a supported write, or an access that only puts an answer on the bus (R214, R220). -/
theorem busAccess_cases (a : Access) (s : State) :
    (∃ v, a.supported = true ∧ a.kind = .write v ∧
      s.busAccess a = { s.writeReg (Reg.ofOffset a.offset) v with resp := some (.writeDone false) }) ∨
    ∃ r, s.busAccess a = { s with resp := some r } := by
  unfold State.busAccess
  cases a.supported <;> cases a.kind
  · exact .inr ⟨_, rfl⟩
  · exact .inr ⟨_, rfl⟩
  · exact .inr ⟨_, rfl⟩
  · exact .inl ⟨_, rfl, rfl, rfl⟩

/-- A register write to a running block is ignored, refused, or the W1C write of STATUS (R1020). -/
theorem writeReg_busy {s : State} {l : Latch} (hb : s.eng = .busy l) (r : Reg) (v : Word) :
    s.writeReg r v = s ∨ s.writeReg r v = s.refuseWrite ∨ (r = .status ∧ s.writeReg r v = s.writeStatus v) := by
  have hbusy := State.busy_of_busy s l hb
  cases r with
  | id | reserved => exact .inl rfl
  | status => exact .inr (.inr ⟨rfl, rfl⟩)
  | ctrl | cmd | dlen | digest | slot => exact .inr (.inl (if_pos hbusy))

/-! ## Steps that write a register -/

theorem advance_of_inputs {s : State} {i : Input} {rest : List Input} (h : s.inputs = i :: rest) :
    s.advance = { s with inputs := rest, resp := none } := by
  simp only [State.advance, h, List.tail_cons]

section
variable {s : State} (h : s.eng = .idle) (v : Word)
include h

theorem writeReg_ctrl_idle : s.writeReg .ctrl v = { s with ctrlCurve := v.extractLsb' 0 3, ctrlIe := v.getLsbD 3 } := by
  simp [State.writeReg, State.busy_of_idle s h]

theorem writeReg_cmd_idle : s.writeReg .cmd v = s.issue v := by
  simp [State.writeReg, State.busy_of_idle s h]

theorem writeReg_dlen_idle : s.writeReg .dlen v = { s with dlen := v.extractLsb' 0 6 } := by
  simp [State.writeReg, State.busy_of_idle s h]

theorem writeReg_digest_idle (j : BitVec 3) :
    s.writeReg (.digest j) v = { s with digest := s.digest.setIfInBounds j.toNat v } := by
  simp [State.writeReg, State.busy_of_idle s h]

theorem writeReg_slot_idle (k : SlotNo) (j : BitVec 3) :
    s.writeReg (.slot k j) v =
      { s with slots := s.slots.setIfInBounds k.toNat (setSlotWord (s.slots[k.toNat]?.getD 0) j v) } := by
  simp [State.writeReg, State.busy_of_idle s h]

end

/-- A register write neither reads nor changes what the outside world does next. -/
theorem writeReg_setInputs (s : State) (is : List Input) (q : Option BusResponse) (r : Reg) (v : Word) :
    State.writeReg { s with inputs := is, resp := q } r v = { s.writeReg r v with inputs := is, resp := q } := by
  obtain ⟨slots, ctrlCurve, ctrlIe, cmd, done, flags, accerr, err, tries, dlen, digest, eng⟩ := s
  cases r with
  | id | reserved | status => rfl
  | ctrl | cmd | dlen | digest | slot => cases eng <;> rfl

/-- The step that takes a supported write to the register `r`. -/
theorem step_writeReg {s : State} {off : Nat} {v : Word} {rest : List Input} {r : Reg} (h : s.inputs = hostWrite off v :: rest)
    (hr : Reg.ofOffset (BitVec.ofNat 11 off) = r) (hoff : off < 2048) (h4 : off % 4 = 0) :
    step s = .next { s.writeReg r v with inputs := rest, resp := some (.writeDone false) } := by
  rw [step_hostWrite hoff h4 h, hr, advance_of_inputs h, writeReg_setInputs]

end Sys2Proof.Machine

/-! SUPPORT. The register words, field by field: CTRL, DLEN, STATUS and the bytes of DIGEST (R121 to R126). -/

namespace Sys2Proof.Machine

/-! ## The words of CTRL, DLEN and STATUS -/

/-- The low bits of a word under zeros are the word masked. -/
theorem zero_append_extractLsb' (n k : Nat) (v : BitVec (n + k)) :
    0#n ++ v.extractLsb' 0 k = v &&& BitVec.ofNat (n + k) (2 ^ k - 1) := by
  apply BitVec.eq_of_toNat_eq
  have hlt : 2 ^ k - 1 < 2 ^ (n + k) :=
    (Nat.sub_lt (Nat.two_pow_pos k) Nat.one_pos).trans_le (Nat.pow_le_pow_right (by norm_num) (Nat.le_add_left k n))
  rw [BitVec.toNat_and, BitVec.toNat_ofNat, Nat.mod_eq_of_lt hlt, Nat.and_two_pow_sub_one_eq_mod]
  simp [BitVec.toNat_append]

theorem ofBool_getLsbD {w : Nat} (v : BitVec w) (i : Nat) : BitVec.ofBool (v.getLsbD i) = v.extractLsb' i 1 := by
  ext j hj
  obtain rfl : j = 0 := by omega
  simp

/-- A CTRL write reads back with its reserved bits 0 (R121). -/
theorem ctrlWord_of_write (s : State) (v : Word) :
    State.ctrlWord { s with ctrlCurve := v.extractLsb' 0 3, ctrlIe := v.getLsbD 3 } = v &&& 0x0000000F#32 := by
  have h : v.extractLsb' 3 1 ++ v.extractLsb' 0 3 = v.extractLsb' 0 4 :=
    BitVec.extractLsb'_append_extractLsb'_eq_extractLsb' rfl
  rw [State.ctrlWord, ofBool_getLsbD, BitVec.append_assoc, h]
  exact zero_append_extractLsb' 28 4 v

/-- A DLEN write reads back with its reserved bits 0 (R125). -/
theorem dlenWord_of_write (s : State) (v : Word) :
    State.dlenWord { s with dlen := v.extractLsb' 0 6 } = v &&& 0x0000003F#32 :=
  zero_append_extractLsb' 26 6 v

theorem ctrlWord_ie (s : State) : s.ctrlWord.getLsbD 3 = s.ctrlIe := by
  unfold State.ctrlWord
  rw [BitVec.getLsbD_append, BitVec.getLsbD_append]
  simp

/-- The fields of a word laid out as STATUS (R123), read back. -/
theorem status_layout (n : BitVec 8) (e : BitVec 4) (a v c z d b : Bool) :
    let w := 0#8 ++ n ++ 0#4 ++ e ++ 0#2 ++ BitVec.ofBool a ++ BitVec.ofBool v ++ BitVec.ofBool c ++ BitVec.ofBool z ++
      BitVec.ofBool d ++ BitVec.ofBool b
    w.getLsbD 0 = b ∧ w.getLsbD 1 = d ∧ w.getLsbD 2 = z ∧ w.getLsbD 3 = c ∧ w.getLsbD 4 = v ∧ w.getLsbD 5 = a ∧
    w.extractLsb' 6 2 = 0#2 ∧ w.extractLsb' 12 4 = 0#4 ∧ w.extractLsb' 16 8 = n ∧ w.extractLsb' 24 8 = 0#8 ∧
    w.extractLsb' 8 4 = e := by
  intro w
  refine ⟨?_, ?_, ?_, ?_, ?_, ?_, ?_, ?_, ?_, ?_, ?_⟩
  iterate 6
    simp only [w, BitVec.getLsbD_append]
    simp
  all_goals
    simp (disch := omega) only [w, BitVec.extractLsb'_append_eq_of_le, BitVec.extractLsb'_append_eq_of_add_le, Nat.reduceSub,
      BitVec.extractLsb'_eq_self]

/-- The write-one-to-clear rule, as R123 words it. -/
theorem clear_bit (b w : Bool) : (b && !w) = if w = true then false else b := by
  cases b <;> cases w <;> rfl

theorem busy_iff (s : State) : s.busy = true ↔ s.eng ≠ .idle := by
  cases h : s.eng <;> simp [State.busy, h]

/-! ## The bytes of DIGEST -/

/-- The DIGEST word that an offset of the buffer names (R210). -/
theorem ofOffset_digest_word (j : Fin 8) : Reg.ofOffset (BitVec.ofNat 11 (0x040 + 4 * j.val)) = .digest (BitVec.ofNat 3 j) := by
  revert j; decide

/-- The bytes of a DIGEST word, the most significant first (R126). -/
theorem digest_byte (d : Digest) (j : Fin 8) {r : Nat} (hr : r < 4) :
    Digest.byte d (4 * j.val + r) = d[j].extractLsb' (24 - 8 * r) 8 := by
  have hdiv : (4 * j.val + r) / 4 = j.val := by omega
  have hmod : (4 * j.val + r) % 4 = r := by omega
  rw [Digest.byte, hdiv, hmod]
  simp

theorem digest_set_other (d : Digest) {j j' : Fin 8} (h : j' ≠ j) (v : Word) : (d.setIfInBounds j.val v)[j'] = d[j'] := by
  have : j.val ≠ j'.val := fun he => h (Fin.ext he.symm)
  simp [this]

end Sys2Proof.Machine

/-! SUPPORT. The invariant, one lemma per event that can move the state, and the interrupt output likewise. -/

namespace Sys2Proof.Machine

/-! ## The invariant -/

theorem State.inv_of_idle {s : State} (h : s.eng = .idle) : s.Inv ↔ s.IdleInv := by
  simp only [State.Inv, h]

theorem State.inv_of_busy {s : State} {l : Latch} (h : s.eng = .busy l) : s.Inv ↔ s.BusyInv l := by
  simp only [State.Inv, h]

/-- An issue starts a command in the invariant (R905). -/
theorem inv_issue (s : State) (w : Word) : (s.issue w).Inv :=
  ⟨rfl, rfl, rfl, rfl, rfl, fun _ => rfl, nofun⟩

theorem inv_resetInput (s : State) : s.resetInput.Inv :=
  ⟨rfl, rfl, Nat.zero_le _, fun h => absurd rfl h, fun h => absurd rfl h⟩

theorem inv_writeReg {s : State} (h : s.Inv) (r : Reg) (v : Word) : (s.writeReg r v).Inv := by
  cases he : s.eng with
  | busy l =>
    obtain ⟨hl, hdone, hrest⟩ := (State.inv_of_busy he).1 h
    obtain hw | hw | ⟨-, hw⟩ := writeReg_busy he r v
    · rw [hw]; exact h
    · rw [hw]; exact (State.inv_of_busy (s := s.refuseWrite) he).2 ⟨hl, hdone, hrest⟩
    · rw [hw]; exact (State.inv_of_busy (s := s.writeStatus v) he).2 ⟨hl, by simp [hdone], hrest⟩
  | idle =>
    have hidle := (State.inv_of_idle he).1 h
    cases r with
    | id | reserved => exact h
    | status => exact (State.inv_of_idle (s := s.writeStatus v) he).2 hidle
    | cmd => rw [writeReg_cmd_idle he]; exact inv_issue s v
    | ctrl | dlen | digest | slot =>
      simp only [writeReg_ctrl_idle he, writeReg_dlen_idle he, writeReg_digest_idle he, writeReg_slot_idle he, State.Inv, he]
      exact hidle

theorem inv_busAccess {s : State} (h : s.Inv) (a : Access) : (s.busAccess a).Inv := by
  obtain ⟨v, -, -, hw⟩ | ⟨r, hr⟩ := busAccess_cases a s
  · rw [hw]; exact inv_writeReg h _ v
  · rw [hr]; exact h

/-- A completion with a result after no tries, or from a loop of draws, is in the invariant (R123, R124, R906). -/
theorem inv_endWith_done (s : State) {r : CmdResult} {n : Nat} {rest : List EntropyAnswer}
    (hn : n = 0 ∨ ∃ t, (Ending.done r n rest).OfDraws t) : (s.endWith (.done r n rest)).Inv := by
  refine (State.inv_of_idle (endWith_done_eng ..)).2 ?_
  cases r with
  | complete ws f =>
    obtain rfl | ⟨-, hf, hn⟩ := hn
    · exact ⟨rfl, rfl, Nat.zero_le _, fun h => absurd rfl h, fun h => absurd rfl h⟩
    · exact ⟨rfl, rfl, (Nat.mod_le _ _).trans hn, fun h => absurd rfl h, fun _ => ⟨hf, .inl rfl⟩⟩
  | raise e =>
    obtain rfl | ⟨-, he, hn⟩ := hn
    · exact ⟨rfl, rfl, Nat.zero_le _, fun _ => rfl, fun h => absurd rfl h⟩
    · exact ⟨rfl, rfl, (Nat.mod_le _ _).trans hn, fun _ => rfl, fun _ => ⟨rfl, .inr he⟩⟩

/-- The try of a running command is at least 1 (R800). -/
theorem one_le_currentTry {s : State} {l : Latch} (h : s.BusyInv l) : 1 ≤ s.currentTry := by
  obtain ⟨-, -, -, -, -, -, hp⟩ := h
  unfold State.currentTry
  split_ifs with he
  · exact (hp he).1
  · exact le_rfl

/-- A KEYGEN or SIGN that waits at a try up to MAX_TRIES is in the invariant (R930). -/
theorem inv_waitForDraw {s : State} {l : Latch} {i : Instr} {n : Nat} (he : s.eng = .busy l) (h : s.BusyInv l)
    (hdec : decode l.word = .ok i) (hi : Draws i) (h1 : 1 ≤ n) (hn : n ≤ Config.maxTries) : (s.waitForDraw n).Inv := by
  obtain ⟨hl, hdone, hflags, herr, htries, -, -⟩ := h
  have hop : opField l.word = 0x30#8 ∨ opField l.word = 0x33#8 := by
    rw [opField_of_decode hdec]
    obtain ⟨rd, ra, rfl | rfl⟩ := hi
    exacts [.inl rfl, .inr rfl]
  refine (State.inv_of_busy (l := l) (congrArg _ (State.latched_of_busy s l he))).2 ?_
  exact ⟨hl, hdone, hflags, herr, htries, nofun, fun _ => ⟨h1, hn, hop⟩⟩

theorem inv_commandEnding {s : State} {l : Latch} {i : Instr} (he : s.eng = .busy l) (h : s.BusyInv l)
    (hdec : decode l.word = .ok i) : (s.endWith (commandEnding i l s.currentTry s.entropy)).Inv := by
  obtain ⟨r, hr⟩ | ⟨hi, hdraws⟩ := commandEnding_cases i l s.currentTry s.entropy
  · rw [hr]
    exact inv_endWith_done s (.inl rfl)
  · cases hen : commandEnding i l s.currentTry s.entropy with
    | done r n rest => exact inv_endWith_done s (.inr ⟨_, hen ▸ hdraws⟩)
    | waits n =>
      rw [hen] at hdraws
      obtain ⟨htn, hn⟩ := hdraws
      exact inv_waitForDraw he h hdec hi ((one_le_currentTry h).trans htn) hn

theorem inv_runEngine {s t : State} (h : s.Inv) (ht : s.runEngine = .next t) : t.Inv := by
  cases he : s.eng with
  | idle =>
    simp only [State.runEngine, he] at ht
    cases ht
    exact h
  | busy l =>
    obtain ⟨i, hdec, hrun⟩ | ⟨e, hrun⟩ := runEngine_busy he
    · rw [hrun] at ht
      cases ht
      exact inv_commandEnding he ((State.inv_of_busy he).1 h) hdec
    · rw [hrun] at ht
      cases ht
      exact inv_endWith_done s (.inl rfl)

/-! ## The interrupt output -/

theorem irq_iff (s : State) : s.irq = true ↔ s.done = true ∧ s.ctrlIe = true := Bool.and_eq_true_iff

/-- STATUS bit 1 is DONE (R123). -/
theorem statusWord_done (s : State) : s.statusWord.getLsbD 1 = s.done := by
  obtain ⟨-, h, -⟩ := status_layout s.tries s.err.code s.accerr s.flags.v s.flags.c s.flags.z s.done s.busy
  exact h

/-- The engine's turn completes a running command, and IRQ then is IE, or it leaves IRQ alone (R920). -/
theorem irq_runEngine {s t : State} (ht : s.runEngine = .next t) :
    (s.busy = true ∧ t.eng = .idle ∧ t.irq = s.ctrlIe) ∨ (t.irq = s.irq ∧ (s.busy = true → t.eng ≠ .idle)) := by
  cases he : s.eng with
  | idle =>
    simp only [State.runEngine, he] at ht
    cases ht
    exact .inr ⟨rfl, by simp [State.busy_of_idle s he]⟩
  | busy l =>
    have hrun : ∃ en, s.runEngine = .next (s.endWith en) := by
      obtain ⟨i, -, h⟩ | ⟨e, h⟩ := runEngine_busy he
      exacts [⟨_, h⟩, ⟨_, h⟩]
    obtain ⟨en, hrun⟩ := hrun
    rw [hrun] at ht
    cases ht
    cases en with
    | done r n rest => exact .inl ⟨State.busy_of_busy s l he, endWith_done_eng .., by cases r <;> exact Bool.true_and _⟩
    | waits n => exact .inr ⟨rfl, fun _ => nofun⟩

/-- What a register write does to IRQ (R131, R921). -/
theorem irq_writeReg (s : State) (r : Reg) (v : Word) :
    (s.writeReg r v).irq = s.irq ∨
    (r = .status ∧ (s.writeReg r v).irq = (s.irq && !v.getLsbD 1)) ∨
    (s.eng = .idle ∧
      ((r = .ctrl ∧ (s.writeReg r v).irq = (s.done && v.getLsbD 3)) ∨ (r = .cmd ∧ (s.writeReg r v).irq = false))) := by
  cases he : s.eng with
  | busy l =>
    obtain h | h | ⟨hr, h⟩ := writeReg_busy he r v
    · exact .inl (by rw [h])
    · exact .inl (by rw [h]; rfl)
    · exact .inr (.inl ⟨hr, by rw [h]; exact Bool.and_right_comm ..⟩)
  | idle =>
    cases r with
    | id | reserved => exact .inl rfl
    | dlen => exact .inl (by rw [writeReg_dlen_idle he]; rfl)
    | digest j => exact .inl (by rw [writeReg_digest_idle he]; rfl)
    | slot k j => exact .inl (by rw [writeReg_slot_idle he]; rfl)
    | status => exact .inr (.inl ⟨rfl, Bool.and_right_comm ..⟩)
    | ctrl => exact .inr (.inr ⟨rfl, .inl ⟨rfl, by rw [writeReg_ctrl_idle he]; rfl⟩⟩)
    | cmd => exact .inr (.inr ⟨rfl, .inr ⟨rfl, by rw [writeReg_cmd_idle he]; rfl⟩⟩)

/-- The offsets of CTRL, CMD and STATUS (R210). -/
theorem offset_of_reg {off : BitVec 11} :
    (Reg.ofOffset off = .ctrl → off = 0x004) ∧ (Reg.ofOffset off = .cmd → off = 0x008) ∧
    (Reg.ofOffset off = .status → off = 0x00C) := by
  unfold Reg.ofOffset
  refine ⟨fun h => ?_, fun h => ?_, fun h => ?_⟩
  all_goals
    split_ifs at h
    assumption

/-- Everything a step can do to IRQ: it is as before, or one of the events of R131 and R921 sets it. -/
theorem irq_step {s t : State} (ht : step s = .next t) :
    t.irq = s.irq ∨
    (s.busy = true ∧ s.EngineTurn ∧ t.eng = .idle ∧ t.irq = s.ctrlIe) ∨
    ((∃ rest, s.inputs = .reset :: rest) ∧ t.irq = false) ∨
    ∃ a v rest, s.inputs = .bus a :: rest ∧ a.supported = true ∧ a.kind = .write v ∧
      ((a.offset = 0x00C ∧ t.irq = (s.irq && !v.getLsbD 1)) ∨
        (a.offset = 0x004 ∧ s.eng = .idle ∧ t.irq = (s.done && v.getLsbD 3)) ∨
        (a.offset = 0x008 ∧ s.eng = .idle ∧ t.irq = false)) := by
  obtain ⟨hturn, h⟩ | ⟨a, rest, hi, h⟩ | ⟨es, h⟩ | ⟨rest, hi, h⟩ := step_cases s
  · rw [h] at ht
    obtain ⟨hb, hidle, hirq⟩ | ⟨hirq, -⟩ := irq_runEngine ht
    · exact .inr (.inl ⟨hb, hturn, hidle, hirq⟩)
    · exact .inl hirq
  · rw [h] at ht
    cases ht
    obtain ⟨v, hsup, hkind, hw⟩ | ⟨r, hr⟩ := busAccess_cases a s.advance
    · obtain ⟨hctrl, hcmd, hstatus⟩ := offset_of_reg (off := a.offset)
      rw [hw]
      obtain hsame | ⟨hr, hirq⟩ | ⟨hidle, ⟨hr, hirq⟩ | ⟨hr, hirq⟩⟩ := irq_writeReg s.advance (Reg.ofOffset a.offset) v
      · exact .inl hsame
      · exact .inr (.inr (.inr ⟨a, v, rest, hi, hsup, hkind, .inl ⟨hstatus hr, hirq⟩⟩))
      · exact .inr (.inr (.inr ⟨a, v, rest, hi, hsup, hkind, .inr (.inl ⟨hctrl hr, hidle, hirq⟩)⟩))
      · exact .inr (.inr (.inr ⟨a, v, rest, hi, hsup, hkind, .inr (.inr ⟨hcmd hr, hidle, hirq⟩)⟩))
    · rw [hr]
      exact .inl rfl
  · rw [h] at ht
    cases ht
    exact .inl rfl
  · rw [h] at ht
    cases ht
    exact .inr (.inr (.inl ⟨⟨rest, hi⟩, rfl⟩))

end Sys2Proof.Machine

/-! PROOFS. The obligations of the family 10_state.md. -/

namespace Sys2Proof.Machine

/-- Settles O22: both runs have one ending, a function of what they agree on, and it gives ERR, the flags, TRIES and the values
written. -/
theorem otherSlotsDoNotLeakIntoResults : Obligations.OtherSlotsDoNotLeakIntoResults := by
  intro i s1 s2 t1 t2 l1 l2 hb1 hb2 hc hsrc hd hes hp ht h1 h2 hidle
  have hen : commandEnding i l1 s1.currentTry s1.entropy = commandEnding i l2 s2.currentTry s2.entropy := by
    rw [currentTry_congr hp ht, hes]
    exact commandEnding_congr i _ _ hc hsrc hd
  rw [exec_eq_endWith, State.latched_of_busy _ _ hb1] at h1
  rw [exec_eq_endWith, State.latched_of_busy _ _ hb2, ← hen] at h2
  cases h1
  cases h2
  have hw := commandEnding_writesAt i l1 s1.currentTry s1.entropy
  obtain ⟨r, n, rest, hr⟩ := endWith_idle hidle
  rw [hr] at hw ⊢
  cases r with
  | complete ws f => exact ⟨rfl, rfl, rfl, rfl, rfl, fun _ k hk => Slots.get_putAll_congr ws _ _ k (.inr (hw ▸ hk))⟩
  | raise e => exact ⟨rfl, rfl, rfl, rfl, rfl, fun he => absurd he hw⟩

/-- Settles O9, by the cases of a step. -/
theorem everyStepKeepsTheInvariant : Obligations.EveryStepKeepsTheInvariant := by
  intro s t hinv ht
  have hadv : s.advance.Inv := hinv
  obtain ⟨-, h⟩ | ⟨a, rest, -, h⟩ | ⟨es, h⟩ | ⟨rest, -, h⟩ := step_cases s
  · exact inv_runEngine hadv (h ▸ ht)
  · rw [h] at ht
    cases ht
    exact inv_busAccess hadv a
  · rw [h] at ht
    cases ht
    exact hadv
  · rw [h] at ht
    cases ht
    exact inv_resetInput _

/-- Settles O45: ECMUL multiplies in a group of `n` points, a prime, without a point of order 2. -/
theorem everyValidPointHasOrderN : Obligations.EveryValidPointHasOrderN := by
  intro c x y hv
  have : Fact c.p.Prime := ⟨c.p_prime⟩
  have hvp := (valid_iff c x y).1 hv
  obtain ⟨A, hA, hA0⟩ := exists_denotes c hvp
  refine ⟨?_, ?_, fun k h1 hn => ?_, fun k hk => scalarMul_eq_ecMul c hvp (hk.trans_lt c.n_lt_nbits)⟩
  · rintro rfl
    obtain ⟨-, -, -, hcurve⟩ := hv
    exact c.cubic_ne_zero x (by simpa [OnCurveEq] using hcurve.symm)
  · rw [(denotes_ecMul c hA c.n).eq_inf_iff, ← addOrderOf_point c hA0, addOrderOf_nsmul_eq_zero]
  · obtain ⟨x', y', he, hv'⟩ := ecMul_valid c hvp (by omega) (by have := c.n_pos; omega : k < c.n)
    exact ⟨x', y', he, (valid_iff c x' y').2 hv'⟩

/-- Settles O14: the step that takes each write, and the word or the bytes read back. -/
theorem configurationWritesStoreTheirFields : Obligations.ConfigurationWritesStoreTheirFields := by
  intro s v rest hidle
  refine ⟨fun hi => ?_, fun hi => ?_, fun j hi => ?_, fun hi => step_writeReg (r := .id) hi rfl (by norm_num) rfl⟩
  · have hstep := step_writeReg (r := .ctrl) hi rfl (by norm_num) rfl
    rw [writeReg_ctrl_idle hidle] at hstep
    exact ⟨_, hstep, rfl, ctrlWord_of_write s v⟩
  · have hstep := step_writeReg (r := .dlen) hi rfl (by norm_num) rfl
    rw [writeReg_dlen_idle hidle] at hstep
    exact ⟨_, hstep, rfl, dlenWord_of_write s v⟩
  · have hstep := step_writeReg hi (ofOffset_digest_word j) (by omega) (by omega)
    rw [writeReg_digest_idle hidle, BitVec.toNat_ofNat, Nat.mod_eq_of_lt j.isLt] at hstep
    have hsame : (s.digest.setIfInBounds j.val v)[j] = v := by simp
    refine ⟨_, hstep, rfl, hsame, fun j' hj' => digest_set_other s.digest hj' v, ?_⟩
    have hbyte := fun r hr => (digest_byte (s.digest.setIfInBounds j.val v) j (r := r) hr).trans (by rw [hsame])
    exact ⟨hbyte 0 (by norm_num), hbyte 1 (by norm_num), hbyte 2 (by norm_num), hbyte 3 (by norm_num)⟩

/-- Settles O15: the layout of STATUS field by field, and the step that takes its write. -/
theorem statusShowsAndClearsItsBits : Obligations.StatusShowsAndClearsItsBits := by
  refine ⟨fun s => ?_, fun s v rest hi => ?_⟩
  · obtain ⟨h0, h1, h2, h3, h4, h5, h6, h12, h16, h24, h8⟩ :=
      status_layout s.tries s.err.code s.accerr s.flags.v s.flags.c s.flags.z s.done s.busy
    refine ⟨?_, h1, h2, h3, h4, h5, h6, h12, h16, h24, ?_⟩
    · rw [← busy_iff]
      exact iff_of_eq (congrArg (· = true) h0)
    · refine h8.trans ?_
      cases s.err <;> rfl
  · rw [step_writeReg (r := .status) hi rfl (by norm_num) rfl]
    simp only [State.writeReg, State.writeStatus, clear_bit]

/-- Settles O19: the events are those of `irq_step`, and each write of the last clause is one of its steps. -/
theorem irqRisesAndFallsOnlyAsStated : Obligations.IrqRisesAndFallsOnlyAsStated := by
  refine ⟨rfl, fun s => ?_, fun s t ht h0 h1 => ?_, fun s t ht h1 h0 => ?_, fun s t ht hb hturn hidle => ?_,
    fun s t v rest ht => ⟨fun hi hv => ?_, fun hi hidle => ?_, fun hi hidle => ?_⟩⟩
  · rw [irq_iff, statusWord_done, ctrlWord_ie]
  · obtain h | ⟨hb, hturn, hidle, h⟩ | ⟨-, h⟩ | ⟨a, v, rest, hi, hsup, hk, ⟨-, h⟩ | ⟨ho, hidle, h⟩ | ⟨-, -, h⟩⟩ := irq_step ht
    · simp [h, h0] at h1
    · exact .inl ⟨hb, hturn, hidle, h ▸ h1⟩
    · simp [h] at h1
    · simp [h, h0] at h1
    · obtain ⟨hdone, hv⟩ := Bool.and_eq_true_iff.1 (h ▸ h1)
      exact .inr ⟨a, v, rest, hi, hsup, ho, hk, hv, hdone, hidle⟩
    · simp [h] at h1
  · obtain ⟨hdone, hie⟩ := (irq_iff s).1 h1
    obtain h | ⟨-, -, -, h⟩ | ⟨hr, -⟩ | ⟨a, v, rest, hi, hsup, hk, ⟨ho, h⟩ | ⟨ho, hidle, h⟩ | ⟨ho, hidle, -⟩⟩ := irq_step ht
    · simp [h, h1] at h0
    · simp [h, hie] at h0
    · exact .inl hr
    · exact .inr ⟨a, v, rest, hi, hsup, hk, .inl ⟨ho, by simpa [h, h1] using h0⟩⟩
    · exact .inr ⟨a, v, rest, hi, hsup, hk, .inr (.inl ⟨ho, by simpa [h, hdone] using h0, hidle⟩)⟩
    · exact .inr ⟨a, v, rest, hi, hsup, hk, .inr (.inr ⟨ho, hidle⟩)⟩
  · rw [step_engineTurn hturn] at ht
    obtain ⟨-, -, h⟩ | ⟨-, h⟩ := irq_runEngine ht
    · exact h
    · exact absurd hidle (h hb)
  · rw [step_writeReg (r := .status) hi rfl (by norm_num) rfl] at ht
    cases ht
    simp [State.irq, State.writeReg, hv]
  · rw [step_writeReg (r := .ctrl) hi rfl (by norm_num) rfl, writeReg_ctrl_idle hidle] at ht
    cases ht
    rfl
  · rw [step_writeReg (r := .cmd) hi rfl (by norm_num) rfl, writeReg_cmd_idle hidle] at ht
    cases ht
    rfl

/-- Settles O20: a completion changes the slots its ending writes, which are the RD span, and a wait changes the engine's own
fields. -/
theorem commandsChangeOnlyTheirDestination : Obligations.CommandsChangeOnlyTheirDestination := by
  intro i s l hb
  refine ⟨_, exec_eq_endWith i s, ?_⟩
  have hw := commandEnding_writesAt i s.latched s.currentTry s.entropy
  have hcases := commandEnding_cases i s.latched s.currentTry s.entropy
  cases hen : commandEnding i s.latched s.currentTry s.entropy with
  | done r n rest =>
    rw [hen] at hw
    left
    cases r with
    | complete ws f =>
      exact ⟨engineDone_complete .., sameSetup_complete .., fun k hk => Slots.get_putAll_other ws _ k (hw ▸ hk),
        fun he => absurd rfl he⟩
    | raise e => exact ⟨engineDone_fail .., sameSetup_fail .., fun _ _ => rfl, fun _ => ⟨rfl, rfl⟩⟩
  | waits n =>
    right
    rw [hen] at hcases
    obtain ⟨r, hr⟩ | ⟨hdraws, -⟩ := hcases
    · cases hr
    · refine ⟨hdraws, ?_⟩
      simp only [State.endWith, State.waitForDraw, State.latched_of_busy _ _ hb, hb]

/-- Settles O21: the ending is no function of STATUS, and a completion sets every field of it but ACCERR. -/
theorem noStatusFieldIsAnInput : Obligations.NoStatusFieldIsAnInput := by
  intro i s t l f e n d a hb ht hidle
  rw [exec_eq_endWith] at ht ⊢
  cases ht
  obtain ⟨r, tries, rest, hr⟩ := endWith_idle hidle
  have hen : commandEnding i (State.latched { s with flags := f, err := e, tries := n, done := d, accerr := a })
      (State.currentTry { s with flags := f, err := e, tries := n, done := d, accerr := a }) s.entropy =
      .done r tries rest := hr
  rw [hr, hen]
  cases r <;> rfl

end Sys2Proof.Machine

/-! SUPPORT. The register window, access by access: which accesses are supported, what a read returns, and the words of a slot. -/

namespace Sys2Proof.Machine

/-! ## Accesses that do nothing (R213, R214) -/

theorem offset_toNat (a : Access) : a.offset.toNat = a.addr % 2048 := BitVec.toNat_ofNat ..

/-- The supported accesses are the full aligned words (R214); `BASE` does not move the alignment. -/
theorem supported_iff (a : Access) : a.supported = true ↔ a.size = .word ∧ a.enables = 0xF ∧ a.addr % 4 = 0 := by
  have haligned : a.offset.extractLsb' 0 2 = 0#2 ↔ a.addr % 4 = 0 := by
    rw [← BitVec.toNat_inj, BitVec.extractLsb'_toNat, offset_toNat]
    simp only [Nat.shiftRight_zero, BitVec.toNat_ofNat, Nat.reducePow]
    omega
  simp [Access.supported, haligned, and_assoc]

/-- An unsupported access puts an answer on the bus and changes no register; a read answers 0 (R214). -/
theorem busAccess_unsupported {a : Access} (h : a.supported = false) (s : State) :
    (a.kind = .read → s.busAccess a = { s with resp := some (.readData 0 Config.busErrResp) }) ∧
    (∀ v, a.kind = .write v → s.busAccess a = { s with resp := some (.writeDone Config.busErrResp) }) :=
  ⟨fun hk => by simp [State.busAccess, h, hk], fun v hk => by simp [State.busAccess, h, hk]⟩

/-- A supported access to a reserved offset likewise, without a bus error (R213). -/
theorem busAccess_reserved {a : Access} (h : a.supported = true) (hr : Reg.ofOffset a.offset = .reserved) (s : State) :
    (a.kind = .read → s.busAccess a = { s with resp := some (.readData 0 false) }) ∧
    (∀ v, a.kind = .write v → s.busAccess a = { s with resp := some (.writeDone false) }) :=
  ⟨fun hk => by simp [State.busAccess, h, hk, hr, State.readReg],
    fun v hk => by simp [State.busAccess, h, hk, hr, State.writeReg]⟩

/-! ## Steps that read a register -/

/-- A register read does not depend on what the outside world does next. -/
theorem readReg_setInputs (s : State) (is : List Input) (q : Option BusResponse) (r : Reg) :
    State.readReg { s with inputs := is, resp := q } r = s.readReg r := by
  cases r <;> rfl

/-- The step that takes a supported read: the value read is the answer, and nothing else changes (R220). -/
theorem step_readReg {s : State} {off : Nat} {rest : List Input} (h : s.inputs = hostRead off :: rest) (hoff : off < 2048)
    (h4 : off % 4 = 0) :
    step s = .next { s with
      inputs := rest
      resp := some (.readData (s.readReg (Reg.ofOffset (BitVec.ofNat 11 off))) false) } := by
  rw [step_hostRead hoff h4 h, advance_of_inputs h, readReg_setInputs]

theorem readReg_digest_idle {s : State} (h : s.eng = .idle) (j : Fin 8) :
    s.readReg (.digest (BitVec.ofNat 3 j)) = s.digest[j] := by
  simp [State.readReg, State.busy_of_idle s h]

theorem readReg_slot_idle {s : State} (h : s.eng = .idle) (k : SlotNo) (j : BitVec 3) :
    s.readReg (.slot k j) = slotWord (s.slots[k.toNat]?.getD 0) j := by
  simp [State.readReg, State.busy_of_idle s h]

theorem readReg_slot_busy {s : State} (h : s.busy = true) (k : SlotNo) (j : BitVec 3) : s.readReg (.slot k j) = 0 := by
  simp [State.readReg, h]

/-- The slot word at an offset of the slot window (R211). -/
theorem ofOffset_slot_word {k j : Nat} (hk : k < 32) (hj : j < 8) :
    Reg.ofOffset (BitVec.ofNat 11 (0x400 + 32 * k + 4 * j)) = .slot (BitVec.ofNat 5 k) (BitVec.ofNat 3 j) := by
  obtain ⟨hslot, hword⟩ := slot_offset hk hj
  rw [ofOffset_slot (by omega) (by omega)]
  congr 1 <;> apply BitVec.eq_of_toNat_eq
  · rw [hslot, BitVec.toNat_ofNat, Nat.mod_eq_of_lt hk]
  · rw [hword, BitVec.toNat_ofNat, Nat.mod_eq_of_lt hj]

/-! ## The words of a slot (R211, R212) -/

theorem slotWord_toNat (v : SlotWord) (j : BitVec 3) :
    (slotWord v j).toNat = v.toNat / 2 ^ (32 * j.toNat) % 2 ^ 32 := by
  rw [slotWord, BitVec.extractLsb'_toNat, Nat.shiftRight_eq_div_pow]

/-- The bits that a write of word `j` keeps: those outside `[32·j+31 : 32·j]`. -/
def clearSlotWord (v : SlotWord) (j : BitVec 3) : SlotWord := v &&& ~~~((0xFFFFFFFF#256) <<< (32 * j.toNat))

/-- A word in the place of word `j`, the other bits 0. -/
def placeSlotWord (j : BitVec 3) (w : Word) : SlotWord := w.setWidth 256 <<< (32 * j.toNat)

theorem setSlotWord_eq (v : SlotWord) (j : BitVec 3) (w : Word) :
    setSlotWord v j w = clearSlotWord v j ||| placeSlotWord j w := rfl

theorem getLsbD_placeSlotWord (j : BitVec 3) (w : Word) {i : Nat} (hi : i < 256) :
    (placeSlotWord j w).getLsbD i = (!decide (i < 32 * j.toNat) && w.getLsbD (i - 32 * j.toNat)) := by
  have : i - 32 * j.toNat < 256 := by omega
  rw [placeSlotWord, BitVec.getLsbD_shiftLeft, BitVec.getLsbD_setWidth]
  simp [hi, this]

theorem getLsbD_clearSlotWord (v : SlotWord) (j : BitVec 3) {i : Nat} (hi : i < 256) :
    (clearSlotWord v j).getLsbD i = (v.getLsbD i && !(!decide (i < 32 * j.toNat) && decide (i - 32 * j.toNat < 32))) := by
  have hmask : 0xFFFFFFFF#256 <<< (32 * j.toNat) = placeSlotWord j (BitVec.allOnes 32) := rfl
  rw [clearSlotWord, hmask, BitVec.getLsbD_and, BitVec.getLsbD_not, getLsbD_placeSlotWord _ _ hi, BitVec.getLsbD_allOnes]
  simp [hi]

theorem clearSlotWord_and_placeSlotWord (v : SlotWord) (j : BitVec 3) (w : Word) :
    clearSlotWord v j &&& placeSlotWord j w = 0#256 := by
  apply BitVec.eq_of_getLsbD_eq
  intro i hi
  rw [BitVec.getLsbD_and, getLsbD_clearSlotWord v j hi, getLsbD_placeSlotWord j w hi, BitVec.getLsbD_zero]
  by_cases h : i - 32 * j.toNat < 32
  · cases decide (i < 32 * j.toNat) <;> simp [h]
  · simp [BitVec.getLsbD_of_ge w _ (not_lt.1 h)]

/-- Writing back the word that a read returns changes nothing. -/
theorem setSlotWord_slotWord (v : SlotWord) (j : BitVec 3) : setSlotWord v j (slotWord v j) = v := by
  apply BitVec.eq_of_getLsbD_eq
  intro i hi
  rw [setSlotWord_eq, BitVec.getLsbD_or, getLsbD_clearSlotWord v j hi, getLsbD_placeSlotWord j _ hi, slotWord,
    BitVec.getLsbD_extractLsb']
  by_cases h : i < 32 * j.toNat
  · simp [h]
  · by_cases h' : i - 32 * j.toNat < 32 <;> simp [h, h', Nat.add_sub_cancel' (not_lt.1 h)]

theorem placeSlotWord_toNat (j : BitVec 3) (w : Word) : (placeSlotWord j w).toNat = w.toNat * 2 ^ (32 * j.toNat) := by
  have hfits : w.toNat * 2 ^ (32 * j.toNat) < 2 ^ 256 := calc
    _ < 2 ^ 32 * 2 ^ (32 * j.toNat) := Nat.mul_lt_mul_of_pos_right w.isLt (Nat.two_pow_pos _)
    _ = 2 ^ (32 + 32 * j.toNat) := (pow_add ..).symm
    _ ≤ 2 ^ 256 := Nat.pow_le_pow_right (by norm_num) (by omega)
  rw [placeSlotWord, BitVec.toNat_shiftLeft, BitVec.toNat_setWidth_of_le (by norm_num), Nat.shiftLeft_eq,
    Nat.mod_eq_of_lt hfits]

theorem setSlotWord_toNat (v : SlotWord) (j : BitVec 3) (w : Word) :
    (setSlotWord v j w).toNat = (clearSlotWord v j).toNat + w.toNat * 2 ^ (32 * j.toNat) := by
  have hdisj := clearSlotWord_and_placeSlotWord v j w
  rw [setSlotWord_eq, ← BitVec.add_eq_or_of_and_eq_zero _ _ hdisj, BitVec.toNat_add_of_and_eq_zero hdisj,
    placeSlotWord_toNat]

/-- A word write puts the new word in the place of the old one and changes no other bit: both sides are the kept bits and the two
words, since the slot is what writing its own word back gives. -/
theorem setSlotWord_exchange (v : SlotWord) (j : BitVec 3) (w : Word) :
    (setSlotWord v j w).toNat + (slotWord v j).toNat * 2 ^ (32 * j.toNat) = v.toNat + w.toNat * 2 ^ (32 * j.toNat) := by
  have hback := setSlotWord_toNat v j (slotWord v j)
  rw [setSlotWord_slotWord] at hback
  rw [setSlotWord_toNat v j w, hback, Nat.add_right_comm]

/-- The low `n` words of a number are its value below `2^(32n)`. -/
theorem sum_words (x n : Nat) :
    ∑ i ∈ Finset.range n, (x / 2 ^ (32 * i) % 2 ^ 32) * 2 ^ (32 * i) = x % 2 ^ (32 * n) := by
  induction n with
  | zero => simp [Nat.mod_one]
  | succ n ih => rw [Finset.sum_range_succ, ih, Nat.mul_succ, pow_add, Nat.mod_mul, Nat.mul_comm (2 ^ (32 * n))]

theorem Slots.setIfInBounds_eq_put (x : Slots) (k : Nat) (v : SlotWord) : x.setIfInBounds k v = x.put k v.toNat := by
  rw [Slots.put, BitVec.ofNat_toNat, BitVec.setWidth_eq]

end Sys2Proof.Machine

/-! PROOFS. The obligations of the family 20_memory.md. -/

namespace Sys2Proof.Machine

/-- Settles O12: the step reads the register at the offset, and each offset of the map names its register. -/
theorem idleReadsFollowTheRegisterMap : Obligations.IdleReadsFollowTheRegisterMap := by
  intro s off rest hidle hoff h4 hi
  refine ⟨_, step_readReg hi hoff h4, ?_, ?_, ?_, ?_, ?_, fun hres => ?_, fun j hj => ?_, fun k j hk hj ho => ?_⟩
  iterate 5
    rintro rfl
    rfl
  · rw [ofOffset_reserved h4 (by omega)]
    rfl
  · rw [hj, ofOffset_digest_word, readReg_digest_idle hidle]
  · rw [ho, ofOffset_slot_word hk hj, readReg_slot_idle hidle, slotWord_toNat, BitVec.toNat_ofNat, BitVec.toNat_ofNat,
      Nat.mod_eq_of_lt hk, Nat.mod_eq_of_lt hj]
    rfl

/-- Settles O13: the step of each access, and the slot after a word write. -/
theorem slotWindowReadsAndWritesWords : Obligations.SlotWindowReadsAndWritesWords := by
  intro s k j hk hj
  have hoff : 0x400 + 32 * k + 4 * j < 2048 := by omega
  have h4 : (0x400 + 32 * k + 4 * j) % 4 = 0 := by omega
  have hslot : (BitVec.ofNat 5 k).toNat = k := Nat.mod_eq_of_lt hk
  have hword : (BitVec.ofNat 3 j).toNat = j := Nat.mod_eq_of_lt hj
  refine ⟨fun v rest hidle hi => ?_, fun rest hi => ⟨_, step_readReg hi hoff h4, fun hidle => ?_, fun hbusy => ?_⟩, ?_⟩
  · have hstep := step_writeReg hi (ofOffset_slot_word hk hj) hoff h4
    rw [writeReg_slot_idle hidle, Slots.setIfInBounds_eq_put, hslot] at hstep
    refine ⟨_, hstep, rfl, ?_, fun k' hne => Slots.get_put_other _ _ _ _ hne⟩
    have hex := setSlotWord_exchange (s.slots[k]?.getD 0) (BitVec.ofNat 3 j) v
    rw [slotWord_toNat, hword] at hex
    rw [Slots.get_put_same _ _ _ hk (BitVec.isLt _)]
    exact hex
  · rw [ofOffset_slot_word hk hj, readReg_slot_idle hidle, slotWord_toNat, hslot, hword]
    rfl
  · rw [ofOffset_slot_word hk hj, readReg_slot_busy hbusy]
  · rw [sum_words, Nat.mod_eq_of_lt (s.slots.get_lt k)]

/-- Settles O16: the step of an unsupported access, and of a supported one at a reserved offset. -/
theorem unsupportedAndReservedAccessesDoNothing : Obligations.UnsupportedAndReservedAccessesDoNothing := by
  intro s a rest hi
  rw [step_bus hi, advance_of_inputs hi]
  refine ⟨fun hnot => ?_, fun hsize hen h4 hres => ?_⟩
  · have hsup : a.supported = false := Bool.eq_false_iff.2 (mt (supported_iff a).1 hnot)
    obtain ⟨hread, hwrite⟩ := busAccess_unsupported hsup { s with inputs := rest, resp := none }
    exact ⟨fun hk => congrArg _ (hread hk), fun v hk => congrArg _ (hwrite v hk)⟩
  · have hoff : a.offset = BitVec.ofNat 11 (a.addr % 2048) := by rw [← offset_toNat, BitVec.ofNat_toNat, BitVec.setWidth_eq]
    have hr : Reg.ofOffset a.offset = .reserved := by
      rw [hoff]
      exact ofOffset_reserved (by omega) (by omega)
    obtain ⟨hread, hwrite⟩ := busAccess_reserved ((supported_iff a).2 ⟨hsize, hen, h4⟩) hr
      { s with inputs := rest, resp := none }
    exact ⟨fun hk => congrArg _ (hread hk), fun v hk => congrArg _ (hwrite v hk)⟩

end Sys2Proof.Machine

/-! SUPPORT. The must-be-zero bits: the masks of the opcode table are those of R310's fields and M columns, so the decoder takes
a word exactly when it is the packing of the fields that its row uses. -/

namespace Sys2Proof.Machine

/-! ## A word by its fields (R300) -/

theorem word_eq_append (w : Word) :
    w.extractLsb' 29 3 ++ (mField w ++ (rcField w ++ (rbField w ++ (raField w ++ (rdField w ++ opField w))))) = w := by
  have glue (i m n : Nat) : w.extractLsb' (i + n) m ++ w.extractLsb' i n = w.extractLsb' i (m + n) :=
    BitVec.extractLsb'_append_extractLsb'_eq_extractLsb' rfl
  unfold mField rcField rbField raField rdField opField
  rw [glue 0 5 8, glue 0 5 13, glue 0 5 18, glue 0 5 23, glue 0 1 28, glue 0 3 29]
  exact BitVec.extractLsb'_eq_self

theorem word_eq_iff {v w : Word} :
    v = w ↔ opField v = opField w ∧ v.extractLsb' 29 3 = w.extractLsb' 29 3 ∧ rdField v = rdField w ∧ raField v = raField w ∧
      rbField v = rbField w ∧ rcField v = rcField w ∧ mField v = mField w := by
  refine ⟨by rintro rfl; simp, fun ⟨hop, hres, hrd, hra, hrb, hrc, hm⟩ => ?_⟩
  rw [← word_eq_append v, ← word_eq_append w, hop, hres, hrd, hra, hrb, hrc, hm]

@[simp] theorem reserved_packWord (op : BitVec 8) (rd ra rb rc : SlotNo) (m : BitVec 1) :
    (packWord op rd ra rb rc m).extractLsb' 29 3 = 0 := by
  unfold packWord
  ext i hi
  simp (disch := omega) [BitVec.getLsbD_of_ge]

/-! ## Rows and masks (R304, R310) -/

/-- What a mask has in an `n`-bit field: every bit where the field must be zero, else none. -/
def mustBeZero (n : Nat) (unused : Bool) : BitVec n := if unused then BitVec.allOnes n else 0

theorem and_mustBeZero {n : Nat} (f : BitVec n) (unused : Bool) :
    f &&& mustBeZero n unused = 0 ↔ (unused = true → f = 0) := by
  cases unused <;> simp [mustBeZero]

/-- The row's pattern is its OP alone, and its mask is OP, the reserved bits and the fields that the columns leave unused. -/
def FieldUse.Describes (u : FieldUse) (r : OpRow) : Prop :=
  r.pattern = packWord u.op 0 0 0 0 0 ∧
  opField r.mask = BitVec.allOnes 8 ∧ r.mask.extractLsb' 29 3 = mustBeZero 3 true ∧
  rdField r.mask = mustBeZero 5 (u.rd = 0) ∧ raField r.mask = mustBeZero 5 (u.ra = 0) ∧
  rbField r.mask = mustBeZero 5 (u.rb = 0) ∧ rcField r.mask = mustBeZero 5 (u.rc = 0) ∧ mField r.mask = mustBeZero 1 !u.m

/-- The rows of the opcode table with their fields and M columns. -/
def opRows : List (OpRow × FieldUse) := opTable.zip fieldUses

theorem opRows_describe : ∀ p ∈ opRows, p.2.Describes p.1 := by
  unfold FieldUse.Describes
  decide

theorem exists_fieldUse {r : OpRow} (h : r ∈ opTable) : ∃ u, (r, u) ∈ opRows := by
  rw [← List.map_fst_zip (show opTable.length ≤ fieldUses.length from le_rfl)] at h
  obtain ⟨⟨r, u⟩, hmem, rfl⟩ := List.mem_map.1 h
  exact ⟨u, hmem⟩

theorem exists_opRow {u : FieldUse} (h : u ∈ fieldUses) : ∃ r, (r, u) ∈ opRows := by
  rw [← List.map_snd_zip (show fieldUses.length ≤ opTable.length from le_rfl)] at h
  obtain ⟨⟨r, u⟩, hmem, rfl⟩ := List.mem_map.1 h
  exact ⟨r, hmem⟩

theorem rowOf_op {r : OpRow} (h : r ∈ opTable) : rowOf r.op = some r := by
  cases hr : rowOf r.op with
  | none => exact absurd (List.find?_eq_none.1 hr r h) (by simp)
  | some r' =>
    obtain ⟨hmem, hop⟩ := rowOf_some hr
    rw [List.inj_on_of_nodup_map opTable_ops_nodup hmem h hop]

/-- A row's mask and pattern say that OP is the row's and that its must-be-zero bits are clear. -/
theorem FieldUse.Describes.match_iff {r : OpRow} {u : FieldUse} (h : u.Describes r) (w : Word) :
    w &&& r.mask = r.pattern ↔ opField w = u.op ∧ u.Clear w := by
  obtain ⟨hpat, hop, hres, hrd, hra, hrb, hrc, hm⟩ := h
  have hand : w &&& r.mask = r.pattern ↔ opField w &&& opField r.mask = u.op ∧
      w.extractLsb' 29 3 &&& r.mask.extractLsb' 29 3 = 0 ∧ rdField w &&& rdField r.mask = 0 ∧
      raField w &&& raField r.mask = 0 ∧ rbField w &&& rbField r.mask = 0 ∧ rcField w &&& rcField r.mask = 0 ∧
      mField w &&& mField r.mask = 0 := by
    rw [hpat, word_eq_iff, opField_packWord, reserved_packWord, rdField_packWord, raField_packWord, rbField_packWord,
      rcField_packWord, mField_packWord]
    simp only [opField, rdField, raField, rbField, rcField, mField, BitVec.extractLsb'_and]
  rw [hand, hop, hres, hrd, hra, hrb, hrc, hm]
  simp only [and_mustBeZero, BitVec.and_allOnes, FieldUse.Clear, decide_eq_true_eq, true_imp_iff, Bool.not_eq_true']

section
variable {r : OpRow} {u : FieldUse} {w : Word}

theorem op_of_mem_opRows (h : (r, u) ∈ opRows) : r ∈ opTable ∧ r.op = u.op := by
  obtain ⟨hpat, -⟩ := opRows_describe _ h
  exact ⟨(List.of_mem_zip h).1, by rw [OpRow.op, hpat, opField_packWord]⟩

/-- The decoder on a word with the OP of a row (R313). -/
theorem decode_of_op (h : (r, u) ∈ opRows) (hop : u.op = opField w) :
    (u.Clear w ∧ decode w = .ok (r.make w)) ∨ (¬ u.Clear w ∧ decode w = .error .mustBeZero) := by
  obtain ⟨hmem, hrop⟩ := op_of_mem_opRows h
  have hmatch : w &&& r.mask = r.pattern ↔ u.Clear w :=
    ((opRows_describe _ h).match_iff w).trans (and_iff_right hop.symm)
  have hrow : rowOf (opField w) = some r := by rw [← hop, ← hrop, rowOf_op hmem]
  by_cases hc : u.Clear w
  · exact .inl ⟨hc, by simp [decode, hrow, hmatch.2 hc]⟩
  · exact .inr ⟨hc, by simp [decode, hrow, mt hmatch.1 hc]⟩

/-- Everything the decoder can do, by the fields and M columns. -/
theorem decode_cases_fields (w : Word) :
    decode w = .error .illegal ∨ ∃ r u, (r, u) ∈ opRows ∧ u.op = opField w ∧
      ((u.Clear w ∧ decode w = .ok (r.make w)) ∨ (¬ u.Clear w ∧ decode w = .error .mustBeZero)) := by
  obtain ⟨-, hill⟩ | ⟨r, hr, -⟩ := decode_cases w
  · exact .inl hill
  · obtain ⟨hmem, hop⟩ := rowOf_some hr
    obtain ⟨u, hu⟩ := exists_fieldUse hmem
    have huop : u.op = opField w := (op_of_mem_opRows hu).2.symm.trans hop
    exact .inr ⟨r, u, hu, huop, decode_of_op hu huop⟩

end

/-! ## The encoder (R300) -/

/-- A row's OP and the fields that it uses, taken from a word; the other fields 0. -/
def FieldUse.repack (u : FieldUse) (w : Word) : Word :=
  packWord u.op (if u.rd = 0 then 0 else rdField w) (if u.ra = 0 then 0 else raField w) (if u.rb = 0 then 0 else rbField w)
    (if u.rc = 0 then 0 else rcField w) (if u.m = false then 0 else (MSel.ofBit (mField w)).toBit)

/-- The word of the command that a row makes of `w`. -/
theorem encode_make : ∀ p ∈ opRows, ∀ w, encode (p.1.make w) = p.2.repack w := by
  simp only [opRows, opTable, vliRows, modularRows, pointRows, protocolRows, fieldUses, List.cons_append, List.nil_append,
    List.zip_cons_cons, List.zip_nil_left, List.forall_mem_cons, List.not_mem_nil, IsEmpty.forall_iff, implies_true, and_true]
  and_intros
  all_goals exact fun _ => rfl

theorem FieldUse.opField_repack (u : FieldUse) (w : Word) : opField (u.repack w) = u.op := opField_packWord ..

theorem FieldUse.clear_repack (u : FieldUse) (w : Word) : u.Clear (u.repack w) := by
  simp +contextual [FieldUse.Clear, FieldUse.repack]

/-- A word with a row's OP and clear must-be-zero bits is the packing of the fields that the row uses. -/
theorem FieldUse.repack_of_clear {u : FieldUse} {w : Word} (hop : u.op = opField w) (hc : u.Clear w) : u.repack w = w := by
  obtain ⟨hres, hrd, hra, hrb, hrc, hm⟩ := hc
  have drop {n : Nat} {f : BitVec n} {P : Prop} [Decidable P] (h : P → f = 0) : (if P then 0 else f) = f :=
    ite_eq_right_iff.2 fun hp => (h hp).symm
  rw [FieldUse.repack, hop, MSel.toBit_ofBit, drop hrd, drop hra, drop hrb, drop hrc, drop hm, packWord_fields w hres]

/-- Every command is made by some row, from its own word. -/
theorem exists_row_make (i : Instr) : ∃ r ∈ opTable, r.make (encode i) = i := by
  have row {r : OpRow} (h : rowOf i.opcode = some r) (hm : r.make (encode i) = i) : ∃ r ∈ opTable, r.make (encode i) = i :=
    ⟨r, (rowOf_some h).1, hm⟩
  cases i with
  | nop => exact row rfl rfl
  | vtst | pchk | keygen | verify | vsel => exact row rfl (by simp [encode])
  | vadd | vsub | vmul | madd | msub | mmul | mmont => exact row rfl (by simp [encode, makeRdRaRbM])
  | vsqr | vshl1 | vshr1 | vbitlen | msqr | minv | mred | mtom | mfromm => exact row rfl (by simp [encode, makeRdRaM])
  | vcmp => exact row rfl (by simp [encode, makeRaRbM])
  | a2jz | padd | jadd | smul | ecdh | signk => exact row rfl (by simp [encode, makeRdRaRb])
  | _ => exact row rfl (by simp [encode, makeRdRa])

/-! ## The illegal OP values (R311) -/

/-- The OP values without a row, by the table. -/
theorem rowOf_eq_none_iff : ∀ op : BitVec 8, rowOf op = none ↔
    (0x0C ≤ op.toNat ∧ op.toNat ≤ 0x0F) ∨ (0x1A ≤ op.toNat ∧ op.toNat ≤ 0x1F) ∨
    (0x29 ≤ op.toNat ∧ op.toNat ≤ 0x2F) ∨ (0x38 ≤ op.toNat ∧ op.toNat ≤ 0xFF) := by
  decide

theorem decode_illegal_iff (w : Word) : decode w = .error .illegal ↔ rowOf (opField w) = none := by
  obtain ⟨hn, hd⟩ | ⟨r, hr, ⟨-, hd⟩ | ⟨-, hd⟩⟩ := decode_cases w
  · simp [hn, hd]
  · simp [hr, hd]
  · simp [hr, hd]

/-! ## The step of a running word (R313, R906, R910) -/

/-- The engine's turn of a word that decodes is the meaning of its command. -/
theorem step_of_decode {s : State} {l : Latch} {i : Instr} (hb : s.eng = .busy l) (hturn : s.EngineTurn)
    (hd : decode l.word = .ok i) : step s = exec i s.advance := by
  have hadv : s.advance.eng = .busy l := hb
  simp only [step_engineTurn hturn, State.runEngine, hadv, hd]

/-- The engine's turn of a word that is no command ends it with its error. -/
theorem rejectsWith_of_decode {s : State} {l : Latch} {e : DecodeError} (hb : s.eng = .busy l) (hturn : s.EngineTurn)
    (hd : decode l.word = .error e) : RejectsWith s (rejectError l e) := by
  have hrun : s.advance.runEngine = .next (s.advance.fail (rejectError l e) 0) := by
    have hadv : s.advance.eng = .busy l := hb
    simp only [State.runEngine, hadv, hd, State.rejectWord, State.latched_of_busy _ _ hadv]
  exact ⟨_, (step_engineTurn hturn).trans hrun, engineDone_fail .., sameSetup_fail .., rfl, rfl, rfl, rfl, rfl⟩

end Sys2Proof.Machine

/-! SUPPORT. A bus access to a running block, and commands issued one after another. -/

namespace Sys2Proof.Machine

/-! ## A bus access to a running block (R1020) -/

/-- A bus access to a running block changes no more than DONE, ACCERR and the answer on the bus. -/
theorem busAccess_busy {s : State} {l : Latch} (hb : s.eng = .busy l) (a : Access) :
    ∃ done accerr resp, s.busAccess a = { s with done := done, accerr := accerr, resp := resp } := by
  obtain ⟨v, -, -, h⟩ | ⟨r, h⟩ := busAccess_cases a s
  · obtain hw | hw | ⟨-, hw⟩ := writeReg_busy hb (Reg.ofOffset a.offset) v
    · exact ⟨_, _, _, by rw [h, hw]⟩
    · exact ⟨_, _, _, by rw [h, hw]; rfl⟩
    · exact ⟨_, _, _, by rw [h, hw]; rfl⟩
  · exact ⟨_, _, _, h⟩

/-! ## Commands on their issue (R321) -/

theorem modulus_pos (c : Curve) (m : MSel) : 0 < modulus c m := by
  cases m
  exacts [c.p_pos, c.n_pos]

theorem modulus_lt (c : Curve) (m : MSel) : modulus c m < 2 ^ 256 := by
  cases m
  exacts [c.p_lt, c.n_lt]

theorem residue_neg {a m : Nat} (ha : a < m) : residue (-(a : Int)) m = (m - a) % m := by
  have h : (-(a : Int)) % m = ((m - a : Nat) : Int) % m := by
    rw [Nat.cast_sub ha.le, Int.sub_eq_add_neg, Int.add_emod_left]
  rw [residue, h]
  exact residue_natCast (m - a) m

section
variable {s : State} {c : Curve} (hc : Curve.ofId s.ctrlCurve = some c)
include hc

/-- A command of one-slot operands, issued on a legal curve, passes its checks and completes with its one-slot result (R910). -/
theorem completesWith_issued {i : Instr} {spans : List (SlotNo × Nat)} {body : Latch → Curve → CmdResult} {w : Word}
    {d : SlotNo} {v : Nat} {f : Flags} (hs : ∀ fk ∈ spans, fk.2 = 1)
    (he : exec i (s.issue w) = runCommand spans false body (s.issue w))
    (hb : body (s.latchFor w) c = .complete (writeSlot d v) f) (hv : v < 2 ^ 256) :
    CompletesWith i (s.issue w) [(d.toNat, v)] f := by
  have hready : (s.issue w).Ready (s.latchFor w) c spans false := by
    refine ⟨⟨rfl, hc⟩, fun fk hfk => ?_, nofun⟩
    rw [hs fk hfk]
    exact Nat.le_of_lt_succ fk.1.isLt
  refine completesWith_of_body hready he hb (List.nodup_singleton _) fun p hp => ?_
  rw [List.mem_singleton.1 hp]
  exact ⟨d.isLt, hv⟩

/-- VMOV copies a slot (R421). -/
theorem vmov_issued (d a : SlotNo) (w : Word) :
    CompletesWith (.vmov d a) (s.issue w) [(d.toNat, s.slots.get a.toNat)] (Flags.ofZero (s.slots.get a.toNat)) :=
  completesWith_issued hc (by simp) rfl rfl (Slots.get_lt ..)

/-- VSUB of a slot from itself clears the destination (R412). -/
theorem vsub_self_issued (d a : SlotNo) (m : MSel) (w : Word) :
    CompletesWith (.vsub d a a m) (s.issue w) [(d.toNat, 0)] (Flags.ofCarry 0 false) :=
  completesWith_issued hc (by simp) rfl (by simp [vsubBody, residue]) (by norm_num)

/-- MSUB of a residue from 0 negates it (R511). -/
theorem msub_zero_issued {m : MSel} {d a z : SlotNo} (w : Word) (hz : s.slots.get z.toNat = 0)
    (ha : s.slots.get a.toNat < modulus c m) :
    let v := (modulus c m - s.slots.get a.toNat) % modulus c m
    CompletesWith (.msub d z a m) (s.issue w) [(d.toNat, v)] (Flags.ofZero v) := by
  intro v
  have hM := modulus_pos c m
  have hz' : (s.latchFor w).slot z = 0 := hz
  have ha' : (s.latchFor w).slot a = s.slots.get a.toNat := rfl
  have hrange : ¬(0 ≥ modulus c m ∨ s.slots.get a.toNat ≥ modulus c m) := by omega
  refine completesWith_issued hc (by simp) rfl ?_ ((Nat.mod_lt _ hM).trans (modulus_lt c m))
  simp only [msubBody, hz', ha', if_neg hrange, Nat.cast_zero, zero_sub, residue_neg ha]
  rfl

end

/-! ## Commands one after another (R321) -/

theorem runsAll_singleton {i : Instr} {s : State} {ws : List (Nat × Nat)} {f : Flags}
    (h : CompletesWith i (s.issue (encode i)) ws f) : ∃ t, RunsAll [i] s t ∧ SlotsWritten s t ws := by
  obtain ⟨t, hrun, ⟨hidle, -⟩, -, -, -, -, -, hw⟩ := h
  exact ⟨t, ⟨t, hrun, hidle, rfl⟩, hw⟩

/-- A write followed by writes to other slots. -/
theorem slotsWritten_cons {s u t : State} {w : Nat × Nat} {ws : List (Nat × Nat)} (h : SlotsWritten s u [w])
    (hs : SlotsWritten u t ws) (hw : w.1 ∉ ws.map Prod.fst) : SlotsWritten s t (w :: ws) := by
  obtain ⟨hsame, hother⟩ := h
  obtain ⟨hsames, hothers⟩ := hs
  refine ⟨List.forall_mem_cons.2 ⟨?_, hsames⟩, fun k hk => ?_⟩
  · rw [hothers _ hw, hsame w List.mem_cons_self]
  · rw [List.map_cons, List.mem_cons, not_or] at hk
    rw [hothers k hk.2, hother k (by simpa using hk.1)]

/-- Copies, as pairs of a destination and a source, of which none writes a slot that a later one reads or writes. -/
def CopiesApart (cs : List (SlotNo × SlotNo)) : Prop := cs.Pairwise fun p q => q.1 ≠ p.1 ∧ q.2 ≠ p.1

/-- Such copies, one VMOV each, copy the slots as they stood before the first. -/
theorem runsAll_vmovs : ∀ (cs : List (SlotNo × SlotNo)) (s : State) {c : Curve}, CopiesApart cs →
    Curve.ofId s.ctrlCurve = some c →
    ∃ t, RunsAll (cs.map fun p => .vmov p.1 p.2) s t ∧
      SlotsWritten s t (cs.map fun p => (p.1.toNat, s.slots.get p.2.toNat)) := by
  intro cs
  induction cs with
  | nil => exact fun s _ _ _ => ⟨s, rfl, nofun, fun _ _ => rfl⟩
  | cons p cs ih =>
    intro s c hcs hc
    obtain ⟨hp, hcs⟩ := List.pairwise_cons.1 hcs
    obtain ⟨u, hrun, ⟨hidle, -⟩, ⟨hcurve, -⟩, -, -, -, -, hw⟩ := vmov_issued hc p.1 p.2 (encode (.vmov p.1 p.2))
    obtain ⟨t, hruns, hws⟩ := ih u hcs (hcurve ▸ hc)
    refine ⟨t, ⟨u, hrun, hidle, hruns⟩, slotsWritten_cons hw ?_ fun hmem => ?_⟩
    · have hkept : cs.map (fun q => (q.1.toNat, u.slots.get q.2.toNat)) = cs.map fun q => (q.1.toNat, s.slots.get q.2.toNat) :=
        List.map_congr_left fun q hq => by
          rw [hw.2 q.2.toNat (by simpa [BitVec.toNat_inj] using (hp q hq).2)]
          rfl
      rwa [hkept] at hws
    · simp only [List.map_map, List.mem_map, Function.comp_apply, BitVec.toNat_inj] at hmem
      obtain ⟨q, hq, he⟩ := hmem
      exact (hp q hq).1 he

end Sys2Proof.Machine

/-! PROOFS. The obligations of the family 30_encoding.md. -/

namespace Sys2Proof.Machine

/-- Settles O1: the command's word is the packing of the fields that its row uses, so the decoder takes it and the row makes the
command again. -/
theorem decodeOfEncodeIsTheCommand : Obligations.DecodeOfEncodeIsTheCommand := by
  intro i
  obtain ⟨r, hr, hmake⟩ := exists_row_make i
  obtain ⟨u, hu⟩ := exists_fieldUse hr
  have hpack : encode i = u.repack (encode i) := by rw [← encode_make _ hu, hmake]
  have hop : u.op = opField (encode i) := by rw [hpack, u.opField_repack]
  have hclear : u.Clear (encode i) := by rw [hpack]; exact u.clear_repack _
  obtain ⟨-, hok⟩ | ⟨hnot, -⟩ := decode_of_op hu hop
  · rw [hok, hmake]
  · exact absurd hclear hnot

/-- Settles O2: a row makes its command of the fields that it uses, and the other fields are 0. -/
theorem encodeOfDecodeIsTheWord : Obligations.EncodeOfDecodeIsTheWord := by
  intro w i hi
  obtain hill | ⟨r, u, hu, hop, ⟨hclear, hok⟩ | ⟨-, hmbz⟩⟩ := decode_cases_fields w
  · rw [hill] at hi; cases hi
  · rw [hok] at hi
    cases hi
    rw [encode_make _ hu, u.repack_of_clear hop hclear]
  · rw [hmbz] at hi; cases hi

/-- Settles O3: the decoder by the fields and M columns, and the step of a word that it rejects. -/
theorem mustBeZeroBitsDecideTheCommand : Obligations.MustBeZeroBitsDecideTheCommand := by
  refine ⟨fun w => ⟨fun ⟨i, hi⟩ => ?_, fun ⟨u, hu, hop, hclear⟩ => ?_⟩, fun w => ⟨fun hw => ?_, fun ⟨u, hu, hop, hnot⟩ => ?_⟩,
    fun s l hb hturn hd => ?_⟩
  · obtain hill | ⟨r, u, hu, hop, ⟨hclear, -⟩ | ⟨-, hmbz⟩⟩ := decode_cases_fields w
    · rw [hill] at hi; cases hi
    · exact ⟨u, (List.of_mem_zip hu).2, hop, hclear⟩
    · rw [hmbz] at hi; cases hi
  · obtain ⟨r, hr⟩ := exists_opRow hu
    obtain ⟨-, hok⟩ | ⟨hnot, -⟩ := decode_of_op hr hop
    · exact ⟨_, hok⟩
    · exact absurd hclear hnot
  · obtain hill | ⟨r, u, hu, hop, ⟨-, hok⟩ | ⟨hnot, -⟩⟩ := decode_cases_fields w
    · rw [hill] at hw; cases hw
    · rw [hok] at hw; cases hw
    · exact ⟨u, (List.of_mem_zip hu).2, hop, hnot⟩
  · obtain ⟨r, hr⟩ := exists_opRow hu
    obtain ⟨hclear, -⟩ | ⟨-, hmbz⟩ := decode_of_op hr hop
    · exact absurd hclear hnot
    · exact hmbz
  · have hrej := rejectsWith_of_decode hb hturn hd
    refine ⟨fun c hc => ?_, fun _ hnop => ?_, fun hcurve hop => ?_⟩
    · simpa [rejectError, hc] using hrej
    · simpa [rejectError, hnop] using hrej
    · rwa [show rejectError l .mustBeZero = .curve from if_pos ⟨hop, hcurve⟩] at hrej

/-- Settles O4: the OP values without a row, and the step of a word that has one of them. -/
theorem illegalOpcodesEndWithErrIllegal : Obligations.IllegalOpcodesEndWithErrIllegal :=
  ⟨fun w => (decode_illegal_iff w).trans (rowOf_eq_none_iff _), fun _ _ hb hturn hd => rejectsWith_of_decode hb hturn hd⟩

/-- Settles O23: an access changes nothing that the ending is a function of, and the ending sets or keeps each listed field. -/
theorem busAccessesDoNotDisturbARunningCommand : Obligations.BusAccessesDoNotDisturbARunningCommand := by
  intro i s t t' l a hb ht ht'
  obtain ⟨done, accerr, resp, ha⟩ := busAccess_busy hb a
  rw [ha] at ht'
  rw [exec_eq_endWith] at ht ht'
  cases ht
  cases ht'
  have hen : commandEnding i (State.latched { s with done := done, accerr := accerr, resp := resp })
      (State.currentTry { s with done := done, accerr := accerr, resp := resp }) s.entropy =
      commandEnding i s.latched s.currentTry s.entropy := rfl
  simp only [hen]
  cases commandEnding i s.latched s.currentTry s.entropy with
  | done r n rest =>
    cases r with
    | complete | raise => and_intros <;> rfl
  | waits n => and_intros <;> rfl

/-- Settles O26: VCLR and MNEG are one command each; the copies stay apart under their overlap conditions. -/
theorem pseudoInstructionsDoWhatTheySay : Obligations.PseudoInstructionsDoWhatTheySay := by
  intro s c _ hc
  refine ⟨fun d => runsAll_singleton (vsub_self_issued hc d d .p _), fun d a hd ha hapart => ?_, fun d a hd ha hapart => ?_,
    fun m d a z hz ha => runsAll_singleton (msub_zero_issued hc _ hz ha)⟩
  · have hcopies : CopiesApart [(d, a), (d + 1, a + 1)] := by
      simp only [CopiesApart, List.pairwise_cons, List.forall_mem_cons, List.not_mem_nil, IsEmpty.forall_iff, implies_true,
        List.Pairwise.nil, and_true]
      bv_omega
    obtain ⟨t, hruns, hws⟩ := runsAll_vmovs _ s hcopies hc
    have hd1 : (d + 1).toNat = d.toNat + 1 := by bv_omega
    have ha1 : (a + 1).toNat = a.toNat + 1 := by bv_omega
    exact ⟨t, hruns, by rwa [← hd1, ← ha1]⟩
  · have hcopies : CopiesApart [(d, a), (d + 1, a + 1), (d + 2, a + 2)] := by
      simp only [CopiesApart, List.pairwise_cons, List.forall_mem_cons, List.not_mem_nil, IsEmpty.forall_iff, implies_true,
        List.Pairwise.nil, and_true]
      bv_omega
    obtain ⟨t, hruns, hws⟩ := runsAll_vmovs _ s hcopies hc
    have hd1 : (d + 1).toNat = d.toNat + 1 := by bv_omega
    have ha1 : (a + 1).toNat = a.toNat + 1 := by bv_omega
    have hd2 : (d + 2).toNat = d.toNat + 2 := by bv_omega
    have ha2 : (a + 2).toNat = a.toNat + 2 := by bv_omega
    exact ⟨t, hruns, by rwa [← hd1, ← ha1, ← hd2, ← ha2]⟩

/-- Settles O5: each word is the encoding of its command. -/
theorem exampleWordsDecode : Obligations.ExampleWordsDecode :=
  ⟨decodeOfEncodeIsTheCommand (.mmul 2 0 1 .n), decodeOfEncodeIsTheCommand (.vsel 3 0 1 2 .p),
    decodeOfEncodeIsTheCommand (.vcmp 4 5 .p), decodeOfEncodeIsTheCommand (.padd 6 0 3)⟩

/-- Settles O6: the engine's turn of a running word, which the state that the loader leaves has next. -/
theorem stepRunsTheDecodedCommand : Obligations.StepRunsTheDecodedCommand :=
  ⟨fun _ _ _ hb hturn hd => step_of_decode hb hturn hd,
    fun s nbits w _ hd => step_of_decode (s := s.withFetchWord nbits w) rfl (.inr ⟨s.inputs, rfl⟩) hd⟩

end Sys2Proof.Machine

/-! SUPPORT. A plain command's rule, in its parts: the encoding with the common errors, the width, and the completion with a
one-slot or a two-slot result. -/

namespace Sys2Proof.Machine

/-! ## The encoding and the common errors (R16, R910) -/

theorem commonRule_runCommand {i : Instr} {w : Word} {spans : List (SlotNo × Nat)} {u : Bool}
    {body : Latch → Curve → CmdResult} (hw : encode i = w) (he : ∀ s, exec i s = runCommand spans u body s) :
    CommonRule i w spans u :=
  ⟨hw, hw ▸ decodeOfEncodeIsTheCommand i, commonErrors_runCommand he⟩

/-! ## Widths (R10, R400) -/

theorem width_le (c : Curve) (m : MSel) : width c m ≤ 8 := by
  cases m
  exacts [c.wp_le, c.wn_le]

theorem width_pos (c : Curve) (m : MSel) : 0 < width c m := by
  cases c <;> cases m <;> decide

/-- An operand or a result of `W` words fits a slot. -/
theorem truncW_width_lt (c : Curve) (m : MSel) (v : Nat) : truncW (width c m) v < 2 ^ 256 :=
  (truncW_lt ..).trans_le (pow_width_le (width_le c m))

/-! ## Completions with one or two slots -/

section
variable {i : Instr} {s : State} {l : Latch} {c : Curve} {spans : List (SlotNo × Nat)} {u : Bool}
  {body : Latch → Curve → CmdResult} {f : Flags}

/-- A ready command with a one-slot result. -/
theorem completesWith_slot {d : SlotNo} {v : Nat} (h : s.Ready l c spans u) (he : exec i s = runCommand spans u body s)
    (hb : body l c = .complete (writeSlot d v) f) (hv : v < 2 ^ 256) : CompletesWith i s [(d.toNat, v)] f :=
  completesWith_of_body h he hb (List.nodup_singleton _) fun p hp => by
    rw [List.mem_singleton.1 hp]
    exact ⟨d.isLt, hv⟩

/-- A ready command with a two-slot result, whose RD span is then below slot 32. -/
theorem completesWith_pair {d : SlotNo} {lo hi : Nat} (h : s.Ready l c spans u)
    (he : exec i s = runCommand spans u body s) (hd : (d, 2) ∈ spans) (hb : body l c = .complete (writePair d lo hi) f)
    (hlo : lo < 2 ^ 256) (hhi : hi < 2 ^ 256) : CompletesWith i s [(d.toNat, lo), (d.toNat + 1, hi)] f := by
  have hd1 : d.toNat + 2 - 1 ≤ 31 := by
    obtain ⟨-, hspans, -⟩ := h
    exact hspans _ hd
  refine completesWith_of_body h he hb (by simp) ?_
  simp only [List.forall_mem_cons, List.not_mem_nil, IsEmpty.forall_iff, implies_true, and_true]
  exact ⟨⟨d.isLt, hlo⟩, by omega, hhi⟩

/-- A ready command with a product of two slots: the slots hold the product, its low 256 bits first (R413). -/
theorem completesWith_product {d : SlotNo} {A B : Nat} (h : s.Ready l c spans u)
    (he : exec i s = runCommand spans u body s) (hd : (d, 2) ∈ spans)
    (hb : body l c = .complete (writeDouble d (A * B)) f) (hA : A < 2 ^ 256) (hB : B < 2 ^ 256) :
    ∃ lo hi, A * B = lo + 2 ^ 256 * hi ∧ lo < 2 ^ 256 ∧ hi < 2 ^ 256 ∧
      CompletesWith i s [(d.toNat, lo), (d.toNat + 1, hi)] f := by
  have hhi : A * B / 2 ^ 256 < 2 ^ 256 := Nat.div_lt_of_lt_mul (Nat.mul_lt_mul'' hA hB)
  have hlo : A * B % 2 ^ 256 < 2 ^ 256 := Nat.mod_lt _ (by positivity)
  rw [writeDouble, Nat.mod_eq_of_lt hhi] at hb
  exact ⟨_, _, (Nat.mod_add_div ..).symm, hlo, hhi, completesWith_pair h he hd hb hlo hhi⟩

end

end Sys2Proof.Machine

/-! SUPPORT. The results and the flags of the VLI commands, in the words of their rules (R410 to R421). -/

namespace Sys2Proof.Machine

/-! ## Flags and differences -/

/-- The top bit of a number of `k + 1` bits: the carry out, and the bit that a left shift loses (R411, R415). -/
theorem testBit_top {n k : Nat} (h : n < 2 ^ (k + 1)) : n.testBit k = decide (2 ^ k ≤ n) := by
  by_cases hn : 2 ^ k ≤ n
  · rw [Nat.testBit_of_two_pow_le_and_two_pow_add_one_gt hn h, decide_eq_true hn]
  · rw [Nat.testBit_lt_two_pow (not_le.1 hn), decide_eq_false hn]

/-- A difference modulo `N`, in natural numbers (R412). -/
theorem residue_sub {A B N : Nat} (hB : B ≤ N) : residue ((A : Int) - B) N = (A + N - B) % N := by
  have h : ((A : Int) - B) % N = ((A + N - B : Nat) : Int) % N := by
    rw [Nat.cast_sub (by omega), Nat.cast_add, add_sub_right_comm, Int.add_emod_right]
  rw [residue, h]
  exact residue_natCast (A + N - B) N

/-- The bit length is the number of bits without leading zeros (R13, R418). -/
theorem bitlen_spec (v : Nat) :
    (v = 0 → bitlen v = 0) ∧ (v ≠ 0 → 1 ≤ bitlen v ∧ 2 ^ (bitlen v - 1) ≤ v ∧ v < 2 ^ bitlen v) := by
  refine ⟨fun h => if_pos h, fun h => ?_⟩
  have hlen : bitlen v = Nat.log2 v + 1 := if_neg h
  refine ⟨by omega, ?_, lt_two_pow_bitlen v⟩
  rw [hlen, Nat.add_sub_cancel]
  exact Nat.log2_self_le h

/-! ## Pseudocode: the carry, the borrow and the bit shifted out as the comparisons that they are -/

section
variable (rd ra rb rc : SlotNo) (m : MSel) (l : Latch) (c : Curve)

theorem vaddBody_eq :
    let N := 2 ^ (32 * width c m)
    let S := l.vli (width c m) ra + l.vli (width c m) rb
    vaddBody rd ra rb m l c = .complete (writeSlot rd (S % N)) ⟨S % N = 0, N ≤ S, false⟩ := by
  intro N S
  have hA : l.vli (width c m) ra < N := truncW_lt ..
  have hB : l.vli (width c m) rb < N := truncW_lt ..
  have hS : S < 2 ^ (32 * width c m + 1) := by omega
  exact congrArg (fun carry => CmdResult.complete _ (Flags.ofCarry _ carry)) (testBit_top hS)

theorem vsubBody_eq :
    let N := 2 ^ (32 * width c m)
    let A := l.vli (width c m) ra
    let B := l.vli (width c m) rb
    vsubBody rd ra rb m l c = .complete (writeSlot rd ((A + N - B) % N)) ⟨(A + N - B) % N = 0, A < B, false⟩ := by
  intro N A B
  have hB : B ≤ N := (truncW_lt ..).le
  exact congrArg (fun D => CmdResult.complete (writeSlot rd D) (Flags.ofCarry D (A < B))) (residue_sub hB)

theorem vshl1Body_eq :
    let W := width c m
    let A := l.vli W ra
    vshl1Body rd ra m l c = .complete (writeSlot rd (2 * A % 2 ^ (32 * W)))
      ⟨2 * A % 2 ^ (32 * W) = 0, 2 ^ (32 * W - 1) ≤ A, false⟩ := by
  intro W A
  have hW : 0 < W := width_pos c m
  have hA : A < 2 ^ (32 * W - 1 + 1) := by
    rw [Nat.sub_add_cancel (by omega)]
    exact truncW_lt ..
  exact congrArg (fun out => CmdResult.complete _ (Flags.ofCarry _ out)) (testBit_top hA)

theorem vshr1Body_eq :
    let A := l.vli (width c m) ra
    vshr1Body rd ra m l c = .complete (writeSlot rd (A / 2)) ⟨A / 2 = 0, A % 2 = 1, false⟩ := by
  intro A
  exact congrArg (fun out => CmdResult.complete _ (Flags.ofCarry _ out)) (Nat.testBit_zero A)

theorem vtstBody_eq :
    let A := l.vli (width c m) ra
    vtstBody ra m l c = .complete [] ⟨A = 0, A % 2 = 1, false⟩ := by
  intro A
  exact congrArg (fun odd => CmdResult.complete _ (Flags.ofCarry _ odd)) (Nat.testBit_zero A)

/-- VSEL with a nonzero condition, and with a zero one (R420). -/
theorem vselBody_eq :
    (l.vli (width c m) rc ≠ 0 → vselBody rd ra rb rc m l c =
      .complete (writeSlot rd (l.vli (width c m) ra)) (Flags.ofZero (l.vli (width c m) ra))) ∧
    (l.vli (width c m) rc = 0 → vselBody rd ra rb rc m l c =
      .complete (writeSlot rd (l.vli (width c m) rb)) (Flags.ofZero (l.vli (width c m) rb))) :=
  ⟨fun h => by simp only [vselBody, if_pos h], fun h => by simp only [vselBody, if_neg (not_not.2 h)]⟩

end

/-! ## NOP (R312, R410) -/

/-- NOP passes no check and completes (R410). -/
theorem completesWith_nop (s : State) : CompletesWith .nop s [] Flags.clear :=
  ⟨_, rfl, engineDone_complete .., sameSetup_complete .., rfl, rfl, rfl, rfl,
    slotsWritten_complete s [] Flags.clear 0 List.nodup_nil nofun⟩

/-- The row of OP 0 makes NOP of every word that it takes, and NOP's one word is 0 (R312). -/
theorem decode_of_nop_op {w : Word} (hop : opField w = 0x00) (hw : w ≠ 0) : decode w = .error .mustBeZero := by
  have hrow : (⟨"NOP", 0x00000000#32, 0xFFFFFFFF#32, fun _ => .nop⟩, ⟨0x00, 0, 0, 0, 0, false⟩) ∈ opRows :=
    List.mem_cons_self
  obtain ⟨-, hok⟩ | ⟨-, hmbz⟩ := decode_of_op hrow hop.symm
  · exact absurd (encodeOfDecodeIsTheWord w .nop hok).symm hw
  · exact hmbz

end Sys2Proof.Machine

/-! PROOFS. The obligations of the family 40_vli.md. -/

namespace Sys2Proof.Machine

/-- Settles O27: NOP's one word, and the step of any other word with its OP. -/
theorem nopCompletesUnderAnyCurve : Obligations.NopCompletesUnderAnyCurve := by
  refine ⟨rfl, decodeOfEncodeIsTheCommand .nop, fun s _ _ => completesWith_nop s, fun _ => decode_of_nop_op,
    fun s l hb hturn hop hw => ?_⟩
  have hrej := rejectsWith_of_decode hb hturn (decode_of_nop_op hop hw)
  simpa [rejectError, hop] using hrej

/-- Settles O28: the sum and the difference at width `W` fit a slot. -/
theorem vaddAndVsubWrapWithCarryAndBorrow : Obligations.VaddAndVsubWrapWithCarryAndBorrow := by
  intro rd ra rb m
  refine ⟨commonRule_runCommand rfl fun _ => rfl, commonRule_runCommand rfl fun _ => rfl, fun s l c h => ⟨?_, ?_⟩⟩
  · exact completesWith_slot h rfl (vaddBody_eq ..) (truncW_width_lt ..)
  · exact completesWith_slot h rfl (vsubBody_eq ..) (truncW_width_lt ..)

/-- Settles O29: the product of two operands fits two slots. -/
theorem vmulAndVsqrGiveTheExactProduct : Obligations.VmulAndVsqrGiveTheExactProduct := by
  intro rd ra rb m
  refine ⟨commonRule_runCommand rfl fun _ => rfl, commonRule_runCommand rfl fun _ => rfl, fun s l c h => ?_,
    fun s l c h => ?_⟩
  · exact completesWith_product h rfl List.mem_cons_self rfl (truncW_width_lt ..) (truncW_width_lt ..)
  · exact completesWith_product h rfl List.mem_cons_self rfl (truncW_width_lt ..) (truncW_width_lt ..)

/-- Settles O30: the shifted operand at width `W` fits a slot. -/
theorem vshlAndVshrShiftByOneBit : Obligations.VshlAndVshrShiftByOneBit := by
  intro rd ra m
  refine ⟨commonRule_runCommand rfl fun _ => rfl, commonRule_runCommand rfl fun _ => rfl, fun s l c h => ⟨?_, ?_⟩⟩
  · exact completesWith_slot h rfl (vshl1Body_eq ..) (truncW_width_lt ..)
  · exact completesWith_slot h rfl (vshr1Body_eq ..) ((Nat.div_le_self ..).trans_lt (truncW_width_lt ..))

/-- Settles O31: no slot is written. -/
theorem vcmpAndVtstSetFlagsOnly : Obligations.VcmpAndVtstSetFlagsOnly := by
  intro ra rb m
  refine ⟨commonRule_runCommand rfl fun _ => rfl, commonRule_runCommand rfl fun _ => rfl, fun s l c h => ?_,
    fun s l c h => ?_⟩
  · exact completesWith_of_body h rfl rfl List.nodup_nil nofun
  · exact completesWith_of_body h rfl (vtstBody_eq ..) List.nodup_nil nofun

/-- Settles O32: the bit length of an operand that fits a slot, the selected operand, and the whole slot. -/
theorem vbitlenVselAndVmovWriteTheirSlot : Obligations.VbitlenVselAndVmovWriteTheirSlot := by
  intro rd ra rb rc m
  refine ⟨commonRule_runCommand rfl fun _ => rfl, commonRule_runCommand rfl fun _ => rfl,
    commonRule_runCommand rfl fun _ => rfl, fun s l c h => ⟨?_, ?_⟩, fun s l c h => ?_⟩
  · obtain ⟨hzero, hbits⟩ := bitlen_spec (l.vli (width c m) ra)
    have hlen : bitlen (l.vli (width c m) ra) ≤ 256 := bitlen_le_of_lt (truncW_width_lt ..)
    exact ⟨_, hzero, hbits, completesWith_slot h rfl rfl (hlen.trans_lt (by norm_num))⟩
  · exact completesWith_slot h rfl rfl (Slots.get_lt ..)
  · obtain ⟨hne, hzero⟩ := vselBody_eq rd ra rb rc m l c
    exact ⟨fun hc => completesWith_slot h rfl (hne hc) (truncW_width_lt ..),
      fun hc => completesWith_slot h rfl (hzero hc) (truncW_width_lt ..)⟩

end Sys2Proof.Machine

/-! SUPPORT. The modular commands: the completion with a residue, the principal square root in natural numbers, and the
Montgomery radix with its inverse (R501, R515, R530). -/

namespace Sys2Proof.Machine

/-! ## Residues of the selected modulus (R500, R501) -/

theorem modulus_prime (c : Curve) (m : MSel) : (modulus c m).Prime := by
  cases m
  exacts [c.p_prime, c.n_prime]

theorem two_lt_modulus (c : Curve) (m : MSel) : 2 < modulus c m := by
  cases c <;> cases m <;> decide

/-- A ready command whose pseudocode ends with a modular result: a residue fits a slot (R501). -/
theorem completesWith_residue {i : Instr} {s : State} {l : Latch} {c : Curve} {spans : List (SlotNo × Nat)} {u : Bool}
    {body : Latch → Curve → CmdResult} {d : SlotNo} {v : Nat} {z : Bool} (m : MSel) (h : s.Ready l c spans u)
    (he : exec i s = runCommand spans u body s) (hb : body l c = modResult d v) (hv : v < modulus c m)
    (hz : decide (v = 0) = z) : CompletesWith i s [(d.toNat, v)] ⟨z, false, false⟩ :=
  hz ▸ completesWith_slot h he hb (hv.trans (modulus_lt c m))

/-! ## The principal square root (R515, R516) -/

section
variable {c : Curve} {A : Nat} (hqr : QuadraticResidue c.p A) (hA : A < c.p)
include hqr

theorem sqrtP_lt : sqrtP c.p A < c.p := by
  obtain ⟨hlt, -, -⟩ := sqrtP_spec c ((quadraticResidue_iff c A).1 hqr)
  exact hlt

theorem sqrtP_even (h1 : c.p % 4 = 1) : sqrtP c.p A % 2 = 0 := by
  obtain ⟨-, -, heven⟩ := sqrtP_spec c ((quadraticResidue_iff c A).1 hqr)
  exact heven (by omega)

include hA

theorem sqrtP_mul_self_mod : sqrtP c.p A * sqrtP c.p A % c.p = A := by
  obtain ⟨-, hsq, -⟩ := sqrtP_spec c ((quadraticResidue_iff c A).1 hqr)
  have hcast : ((sqrtP c.p A * sqrtP c.p A : Nat) : ZMod c.p) = (A : Nat) := by rw [Nat.cast_mul, ← pow_two, hsq]
  have hmod := (ZMod.natCast_eq_natCast_iff' _ _ _).1 hcast
  rwa [Nat.mod_eq_of_lt hA] at hmod

/-- Only 0 has the root 0, since `p` is prime. -/
theorem sqrtP_eq_zero_iff : sqrtP c.p A = 0 ↔ A = 0 := by
  have hsq := sqrtP_mul_self_mod hqr hA
  constructor
  · intro h0
    rw [← hsq, h0, mul_zero, Nat.zero_mod]
  · intro h0
    rw [h0] at hsq ⊢
    have hdvd : c.p ∣ sqrtP c.p 0 := (c.p_prime.dvd_mul.1 (Nat.dvd_of_mod_eq_zero hsq)).elim id id
    exact Nat.eq_zero_of_dvd_of_lt hdvd (sqrtP_lt (h0 ▸ hqr))

end

/-- The closed form of the root where `p mod 4 = 3` (R516). -/
theorem sqrtP_of_mod_four {p A : Nat} (h3 : p % 4 = 3) : sqrtP p A = A ^ ((p + 1) / 4) % p := by
  rw [sqrtP, if_pos h3, powMod_eq]

/-! ## The Montgomery radix (R530) -/

section
variable (c : Curve) (m : MSel)

/-- A power of 2 has an inverse modulo an odd prime. -/
theorem montR_mul_montRInv : montR c m * montRInv c m ≡ 1 [MOD modulus c m] := by
  have hM := modulus_prime c m
  have hcop : Nat.Coprime (montR c m) (modulus c m) :=
    Nat.Coprime.pow_left _ ((Nat.coprime_primes Nat.prime_two hM).2 (two_lt_modulus c m).ne)
  exact (mul_invMod_mod hM.one_lt hcop).trans (Nat.mod_eq_of_lt hM.one_lt).symm

/-- Out of Montgomery form and back: the value that times `R` gives `X` (R531, R533). -/
theorem mul_montRInv_mod_mul_montR (X : Nat) :
    X * montRInv c m % modulus c m * montR c m % modulus c m = X % modulus c m :=
  calc X * montRInv c m % modulus c m * montR c m
      ≡ X * montRInv c m * montR c m [MOD modulus c m] := (Nat.mod_modEq ..).mul_right _
    _ = X * (montR c m * montRInv c m) := by ring
    _ ≡ X * 1 [MOD modulus c m] := (montR_mul_montRInv c m).mul_left X
    _ = X := mul_one X

/-- Into Montgomery form and back: MFROMM undoes MTOM (R533). -/
theorem mul_montR_mod_mul_montRInv (X : Nat) :
    X * montR c m % modulus c m * montRInv c m % modulus c m = X % modulus c m :=
  calc X * montR c m % modulus c m * montRInv c m
      ≡ X * montR c m * montRInv c m [MOD modulus c m] := (Nat.mod_modEq ..).mul_right _
    _ = X * (montR c m * montRInv c m) := mul_assoc ..
    _ ≡ X * 1 [MOD modulus c m] := (montR_mul_montRInv c m).mul_left X
    _ = X := mul_one X

end

end Sys2Proof.Machine

/-! PROOFS. The obligations of the family 41_modular.md. -/

namespace Sys2Proof.Machine

/-- Settles O33: past the range check each result is a residue, MSUB's by `residue_sub`. -/
theorem maddMsubAndMmulGiveTheResidue : Obligations.MaddMsubAndMmulGiveTheResidue := by
  intro rd ra rb m
  refine ⟨commonRule_runCommand rfl fun _ => rfl, commonRule_runCommand rfl fun _ => rfl,
    commonRule_runCommand rfl fun _ => rfl, fun s l c h => ?_⟩
  intro M A B
  have hM : 0 < M := modulus_pos c m
  refine ⟨fun hA hB => ?_, fun hout => ?_⟩
  · have hin : ¬(A ≥ M ∨ B ≥ M) := by omega
    have hsub : msubBody rd ra rb m l c = modResult rd ((A + M - B) % M) :=
      (if_neg hin).trans (congrArg (modResult rd) (residue_sub hB.le))
    refine ⟨?_, ?_, ?_⟩
    · exact completesWith_residue m h rfl (if_neg hin) (Nat.mod_lt _ hM) rfl
    · exact completesWith_residue m h rfl hsub (Nat.mod_lt _ hM) rfl
    · exact completesWith_residue m h rfl (if_neg hin) (Nat.mod_lt _ hM) rfl
  · exact ⟨failsWith_of_body h rfl (if_pos hout), failsWith_of_body h rfl (if_pos hout),
      failsWith_of_body h rfl (if_pos hout)⟩

/-- Settles O34: MSQR past its range check, and MRED, which has none. -/
theorem msqrAndMredReduceExactly : Obligations.MsqrAndMredReduceExactly := by
  intro rd ra m
  refine ⟨commonRule_runCommand rfl fun _ => rfl, commonRule_runCommand rfl fun _ => rfl,
    fun s l c h => ⟨fun hA => ?_, fun hout => ?_⟩, fun s l c h => ?_⟩
  · exact completesWith_residue m h rfl (if_neg hA.not_ge) (Nat.mod_lt _ (modulus_pos c m)) rfl
  · exact failsWith_of_body h rfl (if_pos hout)
  · exact completesWith_residue m h rfl rfl (Nat.mod_lt _ (modulus_pos c m)) rfl

/-- Settles O35: the modulus is prime, so every nonzero residue has an inverse, and the inverse is not 0. -/
theorem minvInvertsOrFails : Obligations.MinvInvertsOrFails := by
  intro rd ra m
  refine ⟨commonRule_runCommand rfl fun _ => rfl, fun s l c h => ?_⟩
  intro M A
  refine ⟨fun h0 hA => ?_, fun hout => ?_, fun h0 => ?_⟩
  · obtain ⟨hpos, hlt, hmul⟩ : InverseOf M A (invMod A M) := inverseOf_invMod (modulus_prime c m) h0 hA
    have hbody : minvBody rd ra m l c = modResult rd (invMod A M) := (if_neg hA.not_ge).trans (if_neg h0)
    have hne : invMod A M ≠ 0 := Nat.one_le_iff_ne_zero.1 hpos
    exact ⟨_, ⟨hpos, hlt, hmul⟩, completesWith_residue m h rfl hbody hlt (decide_eq_false hne)⟩
  · exact failsWith_of_body h rfl (if_pos hout)
  · have hA : A < M := h0 ▸ modulus_pos c m
    exact failsWith_of_body h rfl ((if_neg hA.not_ge).trans (if_pos h0))

/-- Settles O36: the root is `sqrtP`, and the model's test is the rule's. -/
theorem msqrtGivesThePrincipalRootOrFails : Obligations.MsqrtGivesThePrincipalRootOrFails := by
  intro rd ra
  refine ⟨commonRule_runCommand rfl fun _ => rfl, fun s l c h => ?_⟩
  intro A
  refine ⟨fun hA hqr => ?_, fun hout => ?_, fun hA hnqr => ?_⟩
  · have hyes : isQuadraticResidue c.p (l.slot ra) = true := (quadraticResidue_iff c A).1 hqr
    have hbody : msqrtBody rd ra l c = modResult rd (sqrtP c.p A) :=
      (if_neg hA.not_ge).trans (if_neg (by simp [hyes]))
    exact ⟨_, sqrtP_lt hqr, sqrtP_mul_self_mod hqr hA, sqrtP_of_mod_four, sqrtP_even hqr,
      completesWith_residue .p h rfl hbody (sqrtP_lt hqr) (decide_eq_decide.2 (sqrtP_eq_zero_iff hqr hA))⟩
  · exact failsWith_of_body h rfl (if_pos hout)
  · have hno : isQuadraticResidue c.p (l.slot ra) = false :=
      Bool.eq_false_iff.2 fun hyes => hnqr ((quadraticResidue_iff c A).2 hyes)
    exact failsWith_of_body h rfl ((if_neg hA.not_ge).trans (if_pos (by simp [hno])))

/-- Settles O37: the radix has an inverse modulo `m`, so times `R` and times its inverse undo each other. -/
theorem montgomeryCommandsUseTheRadix : Obligations.MontgomeryCommandsUseTheRadix := by
  intro rd ra rb m
  refine ⟨commonRule_runCommand rfl fun _ => rfl, commonRule_runCommand rfl fun _ => rfl,
    commonRule_runCommand rfl fun _ => rfl, fun s l c h => ?_, fun s l c h => ?_⟩
  · intro M A B
    refine ⟨fun hA hB => ?_, fun hout => failsWith_of_body h rfl (if_pos hout)⟩
    have hin : ¬(A ≥ M ∨ B ≥ M) := by omega
    have hlt : A * B * montRInv c m % M < M := Nat.mod_lt _ (modulus_pos c m)
    exact ⟨_, hlt, mul_montRInv_mod_mul_montR c m (A * B), completesWith_residue m h rfl (if_neg hin) hlt rfl⟩
  · intro M R A
    have hM : 0 < M := modulus_pos c m
    have hfromm : A < M → CompletesWith (.mfromm rd ra m) s [(rd.toNat, A * montRInv c m % M)]
        ⟨A * montRInv c m % M = 0, false, false⟩ :=
      fun hA => completesWith_residue m h rfl (if_neg hA.not_ge) (Nat.mod_lt _ hM) rfl
    refine ⟨fun hA => ⟨?_, A * montRInv c m % M, Nat.mod_lt _ hM, ?_, hfromm hA⟩, fun a ha hform => ?_, fun hout => ?_⟩
    · exact completesWith_residue m h rfl (if_neg hA.not_ge) (Nat.mod_lt _ hM) rfl
    · exact (mul_montRInv_mod_mul_montR c m A).trans (Nat.mod_eq_of_lt hA)
    · have hback : A * montRInv c m % M = a := by
        rw [hform]
        exact (mul_montR_mod_mul_montRInv c m a).trans (Nat.mod_eq_of_lt ha)
      exact hback ▸ hfromm (hform ▸ Nat.mod_lt _ hM)
    · exact ⟨failsWith_of_body h rfl (if_pos hout), failsWith_of_body h rfl (if_pos hout)⟩

end Sys2Proof.Machine

/-! SUPPORT. The point commands: the range check, the completion with a triple, the Jacobian formulas in the words of R604 and
R605, and the triples on the curve as the points they denote (R15, R600, R601). -/

namespace Sys2Proof.Machine

/-! ## The range check (R601) -/

section
variable (c : Curve)

@[simp] theorem inRange_nil : inRange c [] = true := rfl

@[simp] theorem inRange_cons (v : Nat) (vs : List Nat) : inRange c (v :: vs) = true ↔ v < c.p ∧ inRange c vs = true := by
  simp [inRange]

theorem inRange_pair (x y : Nat) : inRange c [x, y] = true ↔ x < c.p ∧ y < c.p := by
  simp

theorem not_inRange_pair (x y : Nat) : ¬ inRange c [x, y] = true ↔ c.p ≤ x ∨ c.p ≤ y := by
  rw [inRange_pair, not_and_or, not_lt, not_lt]

@[simp] theorem inRange_append (vs ws : List Nat) :
    inRange c (vs ++ ws) = true ↔ inRange c vs = true ∧ inRange c ws = true := by
  simp [inRange]

@[simp] theorem inRange_jacCoords (J : Jac) : inRange c (jacCoords J) = true ↔ JacReduced c J := by
  simp [jacCoords, JacReduced]

theorem rangeCheck_pass {vs : List Nat} (r : CmdResult) (h : inRange c vs = true) :
    (if !inRange c vs then .raise .range else r) = r := if_neg (by simp [h])

theorem rangeCheck_raise {vs : List Nat} (r : CmdResult) (h : ¬ inRange c vs = true) :
    (if !inRange c vs then .raise .range else r) = .raise .range := if_pos (by simp [h])

end

/-! ## Triples as they are written (R600, R601) -/

/-- The triple is reduced, and if it denotes `INF` it is `(1, 1, 0)` (R600, R601). -/
def JacWritten (c : Curve) (J : Jac) : Prop := JacReduced c J ∧ (J.z = 0 → J = .inf)

section
variable (c : Curve)

theorem jacWritten_inf : JacWritten c .inf := ⟨⟨c.one_lt_p, c.one_lt_p, c.p_pos⟩, fun _ => rfl⟩

variable {c}

theorem JacReduced.written {J : Jac} (hJ : JacReduced c J) (hz : J.z ≠ 0) : JacWritten c J := ⟨hJ, fun h => absurd h hz⟩

/-- The canonical form is the triple itself. -/
theorem JacWritten.canonical_eq {J : Jac} (hJ : JacWritten c J) : J.canonical = J := by
  obtain ⟨-, hinf⟩ := hJ
  exact ite_eq_right_iff.2 fun hz => (hinf hz).symm

theorem JacReduced.canonical {J : Jac} (hJ : JacReduced c J) : JacWritten c J.canonical := by
  unfold Jac.canonical
  split_ifs with hz
  · exact jacWritten_inf c
  · exact hJ.written hz

/-- A ready command with a triple as its result, whose RD span then ends at slot 31 or below. -/
theorem completesWith_jac {i : Instr} {s : State} {l : Latch} {spans : List (SlotNo × Nat)} {u : Bool}
    {body : Latch → Curve → CmdResult} {d : SlotNo} {J : Jac} {z : Bool} (h : s.Ready l c spans u)
    (he : exec i s = runCommand spans u body s) (hd : (d, 3) ∈ spans) (hb : body l c = jacResult d J)
    (hJ : JacWritten c J) (hz : decide (J.z = 0) = z) :
    CompletesWith i s [(d.toNat, J.x), (d.toNat + 1, J.y), (d.toNat + 2, J.z)] ⟨z, false, false⟩ := by
  have hd2 : d.toNat + 3 - 1 ≤ 31 := by
    obtain ⟨-, hspans, -⟩ := h
    exact hspans _ hd
  have hp := c.p_lt
  rw [jacResult, hJ.canonical_eq] at hb
  obtain ⟨⟨hx, hy, hzlt⟩, -⟩ := hJ
  refine hz ▸ completesWith_of_body h he hb (by simp) ?_
  simp only [List.forall_mem_cons, List.not_mem_nil, IsEmpty.forall_iff, implies_true, and_true]
  omega

end

/-! ## Doubling and addition (R604, R605) -/

section
variable (c : Curve)

theorem residue_eq_zero_iff (z : Int) : ((residue z c.p : Nat) : Int) = 0 ↔ (z : ZMod c.p) = 0 := by
  rw [← residue_cast z c.p_pos, natCast_eq_zero_of_lt (residue_lt z c.p_pos), Int.natCast_eq_zero]

theorem residue_mul_sq (v z : Nat) : (residue (v * (z * z)) c.p : ZMod c.p) = v * (z : ZMod c.p) ^ 2 := by
  rw [residue_cast _ c.p_pos]
  push_cast
  ring

theorem residue_mul_cube (v z : Nat) : (residue (v * (z * z * z)) c.p : ZMod c.p) = v * (z : ZMod c.p) ^ 3 := by
  rw [residue_cast _ c.p_pos]
  push_cast
  ring

/-- A triple of residues is reduced, and in the prime field it is the triple of the integers. -/
theorem residue_triple {X Y Z : Int} {x y z : ZMod c.p} (hx : (X : ZMod c.p) = x) (hy : (Y : ZMod c.p) = y)
    (hz : (Z : ZMod c.p) = z) :
    let J : Jac := ⟨((residue X c.p : Nat) : Int).toNat, residue Y c.p, residue Z c.p⟩
    JacReduced c J ∧ (J.x : ZMod c.p) = x ∧ (J.y : ZMod c.p) = y ∧ (J.z : ZMod c.p) = z := by
  have hp := c.p_pos
  exact ⟨⟨residue_lt _ hp, residue_lt _ hp, residue_lt _ hp⟩, (residue_cast _ hp).trans hx, (residue_cast _ hp).trans hy,
    (residue_cast _ hp).trans hz⟩

theorem isDouble_jdbl (J : Jac) : IsDouble c J (jdbl c J) := by
  refine ⟨fun h => if_pos h, fun hz hy => ?_⟩
  rw [jdbl, if_neg (not_or.2 ⟨hz, hy⟩)]
  refine residue_triple c ?_ ?_ ?_ <;> push_cast [residue_cast _ c.p_pos] <;> ring

theorem isSum_jsum (P1 P2 : Jac) : IsSum c P1 P2 (jsum c P1 P2) := by
  refine ⟨fun h1 h2 => if_pos ⟨h1, h2⟩, fun h1 h2 => ?_, fun h1 h2 => ?_, fun h1 h2 => ?_⟩
  · rw [jsum, if_neg fun h => h2 h.2, if_pos h1]
  · rw [jsum, if_neg fun h => h1 h.1, if_neg h1, if_pos h2]
  · intro Z1 Z2 U1 U2 S1 S2 H R X3
    rw [jsum, if_neg fun h => h1 h.1, if_neg h1, if_neg h2]
    have hU1 : (residue (P1.x * (P2.z * P2.z)) c.p : ZMod c.p) = U1 := residue_mul_sq ..
    have hU2 : (residue (P2.x * (P1.z * P1.z)) c.p : ZMod c.p) = U2 := residue_mul_sq ..
    have hS1 : (residue (P1.y * (P2.z * P2.z * P2.z)) c.p : ZMod c.p) = S1 := residue_mul_cube ..
    have hS2 : (residue (P2.y * (P1.z * P1.z * P1.z)) c.p : ZMod c.p) = S2 := residue_mul_cube ..
    simp only [residue_eq_zero_iff]
    push_cast [hU1, hU2, hS1, hS2]
    refine ⟨fun hH hR => ?_, fun hH hR => ?_, fun hH => ?_⟩
    · rw [if_pos hH, if_pos hR]
      exact isDouble_jdbl c P1
    · exact (if_pos hH).trans (if_neg hR)
    · rw [if_neg hH]
      refine residue_triple c ?_ ?_ ?_ <;> push_cast [residue_cast _ c.p_pos, hU1, hU2, hS1, hS2] <;> ring

variable {c}

/-- A coordinate is 0 in the prime field only if it is 0. -/
theorem natCast_ne_zero_of_lt {v : Nat} (hv : v < c.p) (h0 : v ≠ 0) : (v : ZMod c.p) ≠ 0 :=
  fun h => h0 ((natCast_eq_zero_of_lt hv).1 h)

theorem mod_eq_of_cast {v w : Nat} (hw : w < c.p) (h : (v : ZMod c.p) = w) : v % c.p = w :=
  ((ZMod.natCast_eq_natCast_iff' ..).1 h).trans (Nat.mod_eq_of_lt hw)

/-- `p` is odd, so the double is `INF` only in the two cases that give `(1, 1, 0)` (R604). -/
theorem IsDouble.written {J J' : Jac} (hJ : JacReduced c J) (h : IsDouble c J J') : JacWritten c J' := by
  have : Fact c.p.Prime := ⟨c.p_prime⟩
  obtain ⟨hinf, hdbl⟩ := h
  by_cases h0 : J.z = 0 ∨ J.y = 0
  · rw [hinf h0]
    exact jacWritten_inf c
  · obtain ⟨hz, hy⟩ := not_or.1 h0
    obtain ⟨hred, -, -, hz'⟩ := hdbl hz hy
    obtain ⟨-, hylt, hzlt⟩ := hJ
    refine hred.written fun hz0 => ?_
    rw [hz0, Nat.cast_zero] at hz'
    exact mul_ne_zero (mul_ne_zero c.two_ne_zero (natCast_ne_zero_of_lt hylt hy)) (natCast_ne_zero_of_lt hzlt hz) hz'.symm

/-- A sum of two points other than `INF` is `INF` only where `H = 0` (R605). -/
theorem IsSum.written {P1 P2 J' : Jac} (h1 : JacReduced c P1) (h2 : JacReduced c P2) (h : IsSum c P1 P2 J') :
    JacWritten c J' := by
  have : Fact c.p.Prime := ⟨c.p_prime⟩
  obtain ⟨hinf, hleft, hright, hsum⟩ := h
  by_cases hz1 : P1.z = 0 <;> by_cases hz2 : P2.z = 0
  · rw [hinf hz1 hz2]
    exact jacWritten_inf c
  · rw [hleft hz1 hz2]
    exact h2.written hz2
  · rw [hright hz1 hz2]
    exact h1.written hz1
  · obtain ⟨hequal, hopposite, hother⟩ := hsum hz1 hz2
    by_cases hH : (P2.x * P1.z ^ 2 - P1.x * P2.z ^ 2 : ZMod c.p) = 0
    · by_cases hR : (P2.y * P1.z ^ 3 - P1.y * P2.z ^ 3 : ZMod c.p) = 0
      · exact (hequal hH hR).written h1
      · rw [hopposite hH hR]
        exact jacWritten_inf c
    · obtain ⟨hred, -, -, hz'⟩ := hother hH
      obtain ⟨-, -, hlt1⟩ := h1
      obtain ⟨-, -, hlt2⟩ := h2
      refine hred.written fun hz0 => ?_
      rw [hz0, Nat.cast_zero] at hz'
      exact mul_ne_zero (mul_ne_zero hH (natCast_ne_zero_of_lt hlt1 hz1)) (natCast_ne_zero_of_lt hlt2 hz2) hz'.symm

end

/-! ## The mixed addition (R640) -/

section
variable {c : Curve} {P1 : Jac} {x2 y2 : Nat}

theorem mixedAdd_of_right_inf (h : x2 = 0 ∧ y2 = 0) : mixedAdd c P1 x2 y2 = P1.canonical := by
  rw [mixedAdd, if_pos h]
  unfold Jac.canonical
  split_ifs <;> rfl

theorem mixedAdd_of_left_inf (h : ¬(x2 = 0 ∧ y2 = 0)) (hz : P1.z = 0) : mixedAdd c P1 x2 y2 = ⟨x2, y2, 1⟩ := by
  rw [mixedAdd, if_neg h, if_pos hz]
  rfl

theorem mixedAdd_of_points (h1 : JacReduced c P1) (h2 : JacReduced c ⟨x2, y2, 1⟩) (h : ¬(x2 = 0 ∧ y2 = 0))
    (hz : P1.z ≠ 0) : mixedAdd c P1 x2 y2 = jsum c P1 ⟨x2, y2, 1⟩ := by
  rw [mixedAdd, if_neg h, if_neg hz]
  exact ((isSum_jsum c P1 ⟨x2, y2, 1⟩).written h1 h2).canonical_eq

theorem mixedAdd_written (h1 : JacReduced c P1) (h2 : JacReduced c ⟨x2, y2, 1⟩) :
    JacWritten c (mixedAdd c P1 x2 y2) := by
  by_cases h : x2 = 0 ∧ y2 = 0
  · rw [mixedAdd_of_right_inf h]
    exact h1.canonical
  · by_cases hz : P1.z = 0
    · rw [mixedAdd_of_left_inf h hz]
      exact h2.written one_ne_zero
    · rw [mixedAdd_of_points h1 h2 h hz]
      exact (isSum_jsum c P1 ⟨x2, y2, 1⟩).written h1 h2

end

/-! ## Pseudocode of A2J and A2JZ past and short of their range checks (R610, R611) -/

section
variable {rd ra rb : SlotNo} {l : Latch} {c : Curve}

theorem a2jBody_of_lt (hx : (l.pair ra).1 < c.p) (hy : (l.pair ra).2 < c.p) :
    let x := (l.pair ra).1
    let y := (l.pair ra).2
    a2jBody rd ra l c = jacResult rd (if x = 0 ∧ y = 0 then .inf else ⟨x, y, 1⟩) :=
  rangeCheck_pass c _ ((inRange_pair c _ _).2 ⟨hx, hy⟩)

theorem a2jBody_raise (h : c.p ≤ (l.pair ra).1 ∨ c.p ≤ (l.pair ra).2) : a2jBody rd ra l c = .raise .range :=
  rangeCheck_raise c _ ((not_inRange_pair c _ _).2 h)

theorem a2jzBody_of_lt (hx : (l.pair ra).1 < c.p) (hy : (l.pair ra).2 < c.p) (h0 : l.slot rb ≠ 0)
    (hz : l.slot rb < c.p) :
    let x := (l.pair ra).1
    let y := (l.pair ra).2
    let z := l.slot rb
    a2jzBody rd ra rb l c =
      jacResult rd (if x = 0 ∧ y = 0 then .inf else ⟨x * z ^ 2 % c.p, y * z ^ 3 % c.p, z⟩) := by
  have hin : ¬(l.slot rb = 0 ∨ l.slot rb ≥ c.p) := by omega
  simp only [pow_two, pow_three']
  exact (rangeCheck_pass c _ ((inRange_pair c _ _).2 ⟨hx, hy⟩)).trans (if_neg hin)

theorem a2jzBody_raise (h : c.p ≤ (l.pair ra).1 ∨ c.p ≤ (l.pair ra).2 ∨ l.slot rb = 0 ∨ c.p ≤ l.slot rb) :
    a2jzBody rd ra rb l c = .raise .range := by
  by_cases hxy : (l.pair ra).1 < c.p ∧ (l.pair ra).2 < c.p
  · have hz : l.slot rb = 0 ∨ l.slot rb ≥ c.p := by omega
    exact (rangeCheck_pass c _ ((inRange_pair c _ _).2 hxy)).trans (if_pos hz)
  · exact rangeCheck_raise c _ (mt (inRange_pair c _ _).1 hxy)

end

/-! ## PDBL, JADD and PADD with reduced coordinates -/

section
variable {s : State} {l : Latch} {c : Curve} {rd ra rb : SlotNo}

theorem completesWith_pdbl (h : s.Ready l c [(rd, 3), (ra, 3)] false) (hJ : JacReduced c (l.jac ra)) :
    let J' := jdbl c (l.jac ra)
    CompletesWith (.pdbl rd ra) s [(rd.toNat, J'.x), (rd.toNat + 1, J'.y), (rd.toNat + 2, J'.z)] ⟨J'.z = 0, false, false⟩ :=
  completesWith_jac h rfl List.mem_cons_self (rangeCheck_pass c _ (by simpa using hJ))
    ((isDouble_jdbl c _).written hJ) rfl

theorem completesWith_jadd (h : s.Ready l c [(rd, 3), (ra, 3), (rb, 3)] false) (h1 : JacReduced c (l.jac ra))
    (h2 : JacReduced c (l.jac rb)) :
    let J' := jsum c (l.jac ra) (l.jac rb)
    CompletesWith (.jadd rd ra rb) s [(rd.toNat, J'.x), (rd.toNat + 1, J'.y), (rd.toNat + 2, J'.z)]
      ⟨J'.z = 0, false, false⟩ :=
  completesWith_jac h rfl List.mem_cons_self (rangeCheck_pass c _ (by simpa using ⟨h1, h2⟩))
    ((isSum_jsum c _ _).written h1 h2) rfl

theorem completesWith_padd (h : s.Ready l c [(rd, 3), (ra, 3), (rb, 2)] false) (h1 : JacReduced c (l.jac ra))
    (hx : (l.pair rb).1 < c.p) (hy : (l.pair rb).2 < c.p) :
    let J' := mixedAdd c (l.jac ra) (l.pair rb).1 (l.pair rb).2
    CompletesWith (.padd rd ra rb) s [(rd.toNat, J'.x), (rd.toNat + 1, J'.y), (rd.toNat + 2, J'.z)]
      ⟨J'.z = 0, false, false⟩ :=
  completesWith_jac h rfl List.mem_cons_self (rangeCheck_pass c _ (by simpa using ⟨h1, hx, hy⟩))
    (mixedAdd_written h1 ⟨hx, hy, c.one_lt_p⟩) rfl

end

/-! ## Triples on the curve (R15, R620) -/

section
variable {c : Curve} {J : Jac}

/-- The affine point of a triple other than `INF`: `x·Z² = X` and `y·Z³ = Y` in the prime field (R601, R620). -/
theorem jacToAffine_of_z_ne_zero (hz : J.z < c.p) (h0 : J.z ≠ 0) :
    ∃ x y, jacToAffine c J = .affine x y ∧ x < c.p ∧ y < c.p ∧
      (x : ZMod c.p) * (J.z : ZMod c.p) ^ 2 = J.x ∧ (y : ZMod c.p) * (J.z : ZMod c.p) ^ 3 = J.y := by
  have : Fact c.p.Prime := ⟨c.p_prime⟩
  have hz0 := natCast_ne_zero_of_lt hz h0
  refine ⟨_, _, if_neg h0, residue_lt _ c.p_pos, residue_lt _ c.p_pos, ?_, ?_⟩
  · rw [residue_mul_sq, invMod_cast_inv c hz0]
    field_simp
  · rw [residue_mul_cube, invMod_cast_inv c hz0]
    field_simp

theorem JacOnCurve.reduced (h : JacOnCurve c J) : JacReduced c J := h.1

variable [Fact c.p.Prime]

/-- A triple on the curve denotes a point of the library's curve. -/
theorem JacOnCurve.exists_denotes (h : JacOnCurve c J) : ∃ A, JacDenotes c J A := by
  obtain ⟨⟨hx, hy, hz⟩, hpoint⟩ := h
  by_cases h0 : J.z = 0
  · exact ⟨0, hx, hy, hz, fun _ => rfl, fun hne => absurd h0 hne⟩
  · obtain ⟨x, y, hxy, hvalid⟩ := hpoint.resolve_left h0
    obtain ⟨x', y', hxy', -, -, ex, ey⟩ := jacToAffine_of_z_ne_zero hz h0
    cases hxy.symm.trans hxy'
    obtain ⟨-, -, -, hon⟩ := (validPoint_iff c x y).1 ((valid_iff c x y).1 hvalid)
    exact ⟨_, .of_some c ((nonsingular_iff_onCurve c x y).2 hon) hx hy hz (natCast_ne_zero_of_lt hz h0) ex.symm ey.symm⟩

/-- A triple that denotes a point is on the curve. -/
theorem jacOnCurve_of_denotes {A : c.weierstrass.Point} (h : JacDenotes c J A) : JacOnCurve c J := by
  refine ⟨⟨h.x_lt, h.y_lt, h.z_lt⟩, or_iff_not_imp_left.2 fun h0 => ?_⟩
  obtain ⟨x, y, hxy, -⟩ := jacToAffine_of_z_ne_zero h.z_lt h0
  have hden := jacToAffine_denotes c h
  rw [hxy] at hden
  exact ⟨x, y, hxy, (valid_iff c x y).2 (hden.valid c)⟩

/-- A triple that denotes the sum of two points is on the curve, and its affine point is their `ECADD` (R14). -/
theorem ecAdd_of_denotes_add {P Q : Point} {A B : c.weierstrass.Point} (hJ : JacDenotes c J (A + B)) (hP : Denotes c P A)
    (hQ : Denotes c Q B) : JacOnCurve c J ∧ jacToAffine c J = ecAdd c P Q :=
  ⟨jacOnCurve_of_denotes hJ, (jacToAffine_denotes c hJ).left_unique c (denotes_ecAdd c hP hQ)⟩

end

end Sys2Proof.Machine

/-! PROOFS. The obligations of the family 42_point.md. -/

namespace Sys2Proof.Machine

/-- Settles O44: each adder denotes the sum in the library's group, and so does `ECADD`. -/
theorem pointCommandsFollowTheGroupLaw : Obligations.PointCommandsFollowTheGroupLaw := by
  intro rd ra rb
  have hprime (c : Curve) : Fact c.p.Prime := ⟨c.p_prime⟩
  refine ⟨fun s l c h => ?_, fun s l c h => ?_, fun s l c h => ?_⟩
  · intro J hJ
    obtain ⟨A, hA⟩ := hJ.exists_denotes
    have hP := jacToAffine_denotes c hA
    obtain ⟨hon, hsum⟩ := ecAdd_of_denotes_add (jdbl_denotes c hA) hP hP
    exact ⟨_, _, hon, hsum, completesWith_pdbl h hJ.reduced⟩
  · intro P1 P2 hP1 hP2
    obtain ⟨A, hA⟩ := hP1.exists_denotes
    obtain ⟨B, hB⟩ := hP2.exists_denotes
    obtain ⟨hon, hsum⟩ :=
      ecAdd_of_denotes_add (jsum_denotes c hA hB) (jacToAffine_denotes c hA) (jacToAffine_denotes c hB)
    exact ⟨_, _, hon, hsum, completesWith_jadd h hP1.reduced hP2.reduced⟩
  · intro P1 x2 y2 hP1 hQ
    obtain ⟨A, hA⟩ := hP1.exists_denotes
    have hP := jacToAffine_denotes c hA
    by_cases h0 : x2 = 0 ∧ y2 = 0
    · rw [if_pos h0]
      obtain ⟨hx, hy⟩ := h0
      obtain ⟨hon, hsum⟩ := ecAdd_of_denotes_add (mixedAdd_denotes c hA (.inl ⟨hx, hy, rfl⟩)) hP .inf
      exact ⟨_, _, hon, hsum, completesWith_padd h hP1.reduced (hx.trans_lt c.p_pos) (hy.trans_lt c.p_pos)⟩
    · rw [if_neg h0]
      have hvalid := hQ.resolve_left h0
      obtain ⟨-, hx, hy, -⟩ := id hvalid
      obtain ⟨B, hB, -⟩ := exists_denotes c ((valid_iff c x2 y2).1 hvalid)
      obtain ⟨hon, hsum⟩ := ecAdd_of_denotes_add (mixedAdd_denotes c hA (.inr hB)) hP hB
      exact ⟨_, _, hon, hsum, completesWith_padd h hP1.reduced hx hy⟩

/-- Settles O38: past the range checks the triple has `Z = 1` or the given `z`, or it is `INF`. -/
theorem affineToJacobianWithAndWithoutZ : Obligations.AffineToJacobianWithAndWithoutZ := by
  intro rd ra rb
  refine ⟨commonRule_runCommand rfl fun _ => rfl, commonRule_runCommand rfl fun _ => rfl, fun s l c h => ?_,
    fun s l c h => ?_⟩
  · intro x y
    refine ⟨fun hx hy hne => ?_, fun hx hy => ?_, fun hout => failsWith_of_body h rfl (a2jBody_raise hout)⟩
    · have hJ : JacWritten c ⟨x, y, 1⟩ := JacReduced.written ⟨hx, hy, c.one_lt_p⟩ one_ne_zero
      exact completesWith_jac h rfl List.mem_cons_self ((a2jBody_of_lt hx hy).trans (congrArg _ (if_neg hne))) hJ rfl
    · have hbody := a2jBody_of_lt (rd := rd) (hx.trans_lt c.p_pos) (hy.trans_lt c.p_pos)
      exact completesWith_jac h rfl List.mem_cons_self (hbody.trans (congrArg _ (if_pos ⟨hx, hy⟩))) (jacWritten_inf c) rfl
  · intro x y z
    refine ⟨fun hx hy hne h0 hz => ?_, fun hx hy h0 hz => ?_, fun hout => failsWith_of_body h rfl (a2jzBody_raise hout)⟩
    · have hJ : JacWritten c ⟨x * z ^ 2 % c.p, y * z ^ 3 % c.p, z⟩ :=
        JacReduced.written ⟨Nat.mod_lt _ c.p_pos, Nat.mod_lt _ c.p_pos, hz⟩ h0
      exact completesWith_jac h rfl List.mem_cons_self ((a2jzBody_of_lt hx hy h0 hz).trans (congrArg _ (if_neg hne))) hJ
        (decide_eq_false h0)
    · have hbody := a2jzBody_of_lt (rd := rd) (hx.trans_lt c.p_pos) (hy.trans_lt c.p_pos) h0 hz
      exact completesWith_jac h rfl List.mem_cons_self (hbody.trans (congrArg _ (if_pos ⟨hx, hy⟩))) (jacWritten_inf c) rfl

/-- Settles O39: a triple with `Z ≠ 0` has its affine point, whose congruences hold in the prime field. -/
theorem jacobianToAffineDividesByZ : Obligations.JacobianToAffineDividesByZ := by
  intro rd ra
  refine ⟨commonRule_runCommand rfl fun _ => rfl, fun s l c h => ?_⟩
  intro X Y Zc
  have hp := c.p_lt
  have hbody {P : Point} (hX : X < c.p) (hY : Y < c.p) (hZ : Zc < c.p) (hP : jacToAffine c ⟨X, Y, Zc⟩ = P) :
      j2aBody rd ra l c = affineResult rd P :=
    (rangeCheck_pass c _ ((inRange_jacCoords c _).2 ⟨hX, hY, hZ⟩)).trans (congrArg _ hP)
  refine ⟨fun hX hY hZ h0 => ?_, fun hX hY h0 => ?_, fun hout => ?_⟩
  · obtain ⟨x, y, hxy, hx, hy, ex, ey⟩ := jacToAffine_of_z_ne_zero (J := ⟨X, Y, Zc⟩) hZ h0
    refine ⟨x, y, hx, hy, mod_eq_of_cast hX (by simpa using ex), mod_eq_of_cast hY (by simpa using ey), ?_⟩
    exact completesWith_pair h rfl List.mem_cons_self (hbody hX hY hZ hxy) (hx.trans hp) (hy.trans hp)
  · exact completesWith_pair h rfl List.mem_cons_self (hbody hX hY (h0.trans_lt c.p_pos) (if_pos h0))
      (Nat.two_pow_pos _) (Nat.two_pow_pos _)
  · have hnot : ¬ JacReduced c ⟨X, Y, Zc⟩ := by
      rintro ⟨hX : X < c.p, hY : Y < c.p, hZ : Zc < c.p⟩
      omega
    exact failsWith_of_body h rfl (rangeCheck_raise c _ (mt (inRange_jacCoords c _).1 hnot))

/-- Settles O40: `jdbl` is the double of R604, written as it is. -/
theorem pdblWritesTheExactTriple : Obligations.PdblWritesTheExactTriple := by
  intro rd ra
  refine ⟨commonRule_runCommand rfl fun _ => rfl, fun s l c h => ?_⟩
  intro J
  have hdbl := isDouble_jdbl c J
  refine ⟨fun hJ => ?_, fun hout => ?_⟩
  · obtain ⟨-, hinf⟩ := hdbl.written hJ
    exact ⟨_, hdbl, hinf, completesWith_pdbl h hJ⟩
  · exact failsWith_of_body h rfl (rangeCheck_raise c _ (mt (inRange_jacCoords c _).1 hout))

/-- Settles O41: `jsum` is the sum of R605, written as it is. -/
theorem jaddWritesTheExactTriple : Obligations.JaddWritesTheExactTriple := by
  intro rd ra rb
  refine ⟨commonRule_runCommand rfl fun _ => rfl, fun s l c h => ?_⟩
  intro P1 P2
  have hsum := isSum_jsum c P1 P2
  refine ⟨fun h1 h2 => ?_, fun hout => ?_⟩
  · obtain ⟨-, hinf⟩ := hsum.written h1 h2
    exact ⟨_, hsum, hinf, completesWith_jadd h h1 h2⟩
  · exact failsWith_of_body h rfl (rangeCheck_raise c _ (by simpa [P1, P2, Latch.jac] using hout))

/-- Settles O42: the cases of `mixedAdd`, where the sum with `(x2, y2, 1)` is the one of R605. -/
theorem paddIsTheUnifiedMixedAddition : Obligations.PaddIsTheUnifiedMixedAddition := by
  intro rd ra rb
  refine ⟨commonRule_runCommand rfl fun _ => rfl, fun s l c h => ?_⟩
  intro P1 x2 y2
  refine ⟨fun h1 hx hy => ?_, fun hout => ?_⟩
  · have h2 : JacReduced c ⟨x2, y2, 1⟩ := ⟨hx, hy, c.one_lt_p⟩
    obtain ⟨-, hinf⟩ := mixedAdd_written h1 h2
    refine ⟨mixedAdd c P1 x2 y2, fun hx0 hy0 hz => ?_, fun hx0 hy0 hz => ?_, mixedAdd_of_left_inf, fun hne hz => ?_, hinf,
      completesWith_padd h h1 hx hy⟩
    · rw [mixedAdd_of_right_inf ⟨hx0, hy0⟩]
      exact if_pos hz
    · rw [mixedAdd_of_right_inf ⟨hx0, hy0⟩]
      exact if_neg hz
    · rw [mixedAdd_of_points h1 h2 hne hz]
      exact isSum_jsum c P1 _
  · exact failsWith_of_body h rfl (rangeCheck_raise c _ (by simpa [P1, x2, y2, Latch.jac] using hout))

/-- Settles O43: the negated ordinate is a residue, and the model's test is `Valid`. -/
theorem pnegNegatesAndPchkValidates : Obligations.PnegNegatesAndPchkValidates := by
  intro rd ra
  refine ⟨commonRule_runCommand rfl fun _ => rfl, commonRule_runCommand rfl fun _ => rfl, fun s l c h => ?_,
    fun s l c h => ?_⟩
  · intro x y
    refine ⟨fun hx hy => ?_, fun hout => ?_⟩
    · rw [Bool.decide_and]
      exact completesWith_pair h rfl List.mem_cons_self (rangeCheck_pass c _ ((inRange_pair c x y).2 ⟨hx, hy⟩))
        (hx.trans c.p_lt) ((Nat.mod_lt _ c.p_pos).trans c.p_lt)
    · exact failsWith_of_body h rfl (rangeCheck_raise c _ ((not_inRange_pair c x y).2 hout))
  · intro x y
    exact ⟨validPoint c x y, (valid_iff c x y).symm, completesWith_of_body h rfl rfl List.nodup_nil nofun⟩

end Sys2Proof.Machine

/-! SUPPORT. SMUL: the multiple of a valid point that `ScalarMul` gives, and the checks of the point and of the scalar that the
protocol commands make too (R602, R700, R701). -/

namespace Sys2Proof.Machine

/-! ## The multiple (R700) -/

/-- `ScalarMul` under its preconditions: the point `ECMUL(k, P)`, which is not `INF` and is valid. -/
theorem scalarMul_valid (c : Curve) {k x y : Nat} (hP : Valid c x y) (h0 : k ≠ 0) (hn : k < c.n) :
    ∃ x' y', ecMul c k (.affine x y) = .affine x' y' ∧ scalarMul c k (.affine x y) = .affine x' y' ∧ Valid c x' y' := by
  have hvp := (valid_iff c x y).1 hP
  obtain ⟨x', y', he, hv⟩ := ecMul_valid c hvp h0 hn
  exact ⟨x', y', he, (scalarMul_eq_ecMul c hvp (c.lt_two_pow_nbits hn)).trans he, (valid_iff c x' y').2 hv⟩

/-! ## The checks of a point and of a scalar -/

section
variable {c : Curve}

theorem pointCheck_pass {x y : Nat} (r : CmdResult) (hP : Valid c x y) :
    (if !validPoint c x y then .raise .point else r) = r := if_neg (by simp [(valid_iff c x y).1 hP])

theorem pointCheck_raise {x y : Nat} (r : CmdResult) (hP : ¬ Valid c x y) :
    (if !validPoint c x y then .raise .point else r) = .raise .point := if_pos (by simp [mt (valid_iff c x y).2 hP])

theorem scalarCheck_pass {k : Nat} (r : CmdResult) (h0 : k ≠ 0) (hn : k < c.n) :
    (if k = 0 ∨ k ≥ c.n then .raise .scalar else r) = r := if_neg (not_or.2 ⟨h0, hn.not_ge⟩)

end

end Sys2Proof.Machine

/-! PROOFS. The obligation of the family 43_scalar_mult.md. -/

namespace Sys2Proof.Machine

/-- Settles O46: past the two checks `ScalarMul` is `ECMUL`, and the multiple is a valid point, whose coordinates fit a slot. -/
theorem smulComputesTheMultiple : Obligations.SmulComputesTheMultiple := by
  intro rd ra rb
  refine ⟨commonRule_runCommand rfl fun _ => rfl, fun s l c h => ?_⟩
  intro x y k
  refine ⟨fun hP h0 hn => ?_, fun hP => failsWith_of_body h rfl (pointCheck_raise _ hP), fun hP hk => ?_⟩
  · obtain ⟨x', y', he, hs, -, hx, hy, -⟩ := scalarMul_valid c hP h0 hn
    have hbody : smulBody rd ra rb l c = affineResult rd (.affine x' y') :=
      calc smulBody rd ra rb l c
          = if k = 0 ∨ k ≥ c.n then .raise .scalar else affineResult rd (scalarMul c k (.affine x y)) :=
            pointCheck_pass _ hP
        _ = affineResult rd (scalarMul c k (.affine x y)) := scalarCheck_pass _ h0 hn
        _ = affineResult rd (.affine x' y') := congrArg _ hs
    exact ⟨x', y', he, completesWith_pair h rfl List.mem_cons_self hbody (hx.trans c.p_lt) (hy.trans c.p_lt)⟩
  · exact failsWith_of_body h rfl ((pointCheck_pass _ hP).trans (if_pos hk))

end Sys2Proof.Machine

/-! SUPPORT. The protocol commands: a completion read back, the multiples of the generator, and the pseudocode of the commands that
make no draw, past its checks (R820, R830, R845). -/

namespace Sys2Proof.Machine

/-! ## A completion read back -/

section
variable {i : Instr} {s : State} {ws ws' : List (Nat × Nat)} {f f' : Flags}

/-- A command has one end: it does not complete and fail too. -/
theorem CompletesWith.not_failsWith {e : ErrCode} (h : CompletesWith i s ws f) (he : e ≠ .ok) : ¬ FailsWith i s e := by
  rintro ⟨t', hx', -, -, -, herr', -⟩
  obtain ⟨t, hx, -, -, -, herr, -⟩ := h
  cases hx.symm.trans hx'
  exact he (herr'.symm.trans herr)

/-- Two accounts of one completion agree on the slots that both name. -/
theorem CompletesWith.value_eq (h : CompletesWith i s ws f) (h' : CompletesWith i s ws' f') {k v v' : Nat}
    (hk : (k, v) ∈ ws) (hk' : (k, v') ∈ ws') : v = v' := by
  obtain ⟨t, hx, -, -, -, -, -, -, hws, -⟩ := h
  obtain ⟨t', hx', -, -, -, -, -, -, hws', -⟩ := h'
  cases hx.symm.trans hx'
  exact (hws _ hk).symm.trans (hws' _ hk')

/-- Two accounts of one completion with a two-slot result give the same values. -/
theorem CompletesWith.pair_eq {d v0 v1 v0' v1' : Nat} (h : CompletesWith i s [(d, v0), (d + 1, v1)] f)
    (h' : CompletesWith i s [(d, v0'), (d + 1, v1')] f') : v0 = v0' ∧ v1 = v1' :=
  ⟨h.value_eq h' List.mem_cons_self List.mem_cons_self, h.value_eq h' (k := d + 1) (by simp) (by simp)⟩

end

/-- A ready command's spans end at slot 31 or below (R303). -/
theorem State.Ready.span_le {s : State} {l : Latch} {c : Curve} {spans : List (SlotNo × Nat)} {u : Bool} {d : SlotNo} {k : Nat}
    (h : s.Ready l c spans u) (hd : (d, k) ∈ spans) : d.toNat + k - 1 ≤ 31 := by
  obtain ⟨-, hspans, -⟩ := h
  exact hspans _ hd

/-! ## Multiples of the generator (R14, R142) -/

/-- `ScalarMul(k, G)` for a scalar in range: the point `k·G`, which is valid. -/
theorem scalarMul_G (c : Curve) {k : Nat} (h0 : k ≠ 0) (hn : k < c.n) :
    ∃ x y, ecMul c k c.G = .affine x y ∧ scalarMul c k c.G = .affine x y ∧ Valid c x y :=
  scalarMul_valid c (valid_G c) h0 hn

/-- `u·G + v·(d·G) = (u + v·d)·G`. -/
theorem ecAdd_ecMul_key (c : Curve) (u v d : Nat) :
    ecAdd c (ecMul c u c.G) (ecMul c v (ecMul c d c.G)) = ecMul c ((u + v * d) % c.n) c.G := by
  have hmul : ecMul c v (ecMul c d c.G) = ecMul c (v * d % c.n) c.G := ecMul_ecMul c c.G_valid v d
  rw [hmul, ← Nat.add_mod_mod]
  exact ecAdd_ecMul c c.G_valid u (v * d % c.n)

/-- The two sides of a key agreement reach the same point (R830). -/
theorem ecMul_ecMul_comm (c : Curve) (d d' : Nat) : ecMul c d (ecMul c d' c.G) = ecMul c d' (ecMul c d c.G) := by
  have hmul : ∀ u v, ecMul c u (ecMul c v c.G) = ecMul c (u * v % c.n) c.G := ecMul_ecMul c c.G_valid
  rw [hmul, hmul, mul_comm]

/-! ## Pseudocode past the checks -/

section
variable {rd ra rb : SlotNo} {l : Latch} {c : Curve} {x y : Nat}

theorem scalarCheck_raise {k : Nat} (r : CmdResult) (h : k = 0 ∨ c.n ≤ k) :
    (if k = 0 ∨ k ≥ c.n then .raise .scalar else r) = .raise .scalar := if_pos h

theorem pubkeyBody_of_mul (h0 : l.slot ra ≠ 0) (hn : l.slot ra < c.n) (hs : scalarMul c (l.slot ra) c.G = .affine x y) :
    pubkeyBody rd ra l c = .complete (writePair rd x y) Flags.clear := by
  simp only [pubkeyBody, scalarCheck_pass _ h0 hn, hs]

theorem ecdhBody_of_mul (hP : Valid c (l.pair ra).1 (l.pair ra).2) (h0 : l.slot rb ≠ 0) (hn : l.slot rb < c.n)
    (hs : scalarMul c (l.slot rb) (.affine (l.pair ra).1 (l.pair ra).2) = .affine x y) :
    ecdhBody rd ra rb l c = .complete (writeSlot rd x) Flags.clear := by
  simp only [ecdhBody, pointCheck_pass _ hP, scalarCheck_pass _ h0 hn, hs]

section
variable (hd0 : l.slot ra ≠ 0) (hdn : l.slot ra < c.n) (hk0 : l.slot rb ≠ 0) (hkn : l.slot rb < c.n)
include hd0 hdn hk0 hkn

theorem signkBody_of_ok {r sig : Nat} (hs : signWith c (l.slot ra) (bits2int c l) (l.slot rb) = .ok (r, sig)) :
    signkBody rd ra rb l c = .complete (writePair rd r sig) Flags.clear := by
  simp only [signkBody, scalarCheck_pass _ hd0 hdn, scalarCheck_pass _ hk0 hkn, hs]

theorem signkBody_of_error {e : ErrCode} (hs : signWith c (l.slot ra) (bits2int c l) (l.slot rb) = .error e) :
    signkBody rd ra rb l c = .raise e := by
  simp only [signkBody, scalarCheck_pass _ hd0 hdn, scalarCheck_pass _ hk0 hkn, hs]

end

theorem signkBody_raise (h : (l.slot ra = 0 ∨ c.n ≤ l.slot ra) ∨ l.slot rb = 0 ∨ c.n ≤ l.slot rb) :
    signkBody rd ra rb l c = .raise .scalar := by
  by_cases hd : l.slot ra = 0 ∨ c.n ≤ l.slot ra
  · exact scalarCheck_raise _ hd
  · exact (if_neg hd).trans (scalarCheck_raise _ (h.resolve_left hd))

end

end Sys2Proof.Machine

/-! SUPPORT. Signatures: the digest scalar, the range test of VERIFY, and why a signature verifies (R802, R840, R850). -/

namespace Sys2Proof.Machine

/-! ## The check of a signature (R850) -/

/-- `1 ≤ r, s ≤ n - 1`, the first test of VERIFY. -/
theorem signatureRange_iff (c : Curve) (r sig : Nat) :
    (1 ≤ r && r < c.n && 1 ≤ sig && sig < c.n) = true ↔ 1 ≤ r ∧ r ≤ c.n - 1 ∧ 1 ≤ sig ∧ sig ≤ c.n - 1 := by
  have := c.n_pos
  simp only [Bool.and_eq_true, decide_eq_true_eq]
  omega

theorem signatureCheck_pass {c : Curve} {r sig : Nat} (q q' : CmdResult)
    (h : 1 ≤ r ∧ r ≤ c.n - 1 ∧ 1 ≤ sig ∧ sig ≤ c.n - 1) :
    (if !(1 ≤ r && r < c.n && 1 ≤ sig && sig < c.n) then q else q') = q' :=
  if_neg (by simp only [(signatureRange_iff c r sig).2 h]; decide)

theorem signatureCheck_stop {c : Curve} {r sig : Nat} (q q' : CmdResult)
    (h : ¬(1 ≤ r ∧ r ≤ c.n - 1 ∧ 1 ≤ sig ∧ sig ≤ c.n - 1)) :
    (if !(1 ≤ r && r < c.n && 1 ≤ sig && sig < c.n) then q else q') = q :=
  if_pos (by rw [Bool.eq_false_iff.2 (mt (signatureRange_iff c r sig).1 h)]; rfl)

theorem verifyAccepts_iff (c : Curve) (r : Nat) (P : Point) :
    verifyAccepts c r P = true ↔ ∃ x' y', P = .affine x' y' ∧ x' % c.n = r := by
  cases P with
  | inf => simp [verifyAccepts]
  | affine x y => simp [verifyAccepts]

/-- The point that VERIFY computes, by the multiples of R14. -/
theorem verifyPoint_eq {c : Curve} {x y : Nat} (z r sig : Nat) (hQ : Valid c x y) :
    verifyPoint c z r sig (.affine x y) =
      ecAdd c (ecMul c (z * invMod sig c.n % c.n) c.G) (ecMul c (r * invMod sig c.n % c.n) (.affine x y)) := by
  have hmul : ∀ u x' y', Valid c x' y' → scalarMul c (u % c.n) (.affine x' y') = ecMul c (u % c.n) (.affine x' y') :=
    fun u x' y' hP => scalarMul_eq_ecMul c ((valid_iff c x' y').1 hP) (c.lt_two_pow_nbits (Nat.mod_lt u c.n_pos))
  have hG : ∀ u, scalarMul c (u % c.n) c.G = ecMul c (u % c.n) c.G := fun u => hmul u _ _ (valid_G c)
  simp only [verifyPoint, hG, hmul _ x y hQ]

/-- The scalar of VERIFY's point is the nonce: `z·s⁻¹ + r·s⁻¹·d = k` for `s = k⁻¹·(z + r·d)`, modulo `n` (R840, R850). -/
theorem verify_scalar {n k w v d z r sig : Nat} (hk : k < n) (hw : InverseOf n k w) (hv : InverseOf n sig v)
    (hsig : sig = w * (z + r * d) % n) : (z * v % n + r * v % n * d) % n = k := by
  obtain ⟨hw1, hwn, hkw⟩ := hw
  obtain ⟨-, -, hsv⟩ := hv
  have hn : 1 < n := hw1.trans_lt hwn
  have hkw' : k * w ≡ 1 [MOD n] := hkw.trans (Nat.mod_eq_of_lt hn).symm
  have hsv' : sig * v ≡ 1 [MOD n] := hsv.trans (Nat.mod_eq_of_lt hn).symm
  have hsig' : w * (z + r * d) ≡ sig [MOD n] := by
    rw [hsig]
    exact (Nat.mod_modEq _ _).symm
  have key : z * v % n + r * v % n * d ≡ k [MOD n] :=
    calc z * v % n + r * v % n * d ≡ z * v + r * v * d [MOD n] :=
          (Nat.mod_modEq _ _).add ((Nat.mod_modEq _ _).mul_right d)
      _ = 1 * (v * (z + r * d)) := by ring
      _ ≡ k * w * (v * (z + r * d)) [MOD n] := hkw'.symm.mul_right _
      _ = k * v * (w * (z + r * d)) := by ring
      _ ≡ k * v * sig [MOD n] := hsig'.mul_left _
      _ = k * (sig * v) := by ring
      _ ≡ k * 1 [MOD n] := hsv'.mul_left _
      _ = k := mul_one k
  exact Eq.trans key (Nat.mod_eq_of_lt hk)

/-- A signature makes VERIFY's point one whose x-coordinate is `r` modulo `n`. -/
theorem SignatureOf.verifies {c : Curve} {d z k r sig v x y : Nat} (h : SignatureOf c d z k r sig) (hk : k < c.n)
    (hv : InverseOf c.n sig v) (hQ : ecMul c d c.G = .affine x y) :
    ∃ x' y', ecAdd c (ecMul c (z * v % c.n) c.G) (ecMul c (r * v % c.n) (.affine x y)) = .affine x' y' ∧ x' % c.n = r := by
  obtain ⟨x', y', w, hR, hw, hr, -, hsig, -⟩ := h
  refine ⟨x', y', ?_, hr.symm⟩
  rw [← hQ, ecAdd_ecMul_key, verify_scalar hk hw hv hsig, hR]

/-- The two parts of a signature are in the range that VERIFY asks for. -/
theorem SignatureOf.inRange {c : Curve} {d z k r sig : Nat} (h : SignatureOf c d z k r sig) :
    1 ≤ r ∧ r ≤ c.n - 1 ∧ 1 ≤ sig ∧ sig ≤ c.n - 1 := by
  obtain ⟨x, y, w, -, -, hr, hr0, hsig, hs0, -⟩ := h
  have hrn : r < c.n := hr ▸ Nat.mod_lt _ c.n_pos
  have hsn : sig < c.n := hsig ▸ Nat.mod_lt _ c.n_pos
  omega

/-- The two parts of a signature fit a slot. -/
theorem SignatureOf.fits {c : Curve} {d z k r sig : Nat} (h : SignatureOf c d z k r sig) : r < 2 ^ 256 ∧ sig < 2 ^ 256 := by
  have hrange := h.inRange
  have := c.n_lt
  omega

/-! ## The digest scalar (R802) -/

theorem intBE_map_range_succ (b : Nat → BitVec 8) (L : Nat) :
    intBE ((List.range (L + 1)).map b) = 256 * intBE ((List.range L).map b) + (b L).toNat := by
  rw [List.range_succ, List.map_append, intBE, List.foldl_append]
  rfl

/-- A byte string read big-endian, as the sum of R13. -/
theorem intBE_map_range (b : Nat → BitVec 8) (L : Nat) :
    intBE ((List.range L).map b) = ∑ i ∈ Finset.range L, (b i).toNat * 256 ^ (L - 1 - i) := by
  induction L with
  | zero => rfl
  | succ L ih =>
    have hterm : ∀ i ∈ Finset.range L, 256 * ((b i).toNat * 256 ^ (L - 1 - i)) = (b i).toNat * 256 ^ (L + 1 - 1 - i) := by
      intro i hi
      have hexp : L + 1 - 1 - i = L - 1 - i + 1 := by
        have := Finset.mem_range.1 hi
        omega
      rw [hexp, pow_succ]
      ring
    rw [intBE_map_range_succ, ih, Finset.sum_range_succ, Finset.mul_sum, Finset.sum_congr rfl hterm]
    simp

theorem intBE_map_range_lt (b : Nat → BitVec 8) (L : Nat) : intBE ((List.range L).map b) < 2 ^ (8 * L) := by
  induction L with
  | zero => exact Nat.one_pos
  | succ L ih =>
    have hb := (b L).isLt
    rw [intBE_map_range_succ, Nat.mul_succ, pow_add]
    omega

/-- `2^nbits ≤ 2n`, since `nbits` is the bit length of `n` (R10). -/
theorem two_pow_nbits_le (c : Curve) : 2 ^ c.nbits ≤ 2 * c.n := by
  cases c <;> decide

end Sys2Proof.Machine

/-! SUPPORT. Compressed points: the root of a given parity, and DECOMPRESS by it (R860, R870). -/

namespace Sys2Proof.Machine

/-! ## The root of a given parity -/

/-- Of the roots below an odd prime of one residue, no two have the same parity. -/
theorem root_unique {p y y' : Nat} (hp : p.Prime) (h2 : p % 2 = 1) (hy : y < p) (hy' : y' < p)
    (hsq : y * y % p = y' * y' % p) (hpar : y % 2 = y' % 2) : y = y' := by
  have : Fact p.Prime := ⟨hp⟩
  have hcast : (y : ZMod p) * y = y' * y' := by
    exact_mod_cast (ZMod.natCast_eq_natCast_iff' (y * y) (y' * y') p).2 hsq
  rcases mul_self_eq_mul_self_iff.1 hcast with h | h
  · exact (natCast_inj_of_lt hy hy').1 h
  · have hsum : ((y + y' : Nat) : ZMod p) = 0 := by rw [Nat.cast_add, h, neg_add_cancel]
    obtain ⟨q, hq⟩ := (ZMod.natCast_eq_zero_iff _ _).1 hsum
    have hq2 : q < 2 := by
      by_contra hge
      have := Nat.mul_le_mul_left p (not_lt.1 hge)
      omega
    interval_cases q <;> omega

theorem p_odd (c : Curve) : c.p % 2 = 1 := by
  cases c <;> decide

/-- A square modulo `p` passes the test of R515, by Fermat's little theorem. -/
theorem quadraticResidue_mul_self (c : Curve) (y : Nat) : QuadraticResidue c.p (y * y % c.p) := by
  have : Fact c.p.Prime := ⟨c.p_prime⟩
  rw [quadraticResidue_iff, isQuadraticResidue_iff, ZMod.natCast_mod, Nat.cast_mul]
  by_cases h0 : (y : ZMod c.p) = 0
  · refine .inl ?_
    have hdvd : c.p ∣ y := (ZMod.natCast_eq_zero_iff y c.p).1 h0
    exact Nat.mod_eq_zero_of_dvd (hdvd.mul_right y)
  · refine .inr ?_
    have hexp : 2 * ((c.p - 1) / 2) = c.p - 1 := by
      have := p_odd c
      omega
    rw [← pow_two, ← pow_mul, hexp, ZMod.pow_card_sub_one_eq_one h0]

/-- `α = (x³ + a·x + b) mod p`, the square that an ordinate at `x` has (R870). -/
def alpha (c : Curve) (x : Nat) : Nat := (x ^ 3 + c.a * x + c.b) % c.p

theorem alpha_lt (c : Curve) (x : Nat) : alpha c x < c.p := Nat.mod_lt _ c.p_pos

/-- No point has `y = 0`: the curve's cubic has no root (R142). -/
theorem alpha_ne_zero (c : Curve) (x : Nat) : alpha c x ≠ 0 := by
  intro h0
  have hcast : ((alpha c x : Nat) : ZMod c.p) = (x : ZMod c.p) ^ 3 + c.a * x + c.b := by
    rw [alpha, ZMod.natCast_mod]
    push_cast
    rfl
  exact c.cubic_ne_zero x (by rw [← hcast, h0, Nat.cast_zero])

/-- The valid points at `x` are those whose ordinate squares to `α`. -/
theorem valid_iff_root (c : Curve) {x y : Nat} (hx : x < c.p) (hy : y < c.p) : Valid c x y ↔ y * y % c.p = alpha c x := by
  have hon : onCurve c x y = true ↔ y * y % c.p = alpha c x := by
    rw [onCurve_iff, alpha, ← ZMod.natCast_eq_natCast_iff']
    push_cast
    rw [pow_two]
  rw [valid_iff, ← hon]
  refine ⟨fun h => ?_, validPoint_of_onCurve c hx hy⟩
  obtain ⟨-, -, -, honCurve⟩ := (validPoint_iff c x y).1 h
  exact honCurve

/-- The root that DECOMPRESS takes: `SqrtP(α)`, or its negative if the parity asks for it (R870). -/
def rootOfParity (c : Curve) (par A : Nat) : Nat :=
  if sqrtP c.p A % 2 = par then sqrtP c.p A else (c.p - sqrtP c.p A) % c.p

theorem negative_mul_self_mod {p y : Nat} (hy : y ≤ p) : (p - y) * (p - y) % p = y * y % p := by
  rw [← ZMod.natCast_eq_natCast_iff', Nat.cast_mul, Nat.cast_mul, Nat.cast_sub hy, CharP.cast_eq_zero, zero_sub, neg_mul_neg]

/-- A nonzero square below `p` has a root of either parity. -/
theorem rootOfParity_spec {c : Curve} {par A : Nat} (hqr : QuadraticResidue c.p A) (hA : A < c.p) (h0 : A ≠ 0)
    (hpar : par < 2) :
    rootOfParity c par A < c.p ∧ rootOfParity c par A * rootOfParity c par A % c.p = A ∧ rootOfParity c par A % 2 = par := by
  have hlt := sqrtP_lt hqr
  have hsq := sqrtP_mul_self_mod hqr hA
  have hne : sqrtP c.p A ≠ 0 := mt (sqrtP_eq_zero_iff hqr hA).1 h0
  unfold rootOfParity
  split_ifs with h
  · exact ⟨hlt, hsq, h⟩
  · have hodd := p_odd c
    rw [Nat.mod_eq_of_lt (by omega)]
    exact ⟨by omega, (negative_mul_self_mod hlt.le).trans hsq, by omega⟩

theorem squareCheck_pass {c : Curve} {A : Nat} (r : CmdResult) (h : QuadraticResidue c.p A) :
    (if !isQuadraticResidue c.p A then .raise .point else r) = r := if_neg (by simp [(quadraticResidue_iff c A).1 h])

theorem squareCheck_raise {c : Curve} {A : Nat} (r : CmdResult) (h : ¬ QuadraticResidue c.p A) :
    (if !isQuadraticResidue c.p A then .raise .point else r) = .raise .point :=
  if_pos (by simp [mt (quadraticResidue_iff c A).2 h])

/-- DECOMPRESS by the notions of R870. -/
theorem decompressBody_eq (rd ra : SlotNo) (l : Latch) (c : Curve) :
    decompressBody rd ra l c =
      let par := (l.pair ra).1 % 2
      let x := (l.pair ra).2
      if x ≥ c.p then .raise .point
      else if !isQuadraticResidue c.p (alpha c x) then .raise .point
      else if rootOfParity c par (alpha c x) % 2 ≠ par then .raise .point
      else .complete (writePair rd x (rootOfParity c par (alpha c x))) (Flags.ofParity (par = 1)) := by
  simp only [decompressBody, alpha, rootOfParity, pow_succ, pow_zero, one_mul]

end Sys2Proof.Machine

/-! SUPPORT. KEYGEN and SIGN: the common rule of a command that draws, the endings of their loop told from the answers at hand, and
what a completion says of the answers (R800, R803, R910, R931). -/

namespace Sys2Proof.Machine

/-! ## The common rule and the common checks -/

section
variable {i : Instr} {s : State} {l : Latch} {c : Curve}

/-- The encoding and the common errors of any command but NOP (R16, R910). -/
theorem commonRule_of_checks {w : Word} (hi : i ≠ .nop) (hw : encode i = w) : CommonRule i w i.spans (readsDigest i) := by
  have hfail : ∀ s l e, s.eng = .busy l → commonChecks l i.spans (readsDigest i) = .error e → FailsWith i s e := by
    intro s l e hb he
    apply failsWith_fail
    rw [exec_eq_endWith, State.latched_of_busy s l hb, commandEnding, if_neg hi, he]
    rfl
  exact ⟨hw, hw ▸ decodeOfEncodeIsTheCommand i, fun s l hb hc => hfail s l _ hb (commonChecks_curve _ _ _ hc),
    fun s l c hr hbad => hfail s l _ hr.1 (commonChecks_operand _ _ _ c hr.2 (operandError_of_bad hbad))⟩

variable (hi : i ≠ .nop) (h : s.Ready l c i.spans (readsDigest i))
include hi h

theorem commandEnding_ready : commandEnding i s.latched s.currentTry s.entropy = bodyEnding l c s.currentTry s.entropy i := by
  obtain ⟨hb, hc⟩ := h.1
  rw [State.latched_of_busy s l hb, commandEnding, if_neg hi, commonChecks_ok l _ _ c hc (operandError_of_ready h)]

/-- A ready command does to the state what the ending of its pseudocode says. -/
theorem exec_ready : exec i s = .next (s.endWith (bodyEnding l c s.currentTry s.entropy i)) := by
  rw [exec_eq_endWith, commandEnding_ready hi h]

end

/-! ## The loop on the answers at hand (R800) -/

/-- This answer makes a try fail: the draw is rejected, or the loop's body fails on the candidate. -/
def TryFails {α : Type} (c : Curve) (body : Nat → Except ErrCode α) (a : EntropyAnswer) : Prop :=
  DrawRejected c a ∨ ∃ w e, a = .ok w ∧ Accepted c w ∧ body (Candidate c w) = .error e

section
variable {α : Type} {c : Curve} {body : Nat → Except ErrCode α} {pre rest : List EntropyAnswer}

theorem Accepted.ne_zero {w : Vector Word 8} (h : Accepted c w) : Candidate c w ≠ 0 := by
  obtain ⟨h1, -⟩ := h
  omega

theorem Accepted.lt {w : Vector Word 8} (h : Accepted c w) : Candidate c w < c.n := by
  obtain ⟨h1, h2⟩ := h
  omega

theorem retryLoop_drawRejected {a : EntropyAnswer} (h : DrawRejected c a) (fuel t : Nat) (last : ErrCode) :
    retryLoop c body (fuel + 1) t last (a :: rest) = retryLoop c body fuel (t + 1) .rng rest := by
  obtain rfl | ⟨w, rfl, hw⟩ := h
  · rfl
  · exact retryLoop_rejected c body fuel t last w rest (not_not.1 fun hc => hw ((accepted_iff c w).2 hc))

theorem retryLoop_accepted_ok {w : Vector Word 8} {v : α} (h : Accepted c w) (hb : body (Candidate c w) = .ok v)
    (fuel t : Nat) (last : ErrCode) : retryLoop c body (fuel + 1) t last (.ok w :: rest) = .ok v t rest :=
  retryLoop_body_ok c body fuel t last w rest v ((accepted_iff c w).1 h) (by rw [candidate_eq, hb])

theorem retryLoop_accepted_error {w : Vector Word 8} {e : ErrCode} (h : Accepted c w) (hb : body (Candidate c w) = .error e)
    (fuel t : Nat) (last : ErrCode) :
    retryLoop c body (fuel + 1) t last (.ok w :: rest) = retryLoop c body fuel (t + 1) e rest :=
  retryLoop_body_error c body fuel t last e w rest ((accepted_iff c w).1 h) (by rw [candidate_eq, hb])

variable {onOk : α → List (Nat × Nat)} {onFail : ErrCode → ErrCode} {t : Nat} (hpre : ∀ a ∈ pre, TryFails c body a)
include hpre

/-- Failing tries are passed over, with the tries that are left of 64. -/
theorem retryLoop_from (es : List EntropyAnswer) (ht : t + pre.length ≤ 64) :
    ∃ last, retryLoop c body (Config.maxTries + 1 - t) t .rng (pre ++ es) =
      retryLoop c body (64 - (t + pre.length) + 1) (t + pre.length) last es := by
  have hfuel : Config.maxTries + 1 - t = 64 - (t + pre.length) + 1 + pre.length := by
    rw [Config.maxTries]
    omega
  rw [hfuel]
  exact retryLoop_skip c body pre _ t .rng es hpre

/-- The loop ends at the first try that succeeds. -/
theorem loopEnding_success {w : Vector Word 8} {v : α} (hw : Accepted c w) (hb : body (Candidate c w) = .ok v)
    (ht : t + pre.length ≤ 64) :
    loopEnding c body onOk onFail t (pre ++ .ok w :: rest) = .done (.complete (onOk v) Flags.clear) (t + pre.length) rest := by
  obtain ⟨last, hl⟩ := retryLoop_from hpre (.ok w :: rest) ht
  rw [loopEnding, hl, retryLoop_accepted_ok hw hb]

/-- The loop ends with the class of try 64, if that fails too. -/
theorem loopEnding_exhausted {a : EntropyAnswer} {e : ErrCode}
    (ha : ∀ last, retryLoop c body 1 64 last (a :: rest) = .fail e rest) (ht : t + pre.length = 64) :
    loopEnding c body onOk onFail t (pre ++ a :: rest) = .done (.raise (onFail e)) 64 rest := by
  obtain ⟨last, hl⟩ := retryLoop_from hpre (a :: rest) ht.le
  rw [ht] at hl
  rw [loopEnding, hl, ha]
  rfl

/-- The loop waits where the answers run out. -/
theorem loopEnding_waits (ht : t + pre.length ≤ 64) :
    loopEnding c body onOk onFail t pre = .waits (t + pre.length) := by
  obtain ⟨last, hl⟩ := retryLoop_from hpre [] ht
  rw [List.append_nil] at hl
  rw [loopEnding, hl]
  rfl

end

/-! ## The endings as completions -/

/-- A two-slot result whose RD span is below slot 32 is a list of distinct slots and of values that fit them. -/
theorem writePair_fits {d : SlotNo} {v0 v1 : Nat} (hd : d.toNat + 2 - 1 ≤ 31) (h0 : v0 < 2 ^ 256) (h1 : v1 < 2 ^ 256) :
    ∀ w ∈ writePair d v0 v1, w.1 < 32 ∧ w.2 < 2 ^ 256 := by
  simp only [writePair, List.forall_mem_cons, List.not_mem_nil, IsEmpty.forall_iff, implies_true, and_true]
  exact ⟨⟨d.isLt, h0⟩, by omega, h1⟩

theorem writePair_fst_nodup (d : SlotNo) (v0 v1 : Nat) : ((writePair d v0 v1).map Prod.fst).Nodup := by simp

theorem writeTriple_fits {d : SlotNo} {v0 v1 v2 : Nat} (hd : d.toNat + 3 - 1 ≤ 31) (h0 : v0 < 2 ^ 256) (h1 : v1 < 2 ^ 256)
    (h2 : v2 < 2 ^ 256) : ∀ w ∈ writeTriple d v0 v1 v2, w.1 < 32 ∧ w.2 < 2 ^ 256 := by
  simp only [writeTriple, List.forall_mem_cons, List.not_mem_nil, IsEmpty.forall_iff, implies_true, and_true]
  exact ⟨⟨d.isLt, h0⟩, ⟨by omega, h1⟩, by omega, h2⟩

section
variable {i : Instr} {s : State} {l : Latch} {n : Nat} {rest : List EntropyAnswer}

section
variable {α : Type} {c : Curve} {body : Nat → Except ErrCode α} {onOk : α → List (Nat × Nat)} {onFail : ErrCode → ErrCode}
  (hexec : exec i s = .next (s.endWith (loopEnding c body onOk onFail s.currentTry s.entropy)))
include hexec

/-- The loop's success is a completion with the number of the try (R800, R906). -/
theorem completesAfterTries_of_loop {pre : List EntropyAnswer} {w : Vector Word 8} {v : α}
    (hes : s.entropy = pre ++ .ok w :: rest) (hpre : ∀ a ∈ pre, TryFails c body a) (hw : Accepted c w)
    (hb : body (Candidate c w) = .ok v) (ht : s.currentTry + pre.length ≤ 64) (hnd : ((onOk v).map Prod.fst).Nodup)
    (hfits : ∀ w ∈ onOk v, w.1 < 32 ∧ w.2 < 2 ^ 256) :
    CompletesAfterTries i s (s.currentTry + pre.length) rest (onOk v) := by
  rw [hes, loopEnding_success hpre hw hb ht] at hexec
  exact ⟨_, hexec, engineDone_complete .., sameSetup_complete .., rfl, rfl, rfl, rfl,
    slotsWritten_complete { s with entropy := rest } (onOk v) Flags.clear _ hnd hfits⟩

/-- The loop's exhaustion is an error with the class of try 64 (R803). -/
theorem exhaustsWith_of_loop {pre : List EntropyAnswer} {a : EntropyAnswer} {e : ErrCode}
    (hes : s.entropy = pre ++ a :: rest) (hpre : ∀ b ∈ pre, TryFails c body b)
    (ha : ∀ last, retryLoop c body 1 64 last (a :: rest) = .fail e rest) (ht : s.currentTry + pre.length = 64) :
    ExhaustsWith i s rest (onFail e) := by
  rw [hes, loopEnding_exhausted hpre ha ht] at hexec
  exact ⟨_, hexec, engineDone_fail .., sameSetup_fail .., rfl, rfl, rfl, rfl, rfl⟩

/-- A running command whose answers run out stays as it is but for its draw (R931). -/
theorem exec_of_loop_waiting (hb : s.eng = .busy l) (hall : ∀ a ∈ s.entropy, TryFails c body a)
    (ht : s.currentTry + s.entropy.length ≤ 64) :
    exec i s = .next { s with tryCounter := s.currentTry + s.entropy.length, entPending := true, entropy := [] } := by
  rw [hexec, loopEnding_waits hall ht, State.endWith, State.waitForDraw, State.latched_of_busy s l hb, ← hb]

end

/-- What a completion after some tries says of the command's ending. -/
theorem CompletesAfterTries.ending {ws : List (Nat × Nat)} (h : CompletesAfterTries i s n rest ws) :
    ∃ ws' f n', commandEnding i s.latched s.currentTry s.entropy = .done (.complete ws' f) n' rest ∧
      BitVec.ofNat 8 n' = BitVec.ofNat 8 n ∧ ∀ w ∈ ws, (s.slots.putAll ws').get w.1 = w.2 := by
  obtain ⟨u, hu, ⟨hidle, -⟩, -, hrest, herr, -, htries, hslots, -⟩ := h
  rw [exec_eq_endWith] at hu
  cases hu
  have hwrites := commandEnding_writesAt i s.latched s.currentTry s.entropy
  obtain ⟨r, n', rest', hen⟩ := endWith_idle hidle
  rw [hen] at hrest herr htries hslots hwrites ⊢
  cases r with
  | complete ws' f =>
    obtain rfl : rest' = rest := hrest
    exact ⟨ws', f, n', rfl, htries, hslots⟩
  | raise e => exact absurd herr hwrites

end

/-- A loop that completes has succeeded. -/
theorem loopEnding_complete {α : Type} {c : Curve} {body : Nat → Except ErrCode α} {onOk : α → List (Nat × Nat)}
    {onFail : ErrCode → ErrCode} {t n : Nat} {es rest : List EntropyAnswer} {ws : List (Nat × Nat)} {f : Flags}
    (h : loopEnding c body onOk onFail t es = .done (.complete ws f) n rest) :
    ∃ v, ws = onOk v ∧ retryLoop c body (Config.maxTries + 1 - t) t .rng es = .ok v n rest := by
  unfold loopEnding at h
  cases hl : retryLoop c body (Config.maxTries + 1 - t) t .rng es with
  | ok v n' rest' =>
    rw [hl] at h
    cases h
    exact ⟨v, rfl, rfl⟩
  | fail last rest' => rw [hl] at h; cases h
  | waiting n' => rw [hl] at h; cases h

/-- KEYGEN ends as its loop does. -/
theorem exec_keygen {s : State} {l : Latch} {c : Curve} {rd : SlotNo} (h : s.Ready l c [(rd, 3)] false) :
    exec (.keygen rd) s = .next (s.endWith (loopEnding c (fun k => .ok (k, scalarMul c k c.G))
      (fun dQ => writeTriple rd dQ.1 dQ.2.coords.1 dQ.2.coords.2) (fun _ => .rng) s.currentTry s.entropy)) :=
  exec_ready (i := .keygen rd) nofun h

/-! ## The tries of SIGN (R840) -/

theorem signTryFails_iff (c : Curve) (d z : Nat) (a : EntropyAnswer) :
    TryFails c (signWith c d z) a ↔ SignTryFails c d z a := by
  refine or_congr_right ⟨?_, ?_⟩
  · rintro ⟨w, e, ha, hw, he⟩
    exact ⟨w, ha, hw, ((signWith_error_iff c hw.ne_zero hw.lt).1 he).2⟩
  · rintro ⟨w, ha, hw, hdeg⟩
    exact ⟨w, .degen, ha, hw, (signWith_error_iff c hw.ne_zero hw.lt).2 ⟨rfl, hdeg⟩⟩

section
variable {s : State} {l : Latch} {c : Curve} {rd ra : SlotNo} (h : s.Ready l c [(rd, 2), (ra, 1)] true)
include h

/-- SIGN with a key in range ends as its loop does. -/
theorem exec_sign_of_key (h0 : l.slot ra ≠ 0) (hn : l.slot ra < c.n) :
    exec (.sign rd ra) s = .next (s.endWith (loopEnding c (signWith c (l.slot ra) (bits2int c l))
      (fun rs => writePair rd rs.1 rs.2) id s.currentTry s.entropy)) := by
  rw [exec_ready (i := .sign rd ra) nofun h, bodyEnding, if_neg (not_or.2 ⟨h0, hn.not_ge⟩)]

/-- SIGN with a key out of range ends before any draw. -/
theorem exec_sign_of_bad_key (hd : l.slot ra = 0 ∨ c.n ≤ l.slot ra) :
    exec (.sign rd ra) s = .next (s.fail .scalar 0) := by
  rw [exec_ready (i := .sign rd ra) nofun h, bodyEnding, if_pos hd]
  rfl

/-- What a SIGN that completes has done: its key is in range, and its result is the signature of the first try that fails in none of
the ways of R840. -/
theorem sign_result {n r sig : Nat} {rest : List EntropyAnswer}
    (hc : CompletesAfterTries (.sign rd ra) s n rest [(rd.toNat, r), (rd.toNat + 1, sig)]) :
    (l.slot ra ≠ 0 ∧ l.slot ra < c.n) ∧ ∃ pre w, s.entropy = pre ++ .ok w :: rest ∧ s.currentTry + pre.length ≤ 64 ∧
      BitVec.ofNat 8 (s.currentTry + pre.length) = BitVec.ofNat 8 n ∧ Accepted c w ∧
      (∀ a ∈ pre, SignTryFails c (l.slot ra) (bits2int c l) a) ∧
      SignatureOf c (l.slot ra) (bits2int c l) (Candidate c w) r sig := by
  obtain ⟨ws, f, n', hen, htries, hslots⟩ := hc.ending
  rw [commandEnding_ready (i := .sign rd ra) nofun h, bodyEnding] at hen
  by_cases hd : l.slot ra = 0 ∨ l.slot ra ≥ c.n
  · rw [if_pos hd] at hen
    cases hen
  rw [if_neg hd] at hen
  obtain ⟨hd0, hdn⟩ : l.slot ra ≠ 0 ∧ l.slot ra < c.n := ⟨(not_or.1 hd).1, not_le.1 (not_or.1 hd).2⟩
  obtain ⟨⟨r', sig'⟩, rfl, hloop⟩ := loopEnding_complete hen
  obtain ⟨pre, w, hes, rfl, hlen, hpre, hw, hok⟩ := retryLoop_ok c _ _ _ _ _ hloop
  have hsig := (signWith_ok_iff c hw.ne_zero hw.lt).1 hok
  rw [Config.maxTries] at hlen
  obtain ⟨hr256, hs256⟩ := hsig.fits
  have hput := Slots.get_putAll_of_mem _ s.slots (writePair_fst_nodup rd r' sig')
    (writePair_fits (h.span_le List.mem_cons_self) hr256 hs256)
  obtain rfl : r' = r := (hput (rd.toNat, r') (by simp [writePair])).symm.trans (hslots (rd.toNat, r) (by simp))
  obtain rfl : sig' = sig :=
    (hput (rd.toNat + 1, sig') (by simp [writePair])).symm.trans (hslots (rd.toNat + 1, sig) (by simp))
  exact ⟨⟨hd0, hdn⟩, pre, w, hes, by omega, htries, hw, fun a ha => (signTryFails_iff c _ _ a).1 (hpre a ha), hsig⟩

end

end Sys2Proof.Machine

/-! PROOFS. The obligations of the family 44_protocol.md. -/

namespace Sys2Proof.Machine

/-! ## Keys, compressed points, and SIGNK and VERIFY alone -/

/-- Settles O47: the bytes read big-endian are below `2^(8·DLEN)`, so the leftmost bits are below `2^nbits ≤ 2n`. -/
theorem digestScalarKeepsTheLeftmostBits : Obligations.DigestScalarKeepsTheLeftmostBits := by
  intro c l hdlen L e e'
  have he : intBE (l.digest.bytes L) = e := intBE_map_range ..
  have he256 : e < 2 ^ (8 * L) := he ▸ intBE_map_range_lt ..
  have hlt : e' < 2 ^ c.nbits := by
    by_cases hL : 8 * L > c.nbits
    · simp only [e', if_pos hL]
      refine Nat.div_lt_of_lt_mul (he256.trans_eq ?_)
      rw [← pow_add, Nat.sub_add_cancel hL.le]
    · simp only [e', if_neg hL]
      exact he256.trans_le (Nat.pow_le_pow_right two_pos (not_lt.1 hL))
  have hz : bits2int c l = e' % c.n := by
    simp only [bits2int, Nat.shiftRight_eq_div_pow]
    rw [he]
  have h2n := two_pow_nbits_le c
  refine ⟨hlt, hz, ?_⟩
  rw [hz]
  by_cases hn : e' < c.n
  · exact .inl (Nat.mod_eq_of_lt hn)
  · have hsub : e' % c.n = e' - c.n := by
      rw [Nat.mod_eq_sub_mod (not_lt.1 hn), Nat.mod_eq_of_lt (by omega)]
    exact .inr (by omega)

/-- Settles O49: past the check `ScalarMul` is `ECMUL`, and `d·G` is a valid point, whose coordinates fit a slot. -/
theorem pubkeyComputesTheKey : Obligations.PubkeyComputesTheKey := by
  intro rd ra
  refine ⟨commonRule_runCommand rfl fun _ => rfl, fun s l c h => ?_⟩
  intro d
  refine ⟨fun h0 hn => ?_, fun hd => failsWith_of_body h rfl (scalarCheck_raise _ hd)⟩
  obtain ⟨x, y, he, hs, hP⟩ := scalarMul_G c h0 hn
  have ⟨_, hx, hy, _⟩ := hP
  exact ⟨x, y, he, hP, completesWith_pair h rfl List.mem_cons_self (pubkeyBody_of_mul h0 hn hs) (hx.trans c.p_lt)
    (hy.trans c.p_lt)⟩

/-- Settles O50: the point check comes before the scalar's; past both the multiple is a valid point, whose `x` is below `p`. -/
theorem ecdhGivesTheSharedX : Obligations.EcdhGivesTheSharedX := by
  intro rd ra rb
  refine ⟨commonRule_runCommand rfl fun _ => rfl, fun s l c h => ?_⟩
  intro x y d
  refine ⟨fun hP h0 hn => ?_, fun hP => failsWith_of_body h rfl (pointCheck_raise _ hP), fun hP hd =>
    failsWith_of_body h rfl ((pointCheck_pass _ hP).trans (scalarCheck_raise _ hd))⟩
  obtain ⟨x', y', he, hs, -, hx, -, -⟩ := scalarMul_valid c hP h0 hn
  exact ⟨x', y', he, hx, completesWith_slot h rfl (ecdhBody_of_mul hP h0 hn hs) (hx.trans c.p_lt)⟩

/-- A PUBKEY that completes had a scalar in range, and its result is the valid point `d·G`. -/
theorem pubkey_result {s : State} {l : Latch} {c : Curve} {rd ra : SlotNo} {x y : Nat} {f : Flags}
    (h : s.Ready l c [(rd, 2), (ra, 1)] false)
    (hc : CompletesWith (.pubkey rd ra) s [(rd.toNat, x), (rd.toNat + 1, y)] f) :
    l.slots.get ra.toNat ≠ 0 ∧ l.slots.get ra.toNat < c.n ∧ ecMul c (l.slots.get ra.toNat) c.G = .affine x y ∧
      Valid c x y := by
  obtain ⟨-, hrule⟩ := pubkeyComputesTheKey rd ra
  obtain ⟨hkey, hbad⟩ := hrule s l c h
  by_cases hd : l.slots.get ra.toNat = 0 ∨ c.n ≤ l.slots.get ra.toNat
  · exact absurd (hbad hd) (hc.not_failsWith nofun)
  · obtain ⟨h0, hn⟩ := not_or.1 hd
    obtain ⟨x', y', he, hP, hc'⟩ := hkey h0 (not_le.1 hn)
    obtain ⟨rfl, rfl⟩ := hc.pair_eq hc'
    exact ⟨h0, not_le.1 hn, he, hP⟩

/-- Settles O51: both keys are multiples of `G`, so both products are `(dA·dB)·G`. -/
theorem ecdhIsSymmetric : Obligations.EcdhIsSymmetric := by
  rintro c _ _ xA yA xB yB sA sB s1 s2 lA lB l1 l2 pd pa rd ra rb rd' ra' rb' hA hB rfl rfl hcA hcB h1 h2 rfl rfl hdA rfl rfl hdB
  obtain ⟨hA0, hAn, hQA, hPA⟩ := pubkey_result hA hcA
  obtain ⟨hB0, hBn, hQB, hPB⟩ := pubkey_result hB hcB
  rw [← hdA] at hA0 hAn hQA
  rw [← hdB] at hB0 hBn hQB
  obtain ⟨-, hecdh⟩ := ecdhGivesTheSharedX rd ra rb
  obtain ⟨-, hecdh'⟩ := ecdhGivesTheSharedX rd' ra' rb'
  obtain ⟨v, w, hv, -, hc1⟩ := (hecdh s1 l1 c h1).1 hPB hA0 hAn
  obtain ⟨v', w', hv', -, hc2⟩ := (hecdh' s2 l2 c h2).1 hPA hB0 hBn
  have hsame : Point.affine v w = .affine v' w' := by
    rw [← hv, ← hv', ← hQB, ← hQA, ecMul_ecMul_comm]
  cases hsame
  exact ⟨v, hc1, hc2⟩

/-- Settles O54: past the checks of `d` and `k` the one signature is `signWith`, whose ends are those of R845. -/
theorem signkSignsWithTheGivenNonce : Obligations.SignkSignsWithTheGivenNonce := by
  intro rd ra rb
  refine ⟨commonRule_runCommand rfl fun _ => rfl, fun s l c h => ?_⟩
  intro d k z
  refine ⟨fun hd0 hdn hk0 hkn => ⟨?_, fun r sig hsig => ?_, fun hdeg => ?_⟩, fun hbad => ?_⟩
  · cases hend : signWith c d z k with
    | ok rs => exact .inl ⟨rs.1, rs.2, (signWith_ok_iff c hk0 hkn).1 hend⟩
    | error e => exact .inr ((signWith_error_iff c hk0 hkn).1 hend).2
  · have hok := (signWith_ok_iff c hk0 hkn).2 hsig
    obtain ⟨hr256, hs256⟩ := hsig.fits
    exact completesWith_pair h rfl List.mem_cons_self (signkBody_of_ok hd0 hdn hk0 hkn hok) hr256 hs256
  · have herr := (signWith_error_iff c hk0 hkn).2 ⟨rfl, hdeg⟩
    exact failsWith_of_body h rfl (signkBody_of_error hd0 hdn hk0 hkn herr)
  · exact failsWith_of_body h rfl (signkBody_raise (or_assoc.2 hbad))

/-- Settles O56: the range test, then the point check, then the two multiples of R14. -/
theorem verifyChecksTheSignature : Obligations.VerifyChecksTheSignature := by
  intro ra rb
  refine ⟨commonRule_runCommand rfl fun _ => rfl, fun s l c h => ?_⟩
  intro x y r sig z inRange
  refine ⟨fun hout => ?_, fun hin hP => ?_, fun hin hP => ?_⟩
  · exact completesWith_of_body h rfl (signatureCheck_stop _ _ hout) List.nodup_nil nofun
  · exact failsWith_of_body h rfl ((signatureCheck_pass _ _ hin).trans (pointCheck_raise _ hP))
  · have ⟨_, _, hs1, hsn⟩ := hin
    have hlt : sig < c.n := by omega
    refine ⟨invMod sig c.n, inverseOf_invMod c.n_prime (by omega) hlt, verifyAccepts c r (verifyPoint c z r sig (.affine x y)),
      ?_, ?_⟩
    · rw [verifyAccepts_iff, verifyPoint_eq z r sig hP]
    · exact completesWith_of_body h rfl ((signatureCheck_pass _ _ hin).trans (pointCheck_pass _ hP)) List.nodup_nil nofun

/-- Settles O58: past the point check the result is the prefix and `x`, which fit their slots. -/
theorem compressKeepsXAndParity : Obligations.CompressKeepsXAndParity := by
  intro rd ra
  refine ⟨commonRule_runCommand rfl fun _ => rfl, fun s l c h => ?_⟩
  intro x y
  refine ⟨fun hP => ?_, fun hP => failsWith_of_body h rfl (pointCheck_raise _ hP)⟩
  have ⟨_, hx, _, _⟩ := hP
  exact completesWith_pair h rfl List.mem_cons_self (pointCheck_pass _ hP) (by omega) (hx.trans c.p_lt)

/-- Settles O59: `α` is never 0, so a square `α` has a root of either parity, and the two make valid points. -/
theorem decompressRecoversThePoint : Obligations.DecompressRecoversThePoint := by
  intro rd ra
  refine ⟨commonRule_runCommand rfl fun _ => rfl, fun s l c h => ?_⟩
  intro par x α
  refine ⟨fun hx => ?_, fun hx hqr => ?_, fun hx hqr => ?_⟩
  · exact failsWith_of_body h rfl ((decompressBody_eq ..).trans (if_pos hx))
  · exact failsWith_of_body h rfl ((decompressBody_eq ..).trans ((if_neg hx.not_ge).trans (squareCheck_raise _ hqr)))
  · obtain ⟨hlt, hsq, hpar⟩ := rootOfParity_spec hqr (alpha_lt c x) (alpha_ne_zero c x) (Nat.mod_lt _ two_pos : par < 2)
    have hbody : decompressBody rd ra l c =
        .complete (writePair rd x (rootOfParity c par (alpha c x))) (Flags.ofParity (par = 1)) :=
      (decompressBody_eq ..).trans
        ((if_neg hx.not_ge).trans ((squareCheck_pass _ hqr).trans (if_neg (not_not.2 hpar))))
    exact ⟨_, hlt, hsq, hpar, (valid_iff_root c hx hlt).2 hsq,
      completesWith_pair h rfl List.mem_cons_self hbody (hx.trans c.p_lt) (hlt.trans c.p_lt)⟩

/-- Settles O60: the prefix keeps the parity of `y`, and of the roots of `α` only `y` has that parity. -/
theorem decompressUndoesCompress : Obligations.DecompressUndoesCompress := by
  rintro c _ _ pre cx s1 s2 l1 l2 rd ra rd' ra' hP h1 h2 rfl rfl hc1 hpre hcx
  obtain ⟨-, hcompress⟩ := compressKeepsXAndParity rd ra
  obtain ⟨rfl, rfl⟩ := hc1.pair_eq ((hcompress s1 l1 c h1).1 hP)
  have ⟨_, hx, hy, _⟩ := hP
  have hsq := (valid_iff_root c hx hy).1 hP
  have hqr : QuadraticResidue c.p (alpha c (l1.slots.get ra.toNat)) := hsq ▸ quadraticResidue_mul_self c _
  obtain ⟨-, hdecompress⟩ := decompressRecoversThePoint rd' ra'
  obtain ⟨-, -, hpoint⟩ := hdecompress s2 l2 c h2
  rw [hcx, hpre, Nat.add_mod_left, Nat.mod_mod] at hpoint
  obtain ⟨y', hy', hsq', hpar, -, hc2⟩ := hpoint hx hqr
  obtain rfl := root_unique c.p_prime (p_odd c) hy' hy (hsq'.trans hsq.symm) hpar
  exact hc2

/-! ## The commands that draw, and the signatures of SIGN and SIGNK -/

/-- Settles O48: the loop passes over the rejected answers, and its body cannot fail, since `d·G` is a valid point. -/
theorem keygenTakesTheFirstAcceptedCandidate : Obligations.KeygenTakesTheFirstAcceptedCandidate := by
  intro rd
  refine ⟨commonRule_of_checks nofun rfl, fun s l c h => ⟨?_, ?_, ?_⟩⟩
  · intro pre w rest hes hpre hw ht
    obtain ⟨x, y, he, hs, hP⟩ := scalarMul_G c hw.ne_zero hw.lt
    have ⟨_, hx, hy, _⟩ := hP
    exact ⟨x, y, he, hP, completesAfterTries_of_loop (v := (Candidate c w, .affine x y)) (exec_keygen h) hes
      (fun a ha => .inl (hpre a ha)) hw (by rw [hs]) ht (by simp)
      (writeTriple_fits (h.span_le List.mem_cons_self) (hw.lt.trans c.n_lt) (hx.trans c.p_lt) (hy.trans c.p_lt))⟩
  · intro pre a rest hes hrej ht
    obtain ⟨hpre, ha⟩ := List.forall_mem_append.1 hrej
    exact exhaustsWith_of_loop (exec_keygen h) hes (fun b hb => .inl (hpre b hb))
      (retryLoop_drawRejected (ha a List.mem_cons_self) 0 64) ht
  · exact fun hrej ht => exec_of_loop_waiting (exec_keygen h) h.1.1 (fun a ha => .inl (hrej a ha)) ht

/-- Settles O52: the loop passes over the failing tries, and the signature ends it; a bad key ends SIGN before the loop. -/
theorem signTakesTheFirstGoodNonce : Obligations.SignTakesTheFirstGoodNonce := by
  intro rd ra
  refine ⟨commonRule_of_checks nofun rfl, fun s l c h => ?_⟩
  intro d z
  refine ⟨fun h0 hn pre w rest r sig hes hpre hw hsig ht => ?_, fun hd => failsWith_fail (exec_sign_of_bad_key h hd)⟩
  have hok : signWith c d z (Candidate c w) = .ok (r, sig) := (signWith_ok_iff c hw.ne_zero hw.lt).2 hsig
  obtain ⟨hr256, hs256⟩ := hsig.fits
  exact completesAfterTries_of_loop (exec_sign_of_key h h0 hn) hes (fun a ha => (signTryFails_iff c d z a).2 (hpre a ha)) hw hok
    ht (writePair_fst_nodup ..) (writePair_fits (h.span_le List.mem_cons_self) hr256 hs256)

/-- Settles O53: past the failing tries before it, the class of try 64 is the loop's, RNG or DEGEN. -/
theorem signExhaustionKeepsTheLastClass : Obligations.SignExhaustionKeepsTheLastClass := by
  intro rd ra s l c h d z h0 hn
  have hexec := exec_sign_of_key h h0 hn
  refine ⟨fun pre a rest hes hpre ht => ?_, fun hall ht => ?_⟩
  · have hfails : ∀ b ∈ pre, TryFails c (signWith c d z) b := fun b hb => (signTryFails_iff c d z b).2 (hpre b hb)
    refine ⟨fun hrej => ?_, fun w ha hw hdeg => ?_⟩
    · exact exhaustsWith_of_loop hexec hes hfails (retryLoop_drawRejected hrej 0 64) ht
    · have herr := (signWith_error_iff c hw.ne_zero hw.lt).2 ⟨rfl, hdeg⟩
      exact exhaustsWith_of_loop hexec (ha ▸ hes) hfails (retryLoop_accepted_error hw herr 0 64) ht
  · exact exec_of_loop_waiting hexec h.1.1 (fun a ha => (signTryFails_iff c d z a).2 (hall a ha)) ht

/-- Settles O55: SIGN's completion gives back its successful try, and SIGNK with that nonce makes the same signature. -/
theorem signAgreesWithSignk : Obligations.SignAgreesWithSignk := by
  intro c s1 l1 rd ra n rest r sig h1 hn hc
  obtain ⟨⟨hd0, hdn⟩, pre, w, hes, hle, htries, hw, hpre, hsig⟩ := sign_result h1 hc
  have hnum : s1.currentTry + pre.length = n := by
    have hmod := congrArg BitVec.toNat htries
    rw [BitVec.toNat_ofNat, BitVec.toNat_ofNat] at hmod
    omega
  refine ⟨pre, w, hes, hnum.symm, hw, hpre, fun s2 l2 rd' ra' rb' h2 hlen hdig hd hk => ?_⟩
  have hz : bits2int c l2 = bits2int c l1 := bits2int_congr c hlen fun b _ => by rw [hdig]
  obtain ⟨-, hrule⟩ := signkSignsWithTheGivenNonce rd' ra' rb'
  obtain ⟨hsignk, -⟩ := hrule s2 l2 c h2
  rw [hd, hk, hz] at hsignk
  obtain ⟨-, hsigns, -⟩ := hsignk hd0 hdn hw.ne_zero hw.lt
  exact hsigns r sig hsig

/-- What a SIGNK that completes has done: its key and nonce are in range, and its result is the signature. -/
theorem signk_result {s : State} {l : Latch} {c : Curve} {rd ra rb : SlotNo} {r sig : Nat} {f : Flags}
    (h : s.Ready l c [(rd, 2), (ra, 1), (rb, 1)] true)
    (hc : CompletesWith (.signk rd ra rb) s [(rd.toNat, r), (rd.toNat + 1, sig)] f) :
    (l.slot ra ≠ 0 ∧ l.slot ra < c.n) ∧ l.slot rb < c.n ∧ SignatureOf c (l.slot ra) (bits2int c l) (l.slot rb) r sig := by
  obtain ⟨hsigns, hbad⟩ := (signkSignsWithTheGivenNonce rd ra rb).2 s l c h
  by_cases hd : l.slot ra = 0 ∨ c.n ≤ l.slot ra ∨ l.slot rb = 0 ∨ c.n ≤ l.slot rb
  · exact absurd (hbad hd) (hc.not_failsWith nofun)
  · simp only [not_or, not_le] at hd
    obtain ⟨hd0, hdn, hk0, hkn⟩ := hd
    obtain ⟨hends, hok, hdegen⟩ := hsigns hd0 hdn hk0 hkn
    obtain ⟨r', sig', hsig⟩ := hends.resolve_right fun hdeg => hc.not_failsWith (e := .degen) nofun (hdegen hdeg)
    obtain ⟨rfl, rfl⟩ := hc.pair_eq (hok r' sig' hsig)
    exact ⟨⟨hd0, hdn⟩, hkn, hsig⟩

/-- Settles O57: either command's result is the signature of some nonce `k` under `d`, and VERIFY's point is then `k·G`. -/
theorem signaturesVerify : Obligations.SignaturesVerify := by
  rintro c s1 s2 l1 l2 rd ra rb ra' rb' _ _ _ _ hsource hQ h2 hlen hdig rfl rfl rfl rfl
  have hsigned : (l1.slot ra ≠ 0 ∧ l1.slot ra < c.n) ∧ ∃ k, k < c.n ∧ SignatureOf c (l1.slot ra) (bits2int c l1) k
      (l2.slots.get rb'.toNat) (l2.slots.get (rb'.toNat + 1)) := by
    obtain ⟨h1, hc⟩ | ⟨h1, n, rest, hc⟩ := hsource
    · obtain ⟨hd, hk, hsig⟩ := signk_result h1 hc
      exact ⟨hd, _, hk, hsig⟩
    · obtain ⟨hd, -, w, -, -, -, hw, -, hsig⟩ := sign_result h1 hc
      exact ⟨hd, _, hw.lt, hsig⟩
  obtain ⟨⟨hd0, hdn⟩, k, hk, hsig⟩ := hsigned
  obtain ⟨x, y, he, -, hP⟩ := scalarMul_G c hd0 hdn
  cases hQ.symm.trans he
  have hz : bits2int c l2 = bits2int c l1 := bits2int_congr c hlen fun b _ => by rw [hdig]
  obtain ⟨-, -, hchecks⟩ := (verifyChecksTheSignature ra' rb').2 s2 l2 c h2
  obtain ⟨w, hw, v, hv, hc⟩ := hchecks hsig.inRange hP
  rw [hz] at hv
  rwa [hv.2 (hsig.verifies hk hw hQ)] at hc

end Sys2Proof.Machine

/-! SUPPORT. Answers that arrive in parts: a loop that waits has used every answer at hand and kept nothing of them but the number of
its try, so it goes on as if the later answers had been there from the start (R930, R931). -/

namespace Sys2Proof.Machine

/-! ## The loop, told where its answers run out (R800, R931) -/

section
variable {α : Type} {c : Curve} {body : Nat → Except ErrCode α}

/-- Every answer makes its try fail, or is accepted with a candidate on which the body succeeds. -/
theorem tryFails_or_succeeds (a : EntropyAnswer) :
    TryFails c body a ∨ ∃ w v, a = .ok w ∧ Accepted c w ∧ body (Candidate c w) = .ok v := by
  cases a with
  | fail => exact .inl (.inl (.inl rfl))
  | ok w =>
    by_cases hw : Accepted c w
    · cases hb : body (Candidate c w) with
      | ok v => exact .inr ⟨w, v, rfl, hw, hb⟩
      | error e => exact .inl (.inr ⟨w, e, rfl, hw, hb⟩)
    · exact .inl (.inl (.inr ⟨w, rfl, hw⟩))

/-- A loop that waits has used all its answers in tries that failed, and has a try left. -/
theorem retryLoop_eq_waiting {es : List EntropyAnswer} : ∀ {fuel t n : Nat} {last : ErrCode},
    retryLoop c body fuel t last es = .waiting n →
    n = t + es.length ∧ es.length < fuel ∧ ∀ a ∈ es, TryFails c body a := by
  induction es with
  | nil =>
    intro fuel t n last h
    cases fuel with
    | zero => cases h
    | succ fuel =>
      cases h
      exact ⟨rfl, Nat.succ_pos fuel, nofun⟩
  | cons a es ih =>
    intro fuel t n last h
    cases fuel with
    | zero => cases h
    | succ fuel =>
      obtain ha | ⟨w, v, rfl, hw, hb⟩ := tryFails_or_succeeds (c := c) (body := body) a
      · obtain ⟨last', hnext⟩ := retryLoop_next c body fuel t last a es ha
        obtain ⟨hn, hlt, hes⟩ := ih (hnext ▸ h)
        rw [List.length_cons]
        exact ⟨by omega, by omega, List.forall_mem_cons.2 ⟨ha, hes⟩⟩
      · rw [retryLoop_accepted_ok hw hb] at h
        cases h

/-- The class of the last try does not matter to a loop with a try left, since that try sets it anew. -/
theorem retryLoop_last_irrelevant (fuel t : Nat) (last last' : ErrCode) (es : List EntropyAnswer) :
    retryLoop c body (fuel + 1) t last es = retryLoop c body (fuel + 1) t last' es := by
  rcases es with _ | ⟨_ | w, es⟩ <;> rfl

variable {onOk : α → List (Nat × Nat)} {onFail : ErrCode → ErrCode} {t n : Nat} {es1 : List EntropyAnswer}

/-- A loop that waits goes on, from the try it waits at, as on all the answers at once. -/
theorem loopEnding_append (h : loopEnding c body onOk onFail t es1 = .waits n) (es2 : List EntropyAnswer) :
    loopEnding c body onOk onFail n es2 = loopEnding c body onOk onFail t (es1 ++ es2) := by
  have hwait : retryLoop c body (Config.maxTries + 1 - t) t .rng es1 = .waiting n := by
    unfold loopEnding at h
    split at h
    · cases h
    · cases h
    · next hl => cases h; exact hl
  obtain ⟨rfl, hlt, hfails⟩ := retryLoop_eq_waiting hwait
  have ht : t + es1.length ≤ 64 := by rw [Config.maxTries] at hlt; omega
  have hfuel : Config.maxTries + 1 - (t + es1.length) = 64 - (t + es1.length) + 1 := by rw [Config.maxTries]; omega
  obtain ⟨last, hskip⟩ := retryLoop_from hfails es2 ht
  rw [loopEnding, loopEnding, hskip, hfuel, retryLoop_last_irrelevant _ _ .rng last]

end

/-! ## The command's ending and the state -/

section
variable {i : Instr} {l : Latch} {t n : Nat} {es1 : List EntropyAnswer}

theorem bodyEnding_append {c : Curve} (h : bodyEnding l c t es1 i = .waits n) (es2 : List EntropyAnswer) :
    bodyEnding l c n es2 i = bodyEnding l c t (es1 ++ es2) i := by
  cases i with
  | keygen rd => exact loopEnding_append h es2
  | sign rd ra =>
    simp only [bodyEnding] at h ⊢
    split_ifs at h ⊢ with hd
    exact loopEnding_append h es2
  | _ => cases h

/-- A command that waits ends, once it has its other answers, as on all of them at once. -/
theorem commandEnding_append (h : commandEnding i l t es1 = .waits n) (es2 : List EntropyAnswer) :
    commandEnding i l n es2 = commandEnding i l t (es1 ++ es2) := by
  unfold commandEnding at h ⊢
  split_ifs at h ⊢ with hi
  cases hc : commonChecks l i.spans (readsDigest i) with
  | error e => rw [hc] at h; cases h
  | ok c => rw [hc] at h; exact bodyEnding_append h es2

end

/-- A command that is still running after its turn waits at a try. -/
theorem endWith_busy {s : State} {en : Ending} (h : (s.endWith en).eng ≠ .idle) : ∃ n, en = .waits n := by
  cases en with
  | done r n rest => exact absurd (endWith_done_eng s r n rest) h
  | waits n => exact ⟨n, rfl⟩

/-- The wait of a running command changes its draw and nothing else (R931). -/
theorem waitForDraw_of_busy (s : State) {l : Latch} (hb : s.eng = .busy l) (n : Nat) :
    s.waitForDraw n = { s with tryCounter := n, entPending := true, entropy := [] } := by
  rw [State.waitForDraw, State.latched_of_busy s l hb, ← hb]

/-- Every ending sets anew what a wait has changed. -/
theorem endWith_setDraw (s : State) (n : Nat) (pending : Bool) (es es' : List EntropyAnswer) (en : Ending) :
    State.endWith { s with tryCounter := n, entPending := pending, entropy := es } en =
      State.endWith { s with entropy := es' } en := by
  rcases en with ⟨_ | _, _, _⟩ | _ <;> rfl

end Sys2Proof.Machine

/-! SUPPORT. A CMD write while busy (R1020), and ERR event by event: what a register write and the engine's turn leave of it (R905,
R906). -/

namespace Sys2Proof.Machine

theorem writeReg_cmd_busy {s : State} {l : Latch} (hb : s.eng = .busy l) (v : Word) : s.writeReg .cmd v = s.refuseWrite :=
  if_pos (State.busy_of_busy s l hb)

/-- Of all register writes only an issue touches ERR. -/
theorem err_writeReg (s : State) (r : Reg) (v : Word) :
    (s.writeReg r v).err = s.err ∨ (s.eng = .idle ∧ s.writeReg r v = s.issue v) := by
  cases he : s.eng with
  | busy l =>
    obtain h | h | ⟨-, h⟩ := writeReg_busy he r v
    all_goals
      rw [h]
      exact .inl rfl
  | idle =>
    cases r with
    | id | reserved | status => exact .inl rfl
    | ctrl => exact .inl (by rw [writeReg_ctrl_idle he])
    | dlen => exact .inl (by rw [writeReg_dlen_idle he])
    | digest j => exact .inl (by rw [writeReg_digest_idle he])
    | slot k j => exact .inl (by rw [writeReg_slot_idle he])
    | cmd => exact .inr ⟨rfl, writeReg_cmd_idle he v⟩

/-- A bus access keeps ERR, or it issues a command. -/
theorem err_busAccess (a : Access) (s : State) :
    (s.busAccess a).err = s.err ∨ (s.eng = .idle ∧ (s.busAccess a).busy = true ∧ (s.busAccess a).err = .ok) := by
  obtain ⟨v, -, -, hw⟩ | ⟨r, hr⟩ := busAccess_cases a s
  · rw [hw]
    obtain h | ⟨hidle, h⟩ := err_writeReg s (Reg.ofOffset a.offset) v
    · exact .inl h
    · rw [h]
      exact .inr ⟨hidle, rfl, rfl⟩
  · rw [hr]
    exact .inl rfl

/-- The engine's turn answers a next state, and changes ERR only by completing a running command. -/
theorem err_runEngine (s : State) :
    ∃ t, s.runEngine = .next t ∧ (t.err = s.err ∨ (s.busy = true ∧ t.eng = .idle)) := by
  cases he : s.eng with
  | idle => exact ⟨s, by simp only [State.runEngine, he], .inl rfl⟩
  | busy l =>
    obtain ⟨en, hrun⟩ : ∃ en, s.runEngine = .next (s.endWith en) := by
      obtain ⟨i, -, h⟩ | ⟨e, h⟩ := runEngine_busy he
      exacts [⟨_, h⟩, ⟨_, h⟩]
    refine ⟨_, hrun, ?_⟩
    cases en with
    | done r n rest => exact .inr ⟨State.busy_of_busy s l he, endWith_done_eng ..⟩
    | waits n => exact .inl rfl

end Sys2Proof.Machine

/-! PROOFS. The obligations of the family 60_exceptions.md. -/

namespace Sys2Proof.Machine

/-- Settles O24: the command waits at a try that is left to it, its ending from there is the one on all the answers, and that ending
sets every field that the wait has changed. -/
theorem answersMayArriveInParts : Obligations.AnswersMayArriveInParts := by
  intro i s t l es1 es2 hb hexec hbusy
  rw [exec_eq_endWith] at hexec
  cases hexec
  obtain ⟨n, hwaits⟩ := endWith_busy hbusy
  have hall : commandEnding i s.latched n es2 = commandEnding i s.latched s.currentTry (es1 ++ es2) :=
    commandEnding_append hwaits es2
  rw [hwaits, State.endWith, waitForDraw_of_busy { s with entropy := es1 } hb, exec_eq_endWith, exec_eq_endWith]
  exact congrArg _ ((congrArg _ hall).trans (endWith_setDraw s n true es2 (es1 ++ es2) _))

/-- Settles O7: the step of a write to CMD in either engine state. -/
theorem cmdWriteIssuesTheCommand : Obligations.CmdWriteIssuesTheCommand := by
  intro s w rest hi
  have hstep := step_writeReg (r := .cmd) hi rfl (by norm_num) rfl
  refine ⟨fun hidle => ?_, fun l hb => ?_⟩
  · rw [writeReg_cmd_idle hidle] at hstep
    exact ⟨_, hstep, rfl, rfl⟩
  · rw [writeReg_cmd_busy hb] at hstep
    exact hstep

/-- Settles O8, by the cases of a step. -/
theorem noTrapAndErrKeptUntilNextIssue : Obligations.NoTrapAndErrKeptUntilNextIssue := by
  intro s
  obtain ⟨hturn, h⟩ | ⟨a, rest, -, h⟩ | ⟨es, h⟩ | ⟨rest, hi, h⟩ := step_cases s
  · obtain ⟨t, ht, herr | ⟨hbusy, hidle⟩⟩ := err_runEngine s.advance
    · exact ⟨t, h.trans ht, .inl herr⟩
    · exact ⟨t, h.trans ht, .inr (.inr (.inl ⟨hbusy, hturn, hidle⟩))⟩
  · obtain herr | hissue := err_busAccess a s.advance
    · exact ⟨_, h, .inl herr⟩
    · exact ⟨_, h, .inr (.inl hissue)⟩
  · exact ⟨_, h, .inl rfl⟩
  · exact ⟨_, h, .inr (.inr (.inr ⟨rest, hi⟩))⟩

end Sys2Proof.Machine

/-! SUPPORT. Reset, the accesses to a running block, ACCERR event by event, and the turn of a running word with its answers at hand
(R1000, R1020, R1021, R1032). -/

namespace Sys2Proof.Machine

/-! ## Reset (R1000, R1001) -/

theorem step_reset {s : State} {rest : List Input} (h : s.inputs = .reset :: rest) : step s = .next s.advance.resetInput := by
  simp only [step, h]

/-- An answer to an abandoned draw is taken from the inputs and changes nothing else (R1001). -/
theorem step_lateEntropy {s : State} {a : EntropyAnswer} {rest : List Input} (h : s.inputs = .lateEntropy a :: rest) :
    step s = .next { s with inputs := rest, resp := none } := by
  rw [← advance_of_inputs h]
  simp only [step, h]

theorem Slots.get_replicate_zero (k : Nat) : Slots.get (Vector.replicate 32 0) k = 0 := by
  by_cases hk : k < 32 <;> simp [Slots.get, hk]

/-- The words with several fields read 0 at reset (R1000). -/
theorem reset_words : State.reset.ctrlWord = 0 ∧ State.reset.statusWord = 0 ∧ State.reset.dlenWord = 0 := by
  decide

/-- The registers after a reset (R1000). -/
theorem resetInput_registers (s : State) :
    (∀ k, s.resetInput.slots.get k = 0) ∧ s.resetInput.ctrlWord = 0 ∧ s.resetInput.cmd = 0 ∧ s.resetInput.statusWord = 0 ∧
    s.resetInput.dlenWord = 0 ∧ (∀ j : Fin 8, s.resetInput.digest[j] = 0) ∧ s.resetInput.eng = .idle ∧
    s.resetInput.entPending = false ∧ s.resetInput.irq = false :=
  have ⟨hctrl, hstatus, hdlen⟩ := reset_words
  ⟨Slots.get_replicate_zero, hctrl, rfl, hstatus, hdlen, fun j => by simp, rfl, rfl, rfl⟩

/-! ## Accesses to a running block (R1020, R1021) -/

/-- A running block refuses every write but those to ID, STATUS and reserved offsets (R1020). -/
theorem writeReg_busy_refused {s : State} (hb : s.busy = true) {r : Reg} (hid : r ≠ .id) (hstatus : r ≠ .status)
    (hres : r ≠ .reserved) (v : Word) : s.writeReg r v = s.refuseWrite := by
  cases r with
  | id => exact absurd rfl hid
  | status => exact absurd rfl hstatus
  | reserved => exact absurd rfl hres
  | ctrl | cmd | dlen | digest | slot => exact if_pos hb

/-- The offsets that a running block refuses to have written name none of ID, STATUS and the reserved (R210, R1020). -/
theorem ofOffset_of_refused {off : Nat} (hoff : off < 2048)
    (h : off = 0x004 ∨ off = 0x008 ∨ off = 0x010 ∨ (0x040 ≤ off ∧ off ≤ 0x05F) ∨ 0x400 ≤ off) :
    Reg.ofOffset (BitVec.ofNat 11 off) ≠ .id ∧ Reg.ofOffset (BitVec.ofNat 11 off) ≠ .status ∧
      Reg.ofOffset (BitVec.ofNat 11 off) ≠ .reserved := by
  obtain rfl | rfl | rfl | ⟨hlo, hhi⟩ | hslot := h
  iterate 3 decide
  · rw [ofOffset_digest hlo (by omega)]
    exact ⟨nofun, nofun, nofun⟩
  · rw [ofOffset_slot hslot hoff]
    exact ⟨nofun, nofun, nofun⟩

theorem readReg_digest_busy {s : State} (h : s.busy = true) (j : BitVec 3) : s.readReg (.digest j) = 0 := by
  simp [State.readReg, h]

/-- CMD holds the word of the running command (R1021). -/
theorem cmd_of_busy {s : State} {l : Latch} (hb : s.eng = .busy l) (h : s.Inv) : s.cmd = l.word := by
  obtain ⟨hl, -⟩ := (State.inv_of_busy hb).1 h
  rw [hl, State.latchFor]

/-! ## ACCERR (R1020) -/

/-- The W1C write of STATUS clears ACCERR only by bit 5 (R123). -/
theorem accerr_writeStatus {s : State} (hs : s.accerr = true) (v : Word) :
    (s.writeStatus v).accerr = true ∨ v.getLsbD 5 = true := by
  rw [State.writeStatus_accerr, hs]
  cases v.getLsbD 5
  exacts [.inl rfl, .inr rfl]

/-- Of all register writes only that of STATUS with bit 5 clears ACCERR. -/
theorem accerr_writeReg {s : State} (hs : s.accerr = true) (r : Reg) (v : Word) :
    (s.writeReg r v).accerr = true ∨ (r = .status ∧ v.getLsbD 5 = true) := by
  cases r with
  | id | reserved => exact .inl hs
  | status => exact (accerr_writeStatus hs v).imp_right fun hv => ⟨rfl, hv⟩
  | ctrl | cmd | dlen | digest | slot =>
    left
    simp only [State.writeReg]
    split_ifs
    exacts [rfl, hs]

theorem accerr_endWith (s : State) (en : Ending) : (s.endWith en).accerr = s.accerr := by
  rcases en with ⟨_ | _, _, _⟩ | _ <;> rfl

/-- The engine's turn keeps ACCERR, also when it completes a command. -/
theorem accerr_runEngine {s t : State} (ht : s.runEngine = .next t) : t.accerr = s.accerr := by
  cases he : s.eng with
  | idle =>
    simp only [State.runEngine, he] at ht
    cases ht
    rfl
  | busy l =>
    obtain ⟨i, -, h⟩ | ⟨e, h⟩ := runEngine_busy he
    all_goals
      rw [h] at ht
      cases ht
      exact accerr_endWith s _

/-! ## The turn of a running word with its answers at hand (R800, R1032) -/

theorem engineDone_endWith (s : State) (r : CmdResult) (n : Nat) (rest : List EntropyAnswer) :
    EngineDone (s.endWith (.done r n rest)) := by
  cases r with
  | complete ws f => exact engineDone_complete ..
  | raise e => exact engineDone_fail ..

/-- The words of KEYGEN and SIGN are the only ones that draw (R310, R930). -/
theorem opField_of_draws {w : Word} {i : Instr} (hd : decode w = .ok i) (hi : Draws i) :
    opField w = 0x30#8 ∨ opField w = 0x33#8 := by
  rw [opField_of_decode hd]
  obtain ⟨rd, ra, rfl | rfl⟩ := hi
  exacts [.inl rfl, .inr rfl]

section
variable {t n : Nat} {es : List EntropyAnswer}

/-- A loop waits only with fewer answers at hand than tries left of 64. -/
theorem loopEnding_waits_length {α : Type} {c : Curve} {body : Nat → Except ErrCode α} {onOk : α → List (Nat × Nat)}
    {onFail : ErrCode → ErrCode} (h : loopEnding c body onOk onFail t es = .waits n) : t + es.length ≤ Config.maxTries := by
  unfold loopEnding at h
  split at h
  · cases h
  · cases h
  · next hl =>
    obtain ⟨-, hlt, -⟩ := retryLoop_eq_waiting hl
    omega

theorem bodyEnding_waits_length {l : Latch} {c : Curve} {i : Instr} (h : bodyEnding l c t es i = .waits n) :
    t + es.length ≤ Config.maxTries := by
  cases i with
  | keygen rd => exact loopEnding_waits_length h
  | sign rd ra =>
    simp only [bodyEnding] at h
    split_ifs at h
    exact loopEnding_waits_length h
  | _ => cases h

/-- A command waits only with fewer answers at hand than tries left of 64. -/
theorem commandEnding_waits_length {l : Latch} {i : Instr} (h : commandEnding i l t es = .waits n) :
    t + es.length ≤ Config.maxTries := by
  unfold commandEnding at h
  split_ifs at h
  split at h
  · cases h
  · exact bodyEnding_waits_length h

end

/-- A command that waits draws. -/
theorem draws_of_waits {i : Instr} {l : Latch} {t n : Nat} {es : List EntropyAnswer} (h : commandEnding i l t es = .waits n) :
    Draws i := by
  obtain ⟨r, hr⟩ | ⟨hi, -⟩ := commandEnding_cases i l t es
  · rw [hr] at h; cases h
  · exact hi

/-- A running word completes in its turn, if 64 answers are at hand or it is not a KEYGEN or SIGN: a command that waits draws, and
waits with fewer answers. -/
theorem runEngine_completes {s : State} {l : Latch} (hb : s.eng = .busy l) (h : s.BusyInv l)
    (hans : 64 ≤ s.entropy.length ∨ (opField l.word ≠ 0x30 ∧ opField l.word ≠ 0x33)) :
    ∃ r n rest, s.runEngine = .next (s.endWith (.done r n rest)) := by
  obtain ⟨i, hdec, hrun⟩ | ⟨e, hrun⟩ := runEngine_busy hb
  · cases hen : commandEnding i l s.currentTry s.entropy with
    | done r n rest => exact ⟨r, n, rest, hen ▸ hrun⟩
    | waits n =>
      have hfew : s.currentTry + s.entropy.length ≤ 64 := commandEnding_waits_length hen
      have htry : 1 ≤ s.currentTry := one_le_currentTry h
      obtain hmany | ⟨hkeygen, hsign⟩ := hans
      · omega
      · exact ((opField_of_draws hdec (draws_of_waits hen)).elim hkeygen hsign).elim
  · exact ⟨_, _, _, hrun⟩

end Sys2Proof.Machine

/-! PROOFS. The obligations of the family 70_reset_and_hazards.md. -/

namespace Sys2Proof.Machine

/-- Settles O11: the registers after a reset, whatever the state was, and the steps that take the reset and a late answer. -/
theorem resetClearsEverything : Obligations.ResetClearsEverything := by
  refine ⟨fun s rest hi => ⟨_, step_reset hi, ?_⟩, resetInput_registers State.reset⟩
  obtain ⟨hslots, hctrl, hcmd, hstatus, hdlen, hdigest, heng, hpend, hirq⟩ := resetInput_registers s.advance
  have hrest : s.advance.resetInput.inputs = rest := by simp [hi]
  exact ⟨hslots, rfl, hctrl, hcmd, hstatus, hdlen, hdigest, heng, hpend, hirq, hrest,
    fun hp => s.advance.answersAfterReset_of_pending hp, fun hp => s.advance.answersAfterReset_of_not_pending hp,
    fun a rest' hlate => step_lateEntropy (hrest.trans hlate)⟩

/-- Settles O17: the step of each busy write by its register, and ACCERR by the cases of a step. -/
theorem busyWritesAreRefusedAndSetAccerr : Obligations.BusyWritesAreRefusedAndSetAccerr := by
  refine ⟨fun s l off v rest hb hoff h4 hi => ⟨fun ho => ?_, ?_, ?_⟩, fun s t ht hset hclear => ?_⟩
  · obtain ⟨hid, hstatus, hres⟩ := ofOffset_of_refused hoff ho
    rw [step_writeReg hi rfl hoff h4, writeReg_busy_refused (State.busy_of_busy s l hb) hid hstatus hres]
    rfl
  · rintro rfl
    exact step_writeReg (r := .status) hi rfl hoff h4
  · rintro (rfl | ho)
    · exact step_writeReg (r := .id) hi rfl hoff h4
    · exact step_writeReg (r := .reserved) hi (ofOffset_reserved h4 (by omega)) hoff h4
  · obtain ⟨-, h⟩ | ⟨a, rest, hi, h⟩ | ⟨es, h⟩ | ⟨rest, hi, -⟩ := step_cases s
    · have hkept : t.accerr = s.accerr := accerr_runEngine (s := s.advance) (h.symm.trans ht)
      simp [hkept, hset] at hclear
    · rw [h] at ht
      cases ht
      obtain ⟨v, hsup, hkind, hw⟩ | ⟨r, hr⟩ := busAccess_cases a s.advance
      · obtain hkept | ⟨hr, hv⟩ := accerr_writeReg (s := s.advance) hset (Reg.ofOffset a.offset) v
        · simp [hw, hkept] at hclear
        · obtain ⟨-, -, hstatus⟩ := offset_of_reg (off := a.offset)
          exact .inr ⟨a, v, rest, hi, hsup, hstatus hr, hkind, hv⟩
      · simp [hr, hset] at hclear
    · rw [h] at ht
      cases ht
      simp [hset] at hclear
    · exact .inl ⟨rest, hi⟩

/-- Settles O18: the step reads the register at the offset, and a running block hides its slots and DIGEST. -/
theorem busyReadsHideSlotsAndDigest : Obligations.BusyReadsHideSlotsAndDigest := by
  intro s l off rest hb hoff h4 hi
  have hbusy := State.busy_of_busy s l hb
  refine ⟨_, step_readReg hi hoff h4, ?_, ?_, ?_, ?_, ?_, ?_⟩
  · rintro (⟨hlo, hhi⟩ | hslot)
    · rw [ofOffset_digest hlo (by omega), readReg_digest_busy hbusy]
    · rw [ofOffset_slot hslot hoff, readReg_slot_busy hbusy]
  · rintro rfl
    rfl
  · rintro rfl
    rfl
  · rintro rfl
    exact ⟨rfl, cmd_of_busy hb⟩
  · rintro rfl
    rfl
  · rintro rfl
    rfl

/-- Settles O25: the turn ends the running word, which sets DONE. -/
theorem everyCommandCompletes : Obligations.EveryCommandCompletes := by
  intro s l hinv hb hturn hans
  obtain ⟨r, n, rest, hrun⟩ := runEngine_completes (s := s.advance) hb ((State.inv_of_busy hb).1 hinv) hans
  obtain ⟨hidle, hdone, -⟩ := engineDone_endWith s.advance r n rest
  exact ⟨_, (step_engineTurn hturn).trans hrun, hidle, hdone⟩

/-- Settles O10: the state after reset is what a reset leaves. -/
theorem resetHasTheInvariant : Obligations.ResetHasTheInvariant := inv_resetInput State.reset

end Sys2Proof.Machine
